-- ==== Sys2Proof/Word.lean ====
section
/-! DEFINITION. The word types of the engine (00_scope.md R6, R9). -/

namespace Sys2Proof

/-- One byte of the codeword memory `CWM` (20_memory.md R60). -/
abbrev Byte := BitVec 8

/-- The 64-bit pattern an integer register holds (00_scope.md R10, `WORD_BITS` of R6). -/
abbrev Word64 := BitVec 64

/-- A codeword, "a 32-bit unsigned value" (`CW_BITS` of 00_scope.md R6). -/
abbrev Codeword := BitVec 32

/-- A 32-bit command word (30_encoding.md R90). -/
abbrev CommandWord := BitVec 32

end Sys2Proof
end

