-- ==== Sys2Proof/Syntax.lean ====
section
/-! DEFINITION. The 22 commands of 30_encoding.md R94, one constructor per row of the opcode table. -/

namespace Sys2Proof

/-- A command with its operands. `width` and `lsb` are the two immediates of 30_encoding.md R93, read as
unsigned integers; which values can be encoded is `Instr.wellFormed`, which are legal is the command's
own check (40_bitfield_codec.md R113). -/
inductive Instr where
  /-- control: does nothing (R220) -/
  | nop
  /-- control: clears `STATUS.ANYERR` (R221) -/
  | clrerr
  /-- does `VAL`, unsigned, fit `width` bits (R114) -/
  | fitsu (width : Nat)
  /-- does `VAL`, signed, fit `width` bits (R115) -/
  | fitss (width : Nat)
  /-- unsigned field of `WORD` to `VAL` (R116) -/
  | getu (width lsb : Nat)
  /-- signed field of `WORD` to `VAL` (R117) -/
  | gets (width lsb : Nat)
  /-- unsigned `VAL` into a field of `WORD` (R118) -/
  | setu (width lsb : Nat)
  /-- signed `VAL` into a field of `WORD` (R119) -/
  | sets (width lsb : Nat)
  /-- signed to unsigned conversion of `VAL` (R120) -/
  | s2u (width : Nat)
  /-- unsigned to signed conversion of `VAL` (R121) -/
  | u2s (width : Nat)
  /-- forward block transform (R140) -/
  | btfwd
  /-- inverse block transform (R141) -/
  | btinv
  /-- forward quantizer (R165) -/
  | quant
  /-- inverse quantizer (R169) -/
  | dequant
  /-- six quantized fields to one codeword (R182) -/
  | pack
  /-- one codeword to six quantized fields (R183) -/
  | unpack
  /-- load the four pixels of block `BLK` (R201) -/
  | ldpx
  /-- store the four pixels of block `BLK` (R202) -/
  | stpx
  /-- load the codeword of block `BLK` (R203) -/
  | ldcw
  /-- store the codeword of block `BLK` (R204) -/
  | stcw
  /-- compress block `BLK` (R205) -/
  | cblk
  /-- decompress block `BLK` (R206) -/
  | dblk
deriving DecidableEq, Repr

end Sys2Proof
end

