-- ==== Sys2Proof/WellFormed.lean ====
section
/-! DEFINITION. Which commands can be encoded (30_encoding.md R91, R93; the assembler's refusal, R97). -/

namespace Sys2Proof

/-- The 7-bit `width` field encodes 0 to 127 (30_encoding.md R93). -/
def widthEncodable (width : Nat) : Bool := decide (width ≤ 127)

/-- The 6-bit `lsb` field encodes 0 to 63 (30_encoding.md R93). -/
def lsbEncodable (lsb : Nat) : Bool := decide (lsb ≤ 63)

/-- A command is well formed when its operands fit their fields: "The assembler refuses a `width` above
127 or an `lsb` above 63 (not encodable)" (30_encoding.md R97). An encodable but illegal descriptor is
well formed: it fails at run time with `BadDescriptor` (R93). -/
def Instr.wellFormed : Instr → Bool
  | .fitsu width | .fitss width | .s2u width | .u2s width => widthEncodable width
  | .getu width lsb | .gets width lsb | .setu width lsb | .sets width lsb =>
    widthEncodable width && lsbEncodable lsb
  | .nop | .clrerr | .btfwd | .btinv | .quant | .dequant | .pack | .unpack
  | .ldpx | .stpx | .ldcw | .stcw | .cblk | .dblk => true

end Sys2Proof
end

