-- ==== Sys2Proof/Decode.lean ====
section
/-! DEFINITION. The command word: its fields, the three formats, the opcode map, the decoder and the
encoder (30_encoding.md R90 to R96). -/

namespace Sys2Proof

/-- The three formats of 30_encoding.md R92: descriptor, width only, no operand. -/
inductive Format where
  | D
  | W
  | N
deriving DecidableEq, Repr

/-- The mask of fixed bits of a format (30_encoding.md R92). -/
def formatMask : Format → CommandWord
  | .D => 0xFFFF80C0#32
  | .W => 0xFFFF80FF#32
  | .N => 0xFFFFFFFF#32

/-- `v[hi:lo]` of a command word, `(v div 2^lo) mod 2^(hi−lo+1)` (00_scope.md R9). -/
def commandBits (cmd : CommandWord) (hi lo : Nat) : Nat := cmd.toNat / 2 ^ lo % 2 ^ (hi - lo + 1)

/-- `cmd.opcode = cmd[31:24]` (30_encoding.md R91). -/
def opcodeField (cmd : CommandWord) : Nat := commandBits cmd 31 24

/-- `cmd.width = cmd[14:8]` (30_encoding.md R91). -/
def widthField (cmd : CommandWord) : Nat := commandBits cmd 14 8

/-- `cmd.lsb = cmd[5:0]` (30_encoding.md R91). -/
def lsbField (cmd : CommandWord) : Nat := commandBits cmd 5 0

/-- One row of the opcode map: the mnemonic, the opcode, the format, and the command made of the word's
`width` and `lsb`. -/
structure OpcodeRow where
  mnemonic : String
  opcode : Nat
  format : Format
  build : Nat → Nat → Instr

/-- The opcode map, one row per command, in the order of 30_encoding.md R94. -/
def opcodeMap : List OpcodeRow :=
  [ ⟨"NOP", 0x00, .N, fun _ _ => .nop⟩,
    ⟨"CLRERR", 0x01, .N, fun _ _ => .clrerr⟩,
    ⟨"FITSU", 0x10, .W, fun width _ => .fitsu width⟩,
    ⟨"FITSS", 0x11, .W, fun width _ => .fitss width⟩,
    ⟨"GETU", 0x12, .D, fun width lsb => .getu width lsb⟩,
    ⟨"GETS", 0x13, .D, fun width lsb => .gets width lsb⟩,
    ⟨"SETU", 0x14, .D, fun width lsb => .setu width lsb⟩,
    ⟨"SETS", 0x15, .D, fun width lsb => .sets width lsb⟩,
    ⟨"S2U", 0x16, .W, fun width _ => .s2u width⟩,
    ⟨"U2S", 0x17, .W, fun width _ => .u2s width⟩,
    ⟨"BTFWD", 0x20, .N, fun _ _ => .btfwd⟩,
    ⟨"BTINV", 0x21, .N, fun _ _ => .btinv⟩,
    ⟨"QUANT", 0x30, .N, fun _ _ => .quant⟩,
    ⟨"DEQUANT", 0x31, .N, fun _ _ => .dequant⟩,
    ⟨"PACK", 0x40, .N, fun _ _ => .pack⟩,
    ⟨"UNPACK", 0x41, .N, fun _ _ => .unpack⟩,
    ⟨"LDPX", 0x50, .N, fun _ _ => .ldpx⟩,
    ⟨"STPX", 0x51, .N, fun _ _ => .stpx⟩,
    ⟨"LDCW", 0x52, .N, fun _ _ => .ldcw⟩,
    ⟨"STCW", 0x53, .N, fun _ _ => .stcw⟩,
    ⟨"CBLK", 0x60, .N, fun _ _ => .cblk⟩,
    ⟨"DBLK", 0x61, .N, fun _ _ => .dblk⟩ ]

/-- The value of a row's fixed bits, `op · 2^24` (30_encoding.md R92). -/
def OpcodeRow.matchBits (row : OpcodeRow) : CommandWord := BitVec.ofNat 32 (row.opcode * 2 ^ 24)

/-- Why a word is illegal (30_encoding.md R95). The engine raises the same `IllegalCommand` for both. -/
inductive IllegalWord where
  /-- no row of the opcode map has this opcode -/
  | undefinedOpcode (opcode : Nat)
  /-- the opcode has a row, but a reserved bit or a field its format does not use is not 0 -/
  | nonzeroReserved (opcode : Nat)
deriving DecidableEq, Repr

/-- What the decoder answers: a command, or an illegal word with the reason. -/
inductive Decoded where
  | command (i : Instr)
  | illegal (why : IllegalWord)
deriving DecidableEq, Repr

/-- The decoder, total on every word and independent of the state (30_encoding.md R95): find the row with
the word's opcode, compare the fixed bits, take the operands. -/
def decode (cmd : CommandWord) : Decoded :=
  match opcodeMap.find? (fun row => row.opcode == opcodeField cmd) with
  | none => .illegal (.undefinedOpcode (opcodeField cmd))
  | some row =>
    if cmd &&& formatMask row.format = row.matchBits then
      .command (row.build (widthField cmd) (lsbField cmd))
    else .illegal (.nonzeroReserved (opcodeField cmd))

/-- The command of a decoded word, if it is one. -/
def Decoded.instr? : Decoded → Option Instr
  | .command i => some i
  | .illegal _ => none

/-- The instruction read from a word whose bits are `w`, bits at and above `nbits` being 0. The command
word is one 32-bit word with no byte order (30_encoding.md R90; assumption log 15). -/
def decodeTableWord (nbits w : Nat) : Option Instr :=
  (decode (BitVec.ofNat 32 (w % 2 ^ nbits))).instr?

/-- Assembly of a word: `cmd = op · 2^24 + width · 2^8 + lsb` (30_encoding.md R92). -/
def assembleWord (op width lsb : Nat) : CommandWord :=
  BitVec.ofNat 32 (op * 2 ^ 24 + width * 2 ^ 8 + lsb)

/-- The encoder: the command word of a well-formed command (30_encoding.md R92, R94). -/
def encode : Instr → CommandWord
  | .nop => assembleWord 0x00 0 0
  | .clrerr => assembleWord 0x01 0 0
  | .fitsu width => assembleWord 0x10 width 0
  | .fitss width => assembleWord 0x11 width 0
  | .getu width lsb => assembleWord 0x12 width lsb
  | .gets width lsb => assembleWord 0x13 width lsb
  | .setu width lsb => assembleWord 0x14 width lsb
  | .sets width lsb => assembleWord 0x15 width lsb
  | .s2u width => assembleWord 0x16 width 0
  | .u2s width => assembleWord 0x17 width 0
  | .btfwd => assembleWord 0x20 0 0
  | .btinv => assembleWord 0x21 0 0
  | .quant => assembleWord 0x30 0 0
  | .dequant => assembleWord 0x31 0 0
  | .pack => assembleWord 0x40 0 0
  | .unpack => assembleWord 0x41 0 0
  | .ldpx => assembleWord 0x50 0 0
  | .stpx => assembleWord 0x51 0 0
  | .ldcw => assembleWord 0x52 0 0
  | .stcw => assembleWord 0x53 0 0
  | .cblk => assembleWord 0x60 0 0
  | .dblk => assembleWord 0x61 0 0

end Sys2Proof
end

