-- ==== Sys2Proof/Config.lean ====
section
/-! DEFINITION. What an implementation fixes: the two open parameters of the spec, `NUM` (00_scope.md R7)
and `CHROMA` (R8), as argument types of the model, and the free values the spec leaves open, as constants
without a body. The named literals of R6 stand in Machine/Parameters.lean, the reference number system
`NUM_Q` in Machine/Number.lean, the table built from the free constants in Machine/Chroma.lean. -/

namespace Sys2Proof

/-- The number system `NUM` over a carrier `F` (00_scope.md R7): the operations the rules use and no
others. Nothing is assumed of them. -/
structure NumSystem (F : Type) where
  /-- `+` -/
  add : F → F → F
  /-- `−` -/
  sub : F → F → F
  /-- multiplication by a positive integer constant -/
  mulConst : F → Nat → F
  /-- division by a positive integer constant -/
  divConst : F → Nat → F
  /-- the order `≤`, total on finite values -/
  le : F → F → Bool
  /-- the predicate `finite` -/
  finite : F → Bool
  /-- the injected rational 0 -/
  zero : F
  /-- the injected rational 1 -/
  one : F
  /-- the injected rational `−DIFF_CLAMP` -/
  clampLo : F
  /-- the injected rational `+DIFF_CLAMP` -/
  clampHi : F
  /-- `ofInt : ℤ → F` -/
  ofInt : Int → F
  /-- `rhaz : F → ℤ`, round half away from zero (R13) -/
  rhaz : F → Int

/-- The chroma table collaborator `CHROMA` (00_scope.md R8, 60_exceptions.md R245): its two lookups and
its legal range. -/
structure ChromaTable (F : Type) where
  /-- `CHROMA.chroma_of`, "chromaOfIndex" -/
  chromaOf : Fin 16 → F
  /-- `CHROMA.index_of`, "indexOfChroma" -/
  indexOf : F → Fin 16
  /-- `CHROMA.legal`, the "legal chroma range" -/
  legal : F → Bool

/-- Everything the model takes as an argument: `NUM`, `CHROMA`, and what the two memories hold where
nobody has written (93_implementation_defined.md U13: "any value" per element). -/
structure Params (F : Type) where
  num : NumSystem F
  chroma : ChromaTable F
  /-- the power-on element of `PIX` at an index -/
  pixPowerOn : Nat → F × F × F
  /-- the power-on byte of `CWM` at an address -/
  cwmPowerOn : Nat → Byte

end Sys2Proof

namespace Sys2Proof.Config

/-- The carrier `F` of the machine that `step` runs: the reference instantiation `NUM_Q` of
00_scope.md R7, the rational numbers. DESIGN CHOICE, unsafe for a physical engine with binary floats
(assumption log 1). -/
abbrev F : Type := Rat

/-- The 16 representative levels: the spec gives none (00_scope.md R8, 91_not_in_source.md N4). A free
value (assumption log 2). -/
opaque chromaLevel : Fin 16 → F

/-- The legal chroma range: the spec gives no bounds (R8). A free value (assumption log 2). -/
opaque chromaLegal : F → Bool

/-- Some value of the legal chroma range, so that the range is not empty: "a fixed 16-entry table over the
legal chroma range" (00_scope.md R8). A free value (assumption log 2). -/
opaque chromaLegalPoint : F

/-- The index the table would answer; used only where it is a nearest one, so that it decides ties and
nothing else (R8, 93_implementation_defined.md U3). A free value (assumption log 2). -/
opaque chromaChoice : F → Fin 16

/-- What an element of `PIX` that nothing has written holds (U13: any value). Assumption log 5. -/
opaque pixPowerOn : Nat → F × F × F

/-- What a byte of `CWM` that nothing has written holds (U13: any value). Assumption log 5. -/
opaque cwmPowerOn : Nat → Byte

/-- The pattern that the given reset (by count) leaves in the integer register with the given number,
where the spec says "unspecified" (10_state.md R33, U5: any value, drawn once at reset). Assumption
log 4. -/
opaque resetBits : Nat → Nat → Word64

/-- The same for the `F`-typed register with the given number. Assumption log 4. -/
opaque resetNumber : Nat → Nat → F

end Sys2Proof.Config
end

