-- ==== Sys2Proof/Machine/Parameters.lean ====
section
/-! DEFINITION. The named constants of 00_scope.md R6, with the values this hardware takes ("the source's
numeric literals are unaudited", assumption log 14). -/

namespace Sys2Proof.Machine

/-- `WORD_BITS`: width of the Word container (00_scope.md R6). -/
def wordBits : Nat := 64

/-- `CW_BYTES`: bytes of a codeword on the wire (00_scope.md R6). -/
def cwBytes : Nat := 4

/-- `A_SCALE`: scale of the luma average (00_scope.md R6). -/
def aScale : Nat := 511

/-- `DIFF_SCALE`: scale of the three difference coefficients (00_scope.md R6, 90_conflicts.md C2). -/
def diffScale : Nat := 15

/-- `DIFF_CLAMP`: clamp bound of the three difference coefficients (00_scope.md R6). -/
def diffClamp : Rat := 3 / 10

/-- One field of the codeword layout, `width@lsb`. -/
structure FieldSpec where
  width : Nat
  lsb : Nat
deriving DecidableEq, Repr

/-- `LAYOUT`, `q_a 9@23` (00_scope.md R6, 43_codeword_packer.md R180). -/
def fieldQA : FieldSpec := ⟨9, 23⟩

/-- `LAYOUT`, `q_b 5@18` (43_codeword_packer.md R180). -/
def fieldQB : FieldSpec := ⟨5, 18⟩

/-- `LAYOUT`, `q_c 5@13` (43_codeword_packer.md R180). -/
def fieldQC : FieldSpec := ⟨5, 13⟩

/-- `LAYOUT`, `q_d 5@8` (43_codeword_packer.md R180). -/
def fieldQD : FieldSpec := ⟨5, 8⟩

/-- `LAYOUT`, `q_avg_pb 4@4` (43_codeword_packer.md R180). -/
def fieldQPB : FieldSpec := ⟨4, 4⟩

/-- `LAYOUT`, `q_avg_pr 4@0` (43_codeword_packer.md R180). -/
def fieldQPR : FieldSpec := ⟨4, 0⟩

/-- The whole layout in the tuple order of 70_reset_and_hazards.md R265. -/
def codewordLayout : List FieldSpec := [fieldQA, fieldQB, fieldQC, fieldQD, fieldQPB, fieldQPR]

end Sys2Proof.Machine
end

