-- ==== Sys2Proof/Machine/Number.lean ====
section
/-! DEFINITION. Arithmetic over the parameter `NUM` (00_scope.md R7, R13) and its reference instantiation
`NUM_Q`, the exact rationals. -/

namespace Sys2Proof.Machine

/-- `x < y` of the order of `NUM`: `x ≤ y` and not `y ≤ x`. On finite values the order is total and this is
the usual strict order; on other values see assumption log 16. -/
def numLt {F : Type} (N : NumSystem F) (x y : F) : Bool := N.le x y && !N.le y x

/-- `clamp(x, lo, hi)`: "`lo` when `x < lo`, `hi` when `x > hi`, and `x` otherwise" (00_scope.md R13). -/
def numClamp {F : Type} (N : NumSystem F) (x lo hi : F) : F :=
  if numLt N x lo then lo else if numLt N hi x then hi else x

/-- `|x − y|` in `NUM`, for the nearest-level law of 00_scope.md R8. -/
def numDist {F : Type} (N : NumSystem F) (x y : F) : F :=
  if N.le N.zero (N.sub x y) then N.sub x y else N.sub N.zero (N.sub x y)

/-- `rhaz`, round half away from zero, on the rationals: `floor(x + 1/2)` for `x ≥ 0`, `−floor(−x + 1/2)` for
`x < 0` (00_scope.md R13). -/
def rhazQ (x : Rat) : Int :=
  if 0 ≤ x then (x + 1 / 2).floor else -((-x + 1 / 2).floor)

/-- The reference instantiation `NUM_Q`: "`F` = the rational numbers ℚ, every operation exact, every value
finite" (00_scope.md R7). -/
def numQ : NumSystem Rat where
  add x y := x + y
  sub x y := x - y
  mulConst x n := x * (n : Rat)
  divConst x n := x / (n : Rat)
  le x y := decide (x ≤ y)
  finite _ := true
  zero := 0
  one := 1
  clampLo := -diffClamp
  clampHi := diffClamp
  ofInt z := (z : Rat)
  rhaz := rhazQ

end Sys2Proof.Machine
end

