-- ==== Sys2Proof/Machine/Chroma.lean ====
section
/-! DEFINITION. The chroma table `CHROMA` (00_scope.md R8, 60_exceptions.md R245): its one law, and the
table the machine runs with, which is any table with that law (assumption log 2). -/

namespace Sys2Proof.Machine

/-- The indices 0..15 of the table, in order. -/
def chromaIndices : List (Fin 16) := [0, 1, 2, 3, 4, 5, 6, 7, 8, 9, 10, 11, 12, 13, 14, 15]

/-- Level `i` is at least as near to `x` as every level `j` in 0..15 (00_scope.md R8). -/
def isNearestLevel {F : Type} (N : NumSystem F) (level : Fin 16 → F) (x : F) (i : Fin 16) : Bool :=
  chromaIndices.all fun j => N.le (numDist N (level i) x) (numDist N (level j) x)

/-- The one law of a chroma table: for every legal `x`, the level of the index returned is a nearest one
(00_scope.md R8). Which index is returned at a tie is not said. -/
def nearestLevelLaw {F : Type} (N : NumSystem F) (C : ChromaTable F) : Prop :=
  ∀ x, C.legal x = true → isNearestLevel N C.chromaOf x (C.indexOf x) = true

/-- A lookup that obeys the law by construction: the given choice where it is a nearest level, else some
nearest level. Every lookup that obeys the law is of this form, with itself as the choice. -/
def nearestLookup {F : Type} (N : NumSystem F) (level : Fin 16 → F) (choice : F → Fin 16) (x : F) : Fin 16 :=
  if isNearestLevel N level x (choice x) then choice x
  else (chromaIndices.find? (isNearestLevel N level x)).getD (choice x)

/-- A legal range that holds at least one value and is otherwise free (assumption log 2). -/
def configLegal (x : Config.F) : Bool := decide (x = Config.chromaLegalPoint) || Config.chromaLegal x

/-- The table of the machine: free levels, a free legal range, and a lookup that obeys the nearest-level law
and is otherwise free (00_scope.md R8; assumption log 2). -/
def configChroma : ChromaTable Config.F where
  chromaOf := Config.chromaLevel
  indexOf := nearestLookup numQ Config.chromaLevel Config.chromaChoice
  legal := configLegal

/-- The arguments `step` runs the model at: the reference `NUM_Q` (assumption log 1), a free `CHROMA`
(assumption log 2), free power-on memories (assumption log 5). -/
def configParams : Params Config.F where
  num := numQ
  chroma := configChroma
  pixPowerOn := Config.pixPowerOn
  cwmPowerOn := Config.cwmPowerOn

end Sys2Proof.Machine
end

