-- ==== Sys2Proof/Machine/State.lean ====
section
/-! DEFINITION. The state as plain data: one engine's architectural state (10_state.md R20), the host's
side of the port (45_control_and_host.md R222), the reasons a step can stop, and the machine right after
reset (10_state.md R33). -/

namespace Sys2Proof.Machine

/-- A sparse memory: index or address, and element, in one canonical form (`Memory.wf`). It lists exactly
what has been written; what nothing has written reads as a free value (assumption log 5). With bytes as
elements its entries are `Host.Cell`s. -/
abbrev Memory (α : Type) := List (Nat × α)

/-- One element of `PIX`: the triple `(y, pb, pr)` of one pixel (20_memory.md R61). -/
structure Pixel (F : Type) where
  y : F
  pb : F
  pr : F
deriving DecidableEq, Repr

/-- The twelve sample registers (10_state.md R27): 1 top-left, 2 top-right, 3 bottom-left, 4 bottom-right
(70_reset_and_hazards.md R265). -/
structure Samples (F : Type) where
  y1 : F
  y2 : F
  y3 : F
  y4 : F
  pb1 : F
  pb2 : F
  pb3 : F
  pb4 : F
  pr1 : F
  pr2 : F
  pr3 : F
  pr4 : F
deriving DecidableEq, Repr

/-- The six coefficient registers `A, B, C, D, APB, APR` (10_state.md R27). -/
structure Coeffs (F : Type) where
  a : F
  b : F
  c : F
  d : F
  apb : F
  apr : F
deriving DecidableEq, Repr

/-- The six quantized registers `QA, QB, QC, QD, QPB, QPR`, 64-bit patterns (10_state.md R21, R22). -/
structure Quants where
  qa : Word64
  qb : Word64
  qc : Word64
  qd : Word64
  qpb : Word64
  qpr : Word64
deriving DecidableEq, Repr

/-- The status register `STATUS` by its three fields (10_state.md R24). Bits 63..5 have no storage: they
read as 0 and nothing writes them (assumption log 11). -/
structure Status where
  /-- bits 2..0: 0 = the last command succeeded, else its error code -/
  err : BitVec 3
  /-- bit 3: sticky, some command failed since reset or the last `CLRERR` -/
  anyErr : Bool
  /-- bit 4: the result of the last successful `FITSU` or `FITSS` -/
  flag : Bool
deriving DecidableEq, Repr

/-- The error kinds the engine raises (60_exceptions.md R230). -/
inductive ErrorKind where
  | outOfRange
  | dimensionMismatch
  | illegalCommand
  | badDescriptor
  | badBlockIndex
  | domainViolation
deriving DecidableEq, Repr

/-- The architectural state of one engine, over the carrier `F` of `NUM`: "exactly" the thirteen integer
registers, the eighteen `F`-typed registers, `PIX` and `CWM` (10_state.md R20). -/
structure Engine (F : Type) where
  /-- 0x00 `WORD` -/
  word : Word64
  /-- 0x01 `VAL` -/
  val : Word64
  /-- 0x02 `STATUS` -/
  status : Status
  /-- 0x03 `IMG_W` -/
  imgW : Word64
  /-- 0x04 `IMG_H` -/
  imgH : Word64
  /-- 0x05 `BLK` -/
  blk : Word64
  /-- 0x08 to 0x0D `QA` to `QPR` -/
  quants : Quants
  /-- 0x0E `CW` -/
  cw : Codeword
  /-- 0x20 to 0x2B `Y1` to `PR4` -/
  samples : Samples F
  /-- 0x30 to 0x35 `A` to `APR` -/
  coeffs : Coeffs F
  /-- the pixel memory `PIX` -/
  pix : Memory (Pixel F)
  /-- the codeword memory `CWM` -/
  cwm : Memory Byte
deriving DecidableEq, Repr

/-- A host transaction that is not a command: eight of the nine of 45_control_and_host.md R222. -/
inductive HostAccess (F : Type) where
  | regWrite (n : Nat) (data : Word64)
  | regRead (n : Nat)
  | fregWrite (n : Nat) (v : F)
  | fregRead (n : Nat)
  | pixWrite (p : Nat) (t : Pixel F)
  | pixRead (p : Nat)
  | byteWrite (addr : Nat) (b : Byte)
  | byteRead (addr : Nat)
deriving DecidableEq, Repr

/-- What comes next from outside the engine: a `Cmd` transaction, another transaction of
45_control_and_host.md R222, or the platform's reset, which "may occur only between transactions"
(70_reset_and_hazards.md R260). -/
inductive HostEvent (F : Type) where
  | cmd (word : CommandWord)
  | access (t : HostAccess F)
  | reset
deriving DecidableEq, Repr

/-- The value a read transaction returns to the host (45_control_and_host.md R222). -/
inductive HostReply (F : Type) where
  | register (v : Word64)
  | number (v : F)
  | pixel (t : Pixel F)
  | byte (b : Byte)
deriving DecidableEq, Repr

/-- Why the machine can stop with a fault: an access of the ENGINE outside its memory, which the spec says
has no meaning (20_memory.md R61, R63) and cannot happen (R68). -/
inductive Fault where
  /-- Raised by `Engine.pixRead` and `Engine.pixWrite` at an index that is not below `IMG_W · IMG_H`. Safe:
  no command reaches it (20_memory.md R68; assumption log 12). -/
  | pixelOutside (p : Nat)
  /-- Raised by `Engine.memRead` and `Engine.memWrite` when `addr + n` is above the size of `CWM`. Safe: no
  command reaches it (20_memory.md R68; assumption log 12). -/
  | bytesOutside (addr n : Nat)
deriving DecidableEq, Repr

/-- Why a step can be refused: an instruction without a meaning, or a host transaction that
45_control_and_host.md R224 does not admit ("A model refuses a host program that contains one"). -/
inductive Refusal where
  /-- Raised by an arm of `exec` for an instruction without a meaning yet. Safe. -/
  | notModelled (mnemonic : String)
  /-- Raised by `hostAccess` for a `RegWrite` to a number R223 does not admit (`STATUS`, an
  unassigned or an `F`-typed number). Safe (93_implementation_defined.md U7; assumption log 8). -/
  | registerWriteNotAdmitted (n : Nat)
  /-- Raised by `hostAccess` for a `RegRead` of a number R223 does not admit. Safe. -/
  | registerReadNotAdmitted (n : Nat)
  /-- Raised by `hostAccess` for an `FRegWrite` to a number that is no `F`-typed register. Safe. -/
  | numberWriteNotAdmitted (n : Nat)
  /-- Raised by `hostAccess` for an `FRegRead` of a number that is no `F`-typed register. Safe. -/
  | numberReadNotAdmitted (n : Nat)
  /-- Raised by `hostAccess` for a `PIX` transaction with `p ≥ IMG_W · IMG_H`. Safe. -/
  | pixelNotAdmitted (p : Nat)
  /-- Raised by `hostAccess` for a `CWM` transaction at or above the size of `CWM`. Safe. -/
  | byteNotAdmitted (addr : Nat)
deriving DecidableEq, Repr

/-- The machine: one engine, and the MODEL's own fields. The spec keeps the host's next transactions on the
host's side (10_state.md R23), so they stand beside the engine, not in it. -/
structure State where
  /-- the architectural state of the engine, at the reference number system (assumption log 1) -/
  engine : Engine Config.F
  /-- MODEL's own: the transactions the host has still to perform, oldest first (assumption log 6) -/
  pending : List (HostEvent Config.F)
  /-- MODEL's own: what the host's reads returned, newest first (assumption log 9) -/
  replies : List (HostReply Config.F)
  /-- MODEL's own: how many reset events have drawn free values (assumption log 4) -/
  draws : Nat
deriving DecidableEq, Repr

/-- Twelve sample registers holding one value. -/
def uniformSamples {F : Type} (v : F) : Samples F := ⟨v, v, v, v, v, v, v, v, v, v, v, v⟩

/-- The machine right after reset (10_state.md R33, 70_reset_and_hazards.md R261): `STATUS`, `IMG_W`,
`IMG_H` and `BLK` are 0. Every other register is "unspecified" there and 0 here: DESIGN CHOICE, unsafe
(assumption log 3). Neither memory lists anything, and no transaction is pending (assumption log 6). -/
def State.reset : State :=
  { engine :=
      { word := 0, val := 0
        status := { err := 0, anyErr := false, flag := false }
        imgW := 0, imgH := 0, blk := 0
        quants := { qa := 0, qb := 0, qc := 0, qd := 0, qpb := 0, qpr := 0 }
        cw := 0
        samples := uniformSamples 0
        coeffs := { a := 0, b := 0, c := 0, d := 0, apb := 0, apr := 0 }
        pix := [], cwm := [] }
    pending := [], replies := [], draws := 0 }

end Sys2Proof.Machine
end

