-- ==== Sys2Proof/Machine/Flags.lean ====
section
/-! DEFINITION. The status register: its value, its error codes, and every way a command changes it
(10_state.md R24, R25; 60_exceptions.md R230). -/

namespace Sys2Proof.Machine

/-- The code of an error kind (60_exceptions.md R230). -/
def errorCode : ErrorKind → BitVec 3
  | .outOfRange => 1
  | .dimensionMismatch => 2
  | .illegalCommand => 3
  | .badDescriptor => 4
  | .badBlockIndex => 5
  | .domainViolation => 6

/-- A flag as a number. -/
def bit (b : Bool) : Nat := if b then 1 else 0

/-- "The value read by the host is `FLAG·16 + ANYERR·8 + ERR`"; bits 63..5 read as zero (10_state.md R24). -/
def statusValue (st : Status) : Word64 :=
  BitVec.ofNat 64 (bit st.flag * 16 + bit st.anyErr * 8 + st.err.toNat)

/-- A command that succeeds "writes `ERR <- 0`, leaves `ANYERR` as it was ..., and leaves `FLAG` as it was"
(10_state.md R25). -/
def statusSucceed (st : Status) : Status := { st with err := 0 }

/-- A command that fails "writes `ERR <- code` and `ANYERR <- 1` and leaves `FLAG` as it was"
(10_state.md R25). -/
def statusFail (st : Status) (k : ErrorKind) : Status := { st with err := errorCode k, anyErr := true }

/-- `STATUS.FLAG <- b`, by `FITSU` and `FITSS` only (10_state.md R24). -/
def statusSetFlag (st : Status) (b : Bool) : Status := { st with flag := b }

/-- `STATUS.ANYERR <- 0`, by `CLRERR` (45_control_and_host.md R221). -/
def statusClearAnyErr (st : Status) : Status := { st with anyErr := false }

/-- `STATUS` after reset: 0 (10_state.md R33). -/
def statusReset : Status := { err := 0, anyErr := false, flag := false }

end Sys2Proof.Machine
end

