-- ==== Sys2Proof/Machine/Operands.lean ====
section
/-! DEFINITION. Readings of bit patterns (00_scope.md R9, R10), the pure functions of the BitField Codec
(40_bitfield_codec.md R110 to R113), the quantized tuple, the byte order of a codeword (20_memory.md R65)
and the addressing of blocks (41_block_transform.md R145 to R147). All arithmetic is over unbounded integers
(R10), so that no shift count, width or product is special (R125). -/

namespace Sys2Proof.Machine

/-- `asU(r)`: the unsigned reading of a 64-bit pattern (00_scope.md R10). -/
def asU (r : Word64) : Nat := r.toNat

/-- `asS(r)`: the two's complement reading, "`asU(r)` when `asU(r) < 2^63`, else `asU(r) − 2^64`"
(00_scope.md R10). -/
def asS (r : Word64) : Int :=
  if asU r < 2 ^ 63 then (asU r : Int) else (asU r : Int) - 2 ^ 64

/-- `pat64(z)`: the 64-bit pattern `z mod 2^64` (00_scope.md R10). -/
def pat64 (z : Int) : Word64 := BitVec.ofInt 64 z

/-- `sext_w(u)`: "`u` when `u < 2^(w−1)` and `u − 2^w` otherwise" (00_scope.md R10). -/
def sextField (w u : Nat) : Int := if u < 2 ^ (w - 1) then (u : Int) else (u : Int) - 2 ^ w

/-- `field(word, w, l) = (word div 2^l) mod 2^w` (40_bitfield_codec.md R110). -/
def fieldGet (word w l : Nat) : Nat := word / 2 ^ l % 2 ^ w

/-- `insert(word, w, l, u) = word − field(word, w, l)·2^l + u·2^l` (40_bitfield_codec.md R110). The
subtraction is exact: the field's part is at most the word. -/
def fieldInsert (word w l u : Nat) : Nat := word - fieldGet word w l * 2 ^ l + u * 2 ^ l

/-- `fitsU(n, w)`: "true iff `0 ≤ n ≤ 2^width − 1`" (40_bitfield_codec.md R111). -/
def fitsU (n : Int) (w : Nat) : Bool := decide (0 ≤ n ∧ n ≤ 2 ^ w - 1)

/-- `fitsS(n, w)`: "true iff `n` lies in `[-2^(width-1), 2^(width-1) − 1]`" (40_bitfield_codec.md R112). -/
def fitsS (n : Int) (w : Nat) : Bool := decide (-(2 ^ (w - 1)) ≤ n ∧ n ≤ 2 ^ (w - 1) - 1)

/-- The descriptor check of `GETU` and `GETS` (40_bitfield_codec.md R113). -/
def getDescriptorLegal (width lsb : Nat) : Bool :=
  decide (width ≤ wordBits ∧ width + lsb ≤ wordBits)

/-- The descriptor check of `SETU` and `SETS` (40_bitfield_codec.md R113). -/
def setDescriptorLegal (width lsb : Nat) : Bool :=
  decide (1 ≤ width ∧ width ≤ wordBits ∧ width + lsb ≤ wordBits)

/-- The width check of `FITSU`, `FITSS`, `S2U`, `U2S` (40_bitfield_codec.md R113). -/
def widthLegal (width : Nat) : Bool := decide (1 ≤ width ∧ width ≤ wordBits)

/-- A quantized block as integers, in the tuple order of 70_reset_and_hazards.md R265. -/
structure QuantTuple where
  qa : Int
  qb : Int
  qc : Int
  qd : Int
  qpb : Int
  qpr : Int
deriving DecidableEq, Repr

/-- The reading of the quantized registers: `QA`, `QPB`, `QPR` by `asU`, `QB`, `QC`, `QD` by `asS`
(10_state.md R22). -/
def quantsRead (q : Quants) : QuantTuple :=
  { qa := asU q.qa, qb := asS q.qb, qc := asS q.qc, qd := asS q.qd, qpb := asU q.qpb, qpr := asU q.qpr }

/-- Storing a tuple in the quantized registers, signed values sign-extended: `pat64` (10_state.md R22). -/
def quantsOf (t : QuantTuple) : Quants :=
  { qa := pat64 t.qa, qb := pat64 t.qb, qc := pat64 t.qc, qd := pat64 t.qd, qpb := pat64 t.qpb, qpr := pat64 t.qpr }

/-- The check of `PACK` and `DEQUANT`: every value fits the field of its width and signedness
(43_codeword_packer.md R182, 42_quantizer.md R169; −16 is accepted, 90_conflicts.md C1). -/
def quantsFit (t : QuantTuple) : Bool :=
  fitsU t.qa fieldQA.width && fitsS t.qb fieldQB.width && fitsS t.qc fieldQC.width &&
    fitsS t.qd fieldQD.width && fitsU t.qpb fieldQPB.width && fitsU t.qpr fieldQPR.width

/-- The pattern of a value in a field: `v mod 2^width`, an unsigned value unchanged, a negative one as its
two's complement (43_codeword_packer.md R181, R182). -/
def fieldPattern (width : Nat) (v : Int) : Nat := (v % 2 ^ width).toNat

/-- `insert` at a field of the layout. -/
def insertField (word : Nat) (f : FieldSpec) (v : Int) : Nat :=
  fieldInsert word f.width f.lsb (fieldPattern f.width v)

/-- `field` at a field of the layout. -/
def getField (word : Nat) (f : FieldSpec) : Nat := fieldGet word f.width f.lsb

/-- `pack_word`: six inserts from the all-zero Word (43_codeword_packer.md R181). -/
def packWord (t : QuantTuple) : Nat :=
  let w1 := insertField 0 fieldQA t.qa
  let w2 := insertField w1 fieldQB t.qb
  let w3 := insertField w2 fieldQC t.qc
  let w4 := insertField w3 fieldQD t.qd
  let w5 := insertField w4 fieldQPB t.qpb
  insertField w5 fieldQPR t.qpr

/-- `unpack_word`: the six fields with their signedness (43_codeword_packer.md R181). -/
def unpackWord (w : Nat) : QuantTuple :=
  { qa := getField w fieldQA
    qb := sextField fieldQB.width (getField w fieldQB)
    qc := sextField fieldQC.width (getField w fieldQC)
    qd := sextField fieldQD.width (getField w fieldQD)
    qpb := getField w fieldQPB
    qpr := getField w fieldQPR }

/-- `BE4(cw) = [cw[31:24], cw[23:16], cw[15:8], cw[7:0]]`, most significant byte first (20_memory.md R65). -/
def be4 (cw : Codeword) : List Byte :=
  [cw.extractLsb' 24 8, cw.extractLsb' 16 8, cw.extractLsb' 8 8, cw.extractLsb' 0 8]

/-- The value of a byte list, most significant first; of four bytes it is `UNBE4`,
`b0·2^24 + b1·2^16 + b2·2^8 + b3` (20_memory.md R65). -/
def bigEndian (bytes : List Byte) : Nat := bytes.foldl (fun acc b => acc * 2 ^ 8 + b.toNat) 0

/-- `UNBE4` as a codeword (20_memory.md R65). -/
def unbe4 (bytes : List Byte) : Codeword := BitVec.ofNat 32 (bigEndian bytes)

/-- The block count `(IMG_W div 2) · (IMG_H div 2)` (41_block_transform.md R146). -/
def blockCount (w h : Nat) : Nat := (w / 2) * (h / 2)

/-- The four pixel indices of a block. -/
structure BlockPixels where
  p1 : Nat
  p2 : Nat
  p3 : Nat
  p4 : Nat
deriving DecidableEq, Repr

/-- `p1(k)` to `p4(k)` for an image of width `w`, with stride `S = w div 2`, `by = k div S`, `bx = k mod S`
(41_block_transform.md R147). -/
def blockPixels (w k : Nat) : BlockPixels :=
  let p1 := 2 * (k / (w / 2)) * w + 2 * (k % (w / 2))
  { p1 := p1, p2 := p1 + 1, p3 := p1 + w, p4 := p1 + w + 1 }

/-- The byte address of the codeword of block `k` (20_memory.md R64). -/
def codewordAddr (k : Nat) : Nat := cwBytes * k

/-- Pixel 1 to 4 of a block held in the sample registers, as elements of `PIX`. -/
def samplePixels {F : Type} (s : Samples F) : Pixel F × Pixel F × Pixel F × Pixel F :=
  (⟨s.y1, s.pb1, s.pr1⟩, ⟨s.y2, s.pb2, s.pr2⟩, ⟨s.y3, s.pb3, s.pr3⟩, ⟨s.y4, s.pb4, s.pr4⟩)

/-- The sample registers holding four elements of `PIX` (44_memory_and_pipeline.md R201). -/
def samplesOfPixels {F : Type} (t1 t2 t3 t4 : Pixel F) : Samples F :=
  { y1 := t1.y, y2 := t2.y, y3 := t3.y, y4 := t4.y
    pb1 := t1.pb, pb2 := t2.pb, pb3 := t3.pb, pb4 := t4.pb
    pr1 := t1.pr, pr2 := t2.pr, pr3 := t3.pr, pr4 := t4.pr }

end Sys2Proof.Machine
end

