-- ==== Sys2Proof/Machine/Ops.lean ====
section
/-! DEFINITION. The shared operations: sparse memories, the engine's accesses to `PIX` and `CWM`
(20_memory.md R60 to R68), `block_guard` (44_memory_and_pipeline.md R200), and how every command ends: the
failure primitive `raise` and the success that is its counterpart (00_scope.md R12). -/

namespace Sys2Proof.Machine

/-! ### Sparse memories -/

/-- The element written at `a`, or `none` where nothing has written. -/
def Memory.read {α : Type} : Memory α → Nat → Option α
  | [], _ => none
  | (b, v) :: rest, a => if a = b then some v else Memory.read rest a

/-- Write `v` at `a`, keeping the entries in rising order of address. -/
def Memory.write {α : Type} : Memory α → Nat → α → Memory α
  | [], a, v => [(a, v)]
  | (b, w) :: rest, a, v =>
    if a < b then (a, v) :: (b, w) :: rest
    else if a = b then (a, v) :: rest
    else (b, w) :: Memory.write rest a v

/-- The canonical form: addresses strictly rising. An unlisted address has no written value, so no entry can
equal what an unlisted address reads as, and a write never removes one (assumption log 5). -/
def Memory.wf {α : Type} : Memory α → Bool
  | [] => true
  | (a, _) :: rest => rest.all (fun entry => decide (a < entry.1)) && Memory.wf rest

/-! ### The two memories of the engine -/

variable {F : Type}

/-- The number of elements of `PIX`, `IMG_W · IMG_H` (20_memory.md R61). -/
def Engine.pixSize (e : Engine F) : Nat := asU e.imgW * asU e.imgH

/-- The number of bytes of `CWM`, `4 · (IMG_W div 2) · (IMG_H div 2)` (20_memory.md R63). -/
def Engine.cwmSize (e : Engine F) : Nat := cwBytes * blockCount (asU e.imgW) (asU e.imgH)

/-- What element `p` of `PIX` holds: what was written there last, else its power-on content (20_memory.md R61,
93_implementation_defined.md U13). -/
def Engine.pixel (P : Params F) (e : Engine F) (p : Nat) : Pixel F :=
  match Memory.read e.pix p with
  | some t => t
  | none => ⟨(P.pixPowerOn p).1, (P.pixPowerOn p).2.1, (P.pixPowerOn p).2.2⟩

/-- What byte `addr` of `CWM` holds (20_memory.md R63, 93_implementation_defined.md U13). -/
def Engine.byte (P : Params F) (e : Engine F) (addr : Nat) : Byte :=
  match Memory.read e.cwm addr with
  | some b => b
  | none => P.cwmPowerOn addr

/-- `PixRead(p)`, "defined only for `0 ≤ p < IMG_W · IMG_H`, with `IMG_W` and `IMG_H` read at the time of the
access" (20_memory.md R61). -/
def Engine.pixRead (P : Params F) (e : Engine F) (p : Nat) : Except Fault (Pixel F) :=
  if p < e.pixSize then .ok (e.pixel P p) else .error (.pixelOutside p)

/-- `PixWrite(p, t)` (20_memory.md R61). -/
def Engine.pixWrite (e : Engine F) (p : Nat) (t : Pixel F) : Except Fault (Engine F) :=
  if p < e.pixSize then .ok { e with pix := Memory.write e.pix p t } else .error (.pixelOutside p)

/-- The bytes at `addr, addr+1, .., addr+n−1`, in that order. -/
def Engine.bytes (P : Params F) (e : Engine F) (addr : Nat) : Nat → List Byte
  | 0 => []
  | n + 1 => e.byte P addr :: Engine.bytes P e (addr + 1) n

/-- Store the bytes of a list at `addr, addr+1, ..`, the first to the lowest address. -/
def storeBytes : Memory Byte → Nat → List Byte → Memory Byte
  | m, _, [] => m
  | m, addr, b :: rest => storeBytes (Memory.write m addr b) (addr + 1) rest

/-- `MemRead(addr, n)`, defined only when `addr + n` is at most the size of `CWM` (20_memory.md R63). -/
def Engine.memRead (P : Params F) (e : Engine F) (addr n : Nat) : Except Fault (List Byte) :=
  if addr + n ≤ e.cwmSize then .ok (e.bytes P addr n) else .error (.bytesOutside addr n)

/-- `MemWrite(addr, n, bytes)` (20_memory.md R63). -/
def Engine.memWrite (e : Engine F) (addr : Nat) (bytes : List Byte) : Except Fault (Engine F) :=
  if addr + bytes.length ≤ e.cwmSize then .ok { e with cwm := storeBytes e.cwm addr bytes }
  else .error (.bytesOutside addr bytes.length)

/-! ### Blocks -/

/-- `block_guard`: `DimensionMismatch` when `IMG_W` or `IMG_H` is odd, else `BadBlockIndex` when `BLK` is not
below the block count, else the block index `k` (44_memory_and_pipeline.md R200, in the order of
60_exceptions.md R236). -/
def Engine.blockGuard (e : Engine F) : Except ErrorKind Nat :=
  if asU e.imgW % 2 = 1 ∨ asU e.imgH % 2 = 1 then .error .dimensionMismatch
  else if asU e.blk < blockCount (asU e.imgW) (asU e.imgH) then .ok (asU e.blk)
  else .error .badBlockIndex

/-- The four elements of `PIX` of block `k`, as a block of samples (44_memory_and_pipeline.md R201). -/
def Engine.readBlock (P : Params F) (e : Engine F) (k : Nat) : Except Fault (Samples F) :=
  let at_ := blockPixels (asU e.imgW) k
  match e.pixRead P at_.p1 with
  | .error f => .error f
  | .ok t1 =>
    match e.pixRead P at_.p2 with
    | .error f => .error f
    | .ok t2 =>
      match e.pixRead P at_.p3 with
      | .error f => .error f
      | .ok t3 =>
        match e.pixRead P at_.p4 with
        | .error f => .error f
        | .ok t4 => .ok (samplesOfPixels t1 t2 t3 t4)

/-- Store a block of samples to the four elements of `PIX` of block `k`, all four or none
(44_memory_and_pipeline.md R202). -/
def Engine.writeBlock (e : Engine F) (k : Nat) (s : Samples F) : Except Fault (Engine F) :=
  let at_ := blockPixels (asU e.imgW) k
  let t := samplePixels s
  match e.pixWrite at_.p1 t.1 with
  | .error f => .error f
  | .ok e1 =>
    match e1.pixWrite at_.p2 t.2.1 with
    | .error f => .error f
    | .ok e2 =>
      match e2.pixWrite at_.p3 t.2.2.1 with
      | .error f => .error f
      | .ok e3 => e3.pixWrite at_.p4 t.2.2.2

/-- The codeword of block `k`, `UNBE4` of the four bytes at `4k` (44_memory_and_pipeline.md R203). -/
def Engine.readCodeword (P : Params F) (e : Engine F) (k : Nat) : Except Fault Codeword :=
  match e.memRead P (codewordAddr k) cwBytes with
  | .ok bytes => .ok (unbe4 bytes)
  | .error f => .error f

/-- Store a codeword at block `k`, `MemWrite(4·k, 4, BE4(cw))` (44_memory_and_pipeline.md R204). -/
def Engine.writeCodeword (e : Engine F) (k : Nat) (cw : Codeword) : Except Fault (Engine F) :=
  e.memWrite (codewordAddr k) (be4 cw)

/-! ### How a command ends -/

/-- What the rule of a command answers before `STATUS.ERR` is written: the registers and memories it leaves,
or the error it raises (00_scope.md R12). -/
inductive CommandResult (F : Type) where
  | done (e : Engine F)
  | raise (k : ErrorKind)
deriving DecidableEq, Repr

/-- TAKING AN ERROR, the one operation of a failing command: it "writes nothing but the status register:
`STATUS.ERR <- code(Kind)`, `STATUS.ANYERR <- 1`" (00_scope.md R12, 60_exceptions.md R239, R241). -/
def Engine.raiseError (e : Engine F) (k : ErrorKind) : Engine F :=
  { e with status := statusFail e.status k }

/-- The end of a command that does not raise: "`STATUS.ERR <- 0`" (00_scope.md R12). There is no return from
an error: "the next command executes exactly as it would have" (60_exceptions.md R242). -/
def Engine.succeed (e : Engine F) : Engine F := { e with status := statusSucceed e.status }

/-- The engine after a command started on `e` has ended with the given result. -/
def Engine.finish (e : Engine F) : CommandResult F → Engine F
  | .done e' => e'.succeed
  | .raise k => e.raiseError k

/-- A command without memory accesses, as a step of the machine. -/
def runCommand (c : Engine Config.F → CommandResult Config.F) (s : State) :
    Host.Outcome State Fault Refusal :=
  .next { s with engine := s.engine.finish (c s.engine) }

/-- A command with memory accesses, as a step of the machine. -/
def runBlockCommand (c : Engine Config.F → Except Fault (CommandResult Config.F)) (s : State) :
    Host.Outcome State Fault Refusal :=
  match c s.engine with
  | .ok result => .next { s with engine := s.engine.finish result }
  | .error f => .fault f

end Sys2Proof.Machine
end

