-- ==== Sys2Proof/Machine/BitField.lean ====
section
/-! DEFINITION. The eight commands of the BitField Codec unit (40_bitfield_codec.md R113 to R121). Each
checks its descriptor first (`BadDescriptor`), then its value (`OutOfRange`), then writes. -/

namespace Sys2Proof.Machine

variable {F : Type}

/-- `FITSU width` (40_bitfield_codec.md R114). -/
def fitsuCommand (width : Nat) (e : Engine F) : CommandResult F :=
  if widthLegal width then
    .done { e with status := statusSetFlag e.status (fitsU (asU e.val) width) }
  else .raise .badDescriptor

/-- `FITSS width` (40_bitfield_codec.md R115). -/
def fitssCommand (width : Nat) (e : Engine F) : CommandResult F :=
  if widthLegal width then
    .done { e with status := statusSetFlag e.status (fitsS (asS e.val) width) }
  else .raise .badDescriptor

/-- `GETU width, lsb` (40_bitfield_codec.md R116). -/
def getuCommand (width lsb : Nat) (e : Engine F) : CommandResult F :=
  if getDescriptorLegal width lsb then
    .done { e with val := pat64 (fieldGet (asU e.word) width lsb) }
  else .raise .badDescriptor

/-- `GETS width, lsb` (40_bitfield_codec.md R117). -/
def getsCommand (width lsb : Nat) (e : Engine F) : CommandResult F :=
  if getDescriptorLegal width lsb then
    let u := fieldGet (asU e.word) width lsb
    .done { e with val := pat64 (if width = 0 then 0 else sextField width u) }
  else .raise .badDescriptor

/-- `SETU width, lsb` (40_bitfield_codec.md R118). -/
def setuCommand (width lsb : Nat) (e : Engine F) : CommandResult F :=
  if setDescriptorLegal width lsb then
    if fitsU (asU e.val) width then
      .done { e with word := pat64 (fieldInsert (asU e.word) width lsb (asU e.val)) }
    else .raise .outOfRange
  else .raise .badDescriptor

/-- `SETS width, lsb` (40_bitfield_codec.md R119). -/
def setsCommand (width lsb : Nat) (e : Engine F) : CommandResult F :=
  if setDescriptorLegal width lsb then
    if fitsS (asS e.val) width then
      .done { e with word := pat64 (fieldInsert (asU e.word) width lsb (fieldPattern width (asS e.val))) }
    else .raise .outOfRange
  else .raise .badDescriptor

/-- `S2U width` (40_bitfield_codec.md R120). -/
def s2uCommand (width : Nat) (e : Engine F) : CommandResult F :=
  if widthLegal width then
    if fitsS (asS e.val) width then .done { e with val := pat64 (asS e.val % 2 ^ width) }
    else .raise .outOfRange
  else .raise .badDescriptor

/-- `U2S width` (40_bitfield_codec.md R121). -/
def u2sCommand (width : Nat) (e : Engine F) : CommandResult F :=
  if widthLegal width then
    if fitsU (asU e.val) width then .done { e with val := pat64 (sextField width (asU e.val)) }
    else .raise .outOfRange
  else .raise .badDescriptor

/-- The step of `FITSU` (R114). -/
def execFitsu (width : Nat) (s : State) : Host.Outcome State Fault Refusal := runCommand (fitsuCommand width) s

/-- The step of `FITSS` (R115). -/
def execFitss (width : Nat) (s : State) : Host.Outcome State Fault Refusal := runCommand (fitssCommand width) s

/-- The step of `GETU` (R116). -/
def execGetu (width lsb : Nat) (s : State) : Host.Outcome State Fault Refusal :=
  runCommand (getuCommand width lsb) s

/-- The step of `GETS` (R117). -/
def execGets (width lsb : Nat) (s : State) : Host.Outcome State Fault Refusal :=
  runCommand (getsCommand width lsb) s

/-- The step of `SETU` (R118). -/
def execSetu (width lsb : Nat) (s : State) : Host.Outcome State Fault Refusal :=
  runCommand (setuCommand width lsb) s

/-- The step of `SETS` (R119). -/
def execSets (width lsb : Nat) (s : State) : Host.Outcome State Fault Refusal :=
  runCommand (setsCommand width lsb) s

/-- The step of `S2U` (R120). -/
def execS2u (width : Nat) (s : State) : Host.Outcome State Fault Refusal := runCommand (s2uCommand width) s

/-- The step of `U2S` (R121). -/
def execU2s (width : Nat) (s : State) : Host.Outcome State Fault Refusal := runCommand (u2sCommand width) s

end Sys2Proof.Machine
end

