-- ==== Sys2Proof/Machine/BlockMemory.lean ====
section
/-! DEFINITION. The loads and stores of one block (44_memory_and_pipeline.md R201 to R204). -/

namespace Sys2Proof.Machine

variable {F : Type}

/-- `LDPX` (44_memory_and_pipeline.md R201). -/
def ldpxCommand (P : Params F) (e : Engine F) : Except Fault (CommandResult F) :=
  match e.blockGuard with
  | .error kind => .ok (.raise kind)
  | .ok k =>
    match e.readBlock P k with
    | .error f => .error f
    | .ok s => .ok (.done { e with samples := s })

/-- `STPX` (44_memory_and_pipeline.md R202). -/
def stpxCommand (e : Engine F) : Except Fault (CommandResult F) :=
  match e.blockGuard with
  | .error kind => .ok (.raise kind)
  | .ok k =>
    match e.writeBlock k e.samples with
    | .error f => .error f
    | .ok e' => .ok (.done e')

/-- `LDCW` (44_memory_and_pipeline.md R203). -/
def ldcwCommand (P : Params F) (e : Engine F) : Except Fault (CommandResult F) :=
  match e.blockGuard with
  | .error kind => .ok (.raise kind)
  | .ok k =>
    match e.readCodeword P k with
    | .error f => .error f
    | .ok cw => .ok (.done { e with cw := cw })

/-- `STCW` (44_memory_and_pipeline.md R204). -/
def stcwCommand (e : Engine F) : Except Fault (CommandResult F) :=
  match e.blockGuard with
  | .error kind => .ok (.raise kind)
  | .ok k =>
    match e.writeCodeword k e.cw with
    | .error f => .error f
    | .ok e' => .ok (.done e')

/-- The step of `LDPX` (R201). -/
def execLdpx (s : State) : Host.Outcome State Fault Refusal := runBlockCommand (ldpxCommand configParams) s

/-- The step of `STPX` (R202). -/
def execStpx (s : State) : Host.Outcome State Fault Refusal := runBlockCommand stpxCommand s

/-- The step of `LDCW` (R203). -/
def execLdcw (s : State) : Host.Outcome State Fault Refusal := runBlockCommand (ldcwCommand configParams) s

/-- The step of `STCW` (R204). -/
def execStcw (s : State) : Host.Outcome State Fault Refusal := runBlockCommand stcwCommand s

end Sys2Proof.Machine
end

