-- ==== Sys2Proof/Machine/Control.lean ====
section
/-! DEFINITION. The control commands `NOP` and `CLRERR` (45_control_and_host.md R220, R221), and the illegal
command word (60_exceptions.md R233). -/

namespace Sys2Proof.Machine

variable {F : Type}

/-- `NOP`: nothing; as a successful command it still writes `STATUS.ERR <- 0` (45_control_and_host.md R220). -/
def nopCommand (e : Engine F) : CommandResult F := .done e

/-- `CLRERR`: `STATUS.ANYERR <- 0` (45_control_and_host.md R221). -/
def clrerrCommand (e : Engine F) : CommandResult F :=
  .done { e with status := statusClearAnyErr e.status }

/-- A word that is no command: `IllegalCommand`, "reads no register and depends on the word alone"
(60_exceptions.md R233, 30_encoding.md R96). -/
def illegalCommand (_ : Engine F) : CommandResult F := .raise .illegalCommand

/-- The step of `NOP` (R220). -/
def execNop (s : State) : Host.Outcome State Fault Refusal := runCommand nopCommand s

/-- The step of `CLRERR` (R221). -/
def execClrerr (s : State) : Host.Outcome State Fault Refusal := runCommand clrerrCommand s

/-- The step of an illegal command word (R233). -/
def execIllegal (s : State) : Host.Outcome State Fault Refusal := runCommand illegalCommand s

end Sys2Proof.Machine
end

