-- ==== Sys2Proof/Machine/BlockTransform.lean ====
section
/-! DEFINITION. The Block Transform unit over any `NUM` (41_block_transform.md R140, R141): every sum is
evaluated left to right, as the rules parenthesise it. -/

namespace Sys2Proof.Machine

variable {F : Type}

/-- `(((x1 + x2) + x3) + x4) / 4` (41_block_transform.md R140). -/
def average4 (N : NumSystem F) (x1 x2 x3 x4 : F) : F :=
  N.divConst (N.add (N.add (N.add x1 x2) x3) x4) 4

/-- The forward transform of one block (41_block_transform.md R140). -/
def blockForward (N : NumSystem F) (s : Samples F) : Coeffs F :=
  { a := average4 N s.y1 s.y2 s.y3 s.y4
    b := N.divConst (N.sub (N.sub (N.add s.y4 s.y3) s.y2) s.y1) 4
    c := N.divConst (N.sub (N.add (N.sub s.y4 s.y3) s.y2) s.y1) 4
    d := N.divConst (N.add (N.sub (N.sub s.y4 s.y3) s.y2) s.y1) 4
    apb := average4 N s.pb1 s.pb2 s.pb3 s.pb4
    apr := average4 N s.pr1 s.pr2 s.pr3 s.pr4 }

/-- The inverse transform of one block; the chroma averages go to all four pixels
(41_block_transform.md R141). -/
def blockInverse (N : NumSystem F) (t : Coeffs F) : Samples F :=
  { y1 := N.add (N.sub (N.sub t.a t.b) t.c) t.d
    y2 := N.sub (N.add (N.sub t.a t.b) t.c) t.d
    y3 := N.sub (N.sub (N.add t.a t.b) t.c) t.d
    y4 := N.add (N.add (N.add t.a t.b) t.c) t.d
    pb1 := t.apb, pb2 := t.apb, pb3 := t.apb, pb4 := t.apb
    pr1 := t.apr, pr2 := t.apr, pr3 := t.apr, pr4 := t.apr }

/-- `BTFWD` (41_block_transform.md R140). -/
def btfwdCommand (P : Params F) (e : Engine F) : CommandResult F :=
  .done { e with coeffs := blockForward P.num e.samples }

/-- `BTINV` (41_block_transform.md R141). -/
def btinvCommand (P : Params F) (e : Engine F) : CommandResult F :=
  .done { e with samples := blockInverse P.num e.coeffs }

/-- The step of `BTFWD` (R140). -/
def execBtfwd (s : State) : Host.Outcome State Fault Refusal := runCommand (btfwdCommand configParams) s

/-- The step of `BTINV` (R141). -/
def execBtinv (s : State) : Host.Outcome State Fault Refusal := runCommand (btinvCommand configParams) s

end Sys2Proof.Machine
end

