-- ==== Sys2Proof/Machine/CodewordPacker.lean ====
section
/-! DEFINITION. The Codeword Serializer unit (43_codeword_packer.md R180 to R183). -/

namespace Sys2Proof.Machine

variable {F : Type}

/-- `PACK` (43_codeword_packer.md R182). -/
def packCommand (e : Engine F) : CommandResult F :=
  if quantsFit (quantsRead e.quants) then
    .done { e with cw := BitVec.ofNat 32 (packWord (quantsRead e.quants)) }
  else .raise .outOfRange

/-- `UNPACK` (43_codeword_packer.md R183). -/
def unpackCommand (e : Engine F) : CommandResult F :=
  .done { e with quants := quantsOf (unpackWord e.cw.toNat) }

/-- The step of `PACK` (R182). -/
def execPack (s : State) : Host.Outcome State Fault Refusal := runCommand packCommand s

/-- The step of `UNPACK` (R183). -/
def execUnpack (s : State) : Host.Outcome State Fault Refusal := runCommand unpackCommand s

end Sys2Proof.Machine
end

