-- ==== Sys2Proof/Machine/Quantizer.lean ====
section
/-! DEFINITION. The Quantizer unit over any `NUM` and `CHROMA` (42_quantizer.md R160 to R169). -/

namespace Sys2Proof.Machine

variable {F : Type}

/-- `quant_a(a) = rhaz(a · A_SCALE)` (42_quantizer.md R160). -/
def quantA (N : NumSystem F) (a : F) : Int := N.rhaz (N.mulConst a aScale)

/-- `quant_diff(x) = rhaz(clamp(x, −DIFF_CLAMP, +DIFF_CLAMP) · DIFF_SCALE)`, the clamp first
(42_quantizer.md R161, R167). -/
def quantDiff (N : NumSystem F) (x : F) : Int :=
  N.rhaz (N.mulConst (numClamp N x N.clampLo N.clampHi) diffScale)

/-- `quant_chroma(x) = CHROMA.index_of(x)` (42_quantizer.md R162). -/
def quantChroma (C : ChromaTable F) (x : F) : Int := ((C.indexOf x).val : Int)

/-- `dequant_a(q) = ofInt(q) / A_SCALE` (42_quantizer.md R163). -/
def dequantA (N : NumSystem F) (q : Int) : F := N.divConst (N.ofInt q) aScale

/-- `dequant_diff(q) = ofInt(q) / DIFF_SCALE` (42_quantizer.md R163). -/
def dequantDiff (N : NumSystem F) (q : Int) : F := N.divConst (N.ofInt q) diffScale

/-- `dequant_chroma(i) = CHROMA.chroma_of(i)`; the check of `DEQUANT` makes `i` an index in 0..15
(42_quantizer.md R163, R169). -/
def dequantChroma (C : ChromaTable F) (i : Int) : F := C.chromaOf (Fin.ofNat 16 i.toNat)

/-- The domain check of `QUANT` passes: the luma average is finite and in `[0, 1]`, the differences are
finite, the chroma averages are legal (42_quantizer.md R164). -/
def quantDomain (P : Params F) (t : Coeffs F) : Bool :=
  P.num.finite t.a && !numLt P.num t.a P.num.zero && !numLt P.num P.num.one t.a &&
    (P.num.finite t.b && P.num.finite t.c && P.num.finite t.d) &&
    (P.chroma.legal t.apb && P.chroma.legal t.apr)

/-- The six forward quantizations of a block (42_quantizer.md R165). -/
def quantize (P : Params F) (t : Coeffs F) : QuantTuple :=
  { qa := quantA P.num t.a
    qb := quantDiff P.num t.b
    qc := quantDiff P.num t.c
    qd := quantDiff P.num t.d
    qpb := quantChroma P.chroma t.apb
    qpr := quantChroma P.chroma t.apr }

/-- The six inverse quantizations of a block (42_quantizer.md R169). -/
def dequantize (P : Params F) (q : QuantTuple) : Coeffs F :=
  { a := dequantA P.num q.qa
    b := dequantDiff P.num q.qb
    c := dequantDiff P.num q.qc
    d := dequantDiff P.num q.qd
    apb := dequantChroma P.chroma q.qpb
    apr := dequantChroma P.chroma q.qpr }

/-- `QUANT` (42_quantizer.md R165). -/
def quantCommand (P : Params F) (e : Engine F) : CommandResult F :=
  if quantDomain P e.coeffs then .done { e with quants := quantsOf (quantize P e.coeffs) }
  else .raise .domainViolation

/-- `DEQUANT` (42_quantizer.md R169). -/
def dequantCommand (P : Params F) (e : Engine F) : CommandResult F :=
  if quantsFit (quantsRead e.quants) then .done { e with coeffs := dequantize P (quantsRead e.quants) }
  else .raise .outOfRange

/-- The step of `QUANT` (R165). -/
def execQuant (s : State) : Host.Outcome State Fault Refusal := runCommand (quantCommand configParams) s

/-- The step of `DEQUANT` (R169). -/
def execDequant (s : State) : Host.Outcome State Fault Refusal := runCommand (dequantCommand configParams) s

end Sys2Proof.Machine
end

