-- ==== Sys2Proof/Machine/Pipeline.lean ====
section
/-! DEFINITION. The two pipeline commands `CBLK` and `DBLK` (44_memory_and_pipeline.md R205, R206). All their
writes happen together or not at all. -/

namespace Sys2Proof.Machine

variable {F : Type}

/-- `CBLK`: compress block `BLK` (44_memory_and_pipeline.md R205). -/
def cblkCommand (P : Params F) (e : Engine F) : Except Fault (CommandResult F) :=
  match e.blockGuard with
  | .error kind => .ok (.raise kind)
  | .ok k =>
    match e.readBlock P k with
    | .error f => .error f
    | .ok samples =>
      let coeffs := blockForward P.num samples
      if quantDomain P coeffs then
        let tuple := quantize P coeffs
        let cw : Codeword := BitVec.ofNat 32 (packWord tuple)
        match e.writeCodeword k cw with
        | .error f => .error f
        | .ok e' =>
          .ok (.done { e' with samples := samples, coeffs := coeffs, quants := quantsOf tuple, cw := cw })
      else .ok (.raise .domainViolation)

/-- `DBLK`: decompress block `BLK` (44_memory_and_pipeline.md R206). -/
def dblkCommand (P : Params F) (e : Engine F) : Except Fault (CommandResult F) :=
  match e.blockGuard with
  | .error kind => .ok (.raise kind)
  | .ok k =>
    match e.readCodeword P k with
    | .error f => .error f
    | .ok cw =>
      let tuple := unpackWord cw.toNat
      let coeffs := dequantize P tuple
      let samples := blockInverse P.num coeffs
      match e.writeBlock k samples with
      | .error f => .error f
      | .ok e' =>
        .ok (.done { e' with cw := cw, quants := quantsOf tuple, coeffs := coeffs, samples := samples })

/-- The step of `CBLK` (R205). -/
def execCblk (s : State) : Host.Outcome State Fault Refusal := runBlockCommand (cblkCommand configParams) s

/-- The step of `DBLK` (R206). -/
def execDblk (s : State) : Host.Outcome State Fault Refusal := runBlockCommand (dblkCommand configParams) s

end Sys2Proof.Machine
end

