-- ==== Sys2Proof/Machine/Dispatch.lean ====
section
/-! DEFINITION. One arm per command of 30_encoding.md R94. -/

namespace Sys2Proof.Machine

def exec (i : Instr) (s : State) : Host.Outcome State Fault Refusal :=
  match i with
  | .nop => Sys2Proof.Machine.execNop s
  | .clrerr => Sys2Proof.Machine.execClrerr s
  | .fitsu width => Sys2Proof.Machine.execFitsu width s
  | .fitss width => Sys2Proof.Machine.execFitss width s
  | .getu width lsb => Sys2Proof.Machine.execGetu width lsb s
  | .gets width lsb => Sys2Proof.Machine.execGets width lsb s
  | .setu width lsb => Sys2Proof.Machine.execSetu width lsb s
  | .sets width lsb => Sys2Proof.Machine.execSets width lsb s
  | .s2u width => Sys2Proof.Machine.execS2u width s
  | .u2s width => Sys2Proof.Machine.execU2s width s
  | .btfwd => Sys2Proof.Machine.execBtfwd s
  | .btinv => Sys2Proof.Machine.execBtinv s
  | .quant => Sys2Proof.Machine.execQuant s
  | .dequant => Sys2Proof.Machine.execDequant s
  | .pack => Sys2Proof.Machine.execPack s
  | .unpack => Sys2Proof.Machine.execUnpack s
  | .ldpx => Sys2Proof.Machine.execLdpx s
  | .stpx => Sys2Proof.Machine.execStpx s
  | .ldcw => Sys2Proof.Machine.execLdcw s
  | .stcw => Sys2Proof.Machine.execStcw s
  | .cblk => Sys2Proof.Machine.execCblk s
  | .dblk => Sys2Proof.Machine.execDblk s

end Sys2Proof.Machine
end

