-- ==== Sys2Proof/Machine/HostPort.lean ====
section
/-! DEFINITION. The host's side of the engine: taking the next transaction, the register numbers, the
transactions that are not commands, and the platform's reset (45_control_and_host.md R222 to R224,
70_reset_and_hazards.md R260). -/

namespace Sys2Proof.Machine

variable {F : Type}

/-- `RegWrite(n, data)` on the admitted numbers 0x00, 0x01, 0x03, 0x04, 0x05, 0x08 to 0x0E; `CW` takes bits
31..0 (45_control_and_host.md R222, R223; 10_state.md R21, R22). -/
def intRegWrite (e : Engine F) (n : Nat) (data : Word64) : Option (Engine F) :=
  match n with
  | 0x00 => some { e with word := data }
  | 0x01 => some { e with val := data }
  | 0x03 => some { e with imgW := data }
  | 0x04 => some { e with imgH := data }
  | 0x05 => some { e with blk := data }
  | 0x08 => some { e with quants := { e.quants with qa := data } }
  | 0x09 => some { e with quants := { e.quants with qb := data } }
  | 0x0A => some { e with quants := { e.quants with qc := data } }
  | 0x0B => some { e with quants := { e.quants with qd := data } }
  | 0x0C => some { e with quants := { e.quants with qpb := data } }
  | 0x0D => some { e with quants := { e.quants with qpr := data } }
  | 0x0E => some { e with cw := data.setWidth 32 }
  | _ => none

/-- `RegRead(n)`: the same numbers and 0x02 `STATUS`; `CW` zero-extended (45_control_and_host.md R222, R223). -/
def intRegRead (e : Engine F) (n : Nat) : Option Word64 :=
  match n with
  | 0x00 => some e.word
  | 0x01 => some e.val
  | 0x02 => some (statusValue e.status)
  | 0x03 => some e.imgW
  | 0x04 => some e.imgH
  | 0x05 => some e.blk
  | 0x08 => some e.quants.qa
  | 0x09 => some e.quants.qb
  | 0x0A => some e.quants.qc
  | 0x0B => some e.quants.qd
  | 0x0C => some e.quants.qpb
  | 0x0D => some e.quants.qpr
  | 0x0E => some (e.cw.setWidth 64)
  | _ => none

/-- `FRegWrite(n, v)` on 0x20 to 0x2B and 0x30 to 0x35 (45_control_and_host.md R223, 10_state.md R27). -/
def numRegWrite (e : Engine F) (n : Nat) (v : F) : Option (Engine F) :=
  match n with
  | 0x20 => some { e with samples := { e.samples with y1 := v } }
  | 0x21 => some { e with samples := { e.samples with y2 := v } }
  | 0x22 => some { e with samples := { e.samples with y3 := v } }
  | 0x23 => some { e with samples := { e.samples with y4 := v } }
  | 0x24 => some { e with samples := { e.samples with pb1 := v } }
  | 0x25 => some { e with samples := { e.samples with pb2 := v } }
  | 0x26 => some { e with samples := { e.samples with pb3 := v } }
  | 0x27 => some { e with samples := { e.samples with pb4 := v } }
  | 0x28 => some { e with samples := { e.samples with pr1 := v } }
  | 0x29 => some { e with samples := { e.samples with pr2 := v } }
  | 0x2A => some { e with samples := { e.samples with pr3 := v } }
  | 0x2B => some { e with samples := { e.samples with pr4 := v } }
  | 0x30 => some { e with coeffs := { e.coeffs with a := v } }
  | 0x31 => some { e with coeffs := { e.coeffs with b := v } }
  | 0x32 => some { e with coeffs := { e.coeffs with c := v } }
  | 0x33 => some { e with coeffs := { e.coeffs with d := v } }
  | 0x34 => some { e with coeffs := { e.coeffs with apb := v } }
  | 0x35 => some { e with coeffs := { e.coeffs with apr := v } }
  | _ => none

/-- `FRegRead(n)` on the same numbers (45_control_and_host.md R223). -/
def numRegRead (e : Engine F) (n : Nat) : Option F :=
  match n with
  | 0x20 => some e.samples.y1
  | 0x21 => some e.samples.y2
  | 0x22 => some e.samples.y3
  | 0x23 => some e.samples.y4
  | 0x24 => some e.samples.pb1
  | 0x25 => some e.samples.pb2
  | 0x26 => some e.samples.pb3
  | 0x27 => some e.samples.pb4
  | 0x28 => some e.samples.pr1
  | 0x29 => some e.samples.pr2
  | 0x2A => some e.samples.pr3
  | 0x2B => some e.samples.pr4
  | 0x30 => some e.coeffs.a
  | 0x31 => some e.coeffs.b
  | 0x32 => some e.coeffs.c
  | 0x33 => some e.coeffs.d
  | 0x34 => some e.coeffs.apb
  | 0x35 => some e.coeffs.apr
  | _ => none

/-- The registers that reset leaves "unspecified" (10_state.md R33). -/
structure UnspecifiedRegisters (F : Type) where
  word : Word64
  val : Word64
  quants : Quants
  cw : Codeword
  samples : Samples F
  coeffs : Coeffs F
deriving DecidableEq, Repr

/-- An engine right after reset, on the given memories: `STATUS`, `IMG_W`, `IMG_H`, `BLK` are 0, every other
register holds the value drawn for it (10_state.md R33). -/
def registersAfterReset (drawn : UnspecifiedRegisters F) (pix : Memory (Pixel F)) (cwm : Memory Byte) : Engine F :=
  { word := drawn.word, val := drawn.val
    status := statusReset
    imgW := 0, imgH := 0, blk := 0
    quants := drawn.quants, cw := drawn.cw, samples := drawn.samples, coeffs := drawn.coeffs
    pix := pix, cwm := cwm }

/-- The platform's reset of an engine: "`PIX`, `CWM` and the chroma table are untouched"
(70_reset_and_hazards.md R260, 10_state.md R33). -/
def Engine.platformReset (e : Engine F) (drawn : UnspecifiedRegisters F) : Engine F :=
  registersAfterReset drawn e.pix e.cwm

/-- The free values of the reset with the given count, one per register by its number (assumption log 4). -/
def drawnRegisters (count : Nat) : UnspecifiedRegisters Config.F :=
  { word := Config.resetBits count 0x00
    val := Config.resetBits count 0x01
    quants :=
      { qa := Config.resetBits count 0x08, qb := Config.resetBits count 0x09
        qc := Config.resetBits count 0x0A, qd := Config.resetBits count 0x0B
        qpb := Config.resetBits count 0x0C, qpr := Config.resetBits count 0x0D }
    cw := (Config.resetBits count 0x0E).setWidth 32
    samples :=
      { y1 := Config.resetNumber count 0x20, y2 := Config.resetNumber count 0x21
        y3 := Config.resetNumber count 0x22, y4 := Config.resetNumber count 0x23
        pb1 := Config.resetNumber count 0x24, pb2 := Config.resetNumber count 0x25
        pb3 := Config.resetNumber count 0x26, pb4 := Config.resetNumber count 0x27
        pr1 := Config.resetNumber count 0x28, pr2 := Config.resetNumber count 0x29
        pr3 := Config.resetNumber count 0x2A, pr4 := Config.resetNumber count 0x2B }
    coeffs :=
      { a := Config.resetNumber count 0x30, b := Config.resetNumber count 0x31
        c := Config.resetNumber count 0x32, d := Config.resetNumber count 0x33
        apb := Config.resetNumber count 0x34, apr := Config.resetNumber count 0x35 } }

/-- What a host transaction other than `Cmd` does to an engine. -/
inductive AccessResult (F : Type) where
  /-- a write has ended and left this engine -/
  | changed (e : Engine F)
  /-- a read has returned this value and left the engine as it was -/
  | replied (r : HostReply F)
  /-- 45_control_and_host.md R224 does not admit the transaction -/
  | notAdmitted (r : Refusal)
deriving DecidableEq, Repr

/-- A host transaction other than `Cmd`, for any parameters. None of them changes `STATUS`; one that is not
admitted is refused by name (45_control_and_host.md R222 to R224, assumption log 8). -/
def engineAccess (P : Params F) (t : HostAccess F) (e : Engine F) : AccessResult F :=
  match t with
  | .regWrite n data =>
    match intRegWrite e n data with
    | some e' => .changed e'
    | none => .notAdmitted (.registerWriteNotAdmitted n)
  | .regRead n =>
    match intRegRead e n with
    | some v => .replied (.register v)
    | none => .notAdmitted (.registerReadNotAdmitted n)
  | .fregWrite n v =>
    match numRegWrite e n v with
    | some e' => .changed e'
    | none => .notAdmitted (.numberWriteNotAdmitted n)
  | .fregRead n =>
    match numRegRead e n with
    | some v => .replied (.number v)
    | none => .notAdmitted (.numberReadNotAdmitted n)
  | .pixWrite p t =>
    match e.pixWrite p t with
    | .ok e' => .changed e'
    | .error _ => .notAdmitted (.pixelNotAdmitted p)
  | .pixRead p =>
    match e.pixRead P p with
    | .ok t => .replied (.pixel t)
    | .error _ => .notAdmitted (.pixelNotAdmitted p)
  | .byteWrite addr b =>
    match e.memWrite addr [b] with
    | .ok e' => .changed e'
    | .error _ => .notAdmitted (.byteNotAdmitted addr)
  | .byteRead addr =>
    if addr < e.cwmSize then .replied (.byte (e.byte P addr)) else .notAdmitted (.byteNotAdmitted addr)

/-- A host transaction other than `Cmd`, as a step of the machine: the value of a read goes in front of `replies`
(assumption log 9), and the machine stops at one that is not admitted (assumption log 8). -/
def hostAccess (t : HostAccess Config.F) (s : State) : Host.Outcome State Fault Refusal :=
  match engineAccess configParams t s.engine with
  | .changed e => .next { s with engine := e }
  | .replied r => .next { s with replies := r :: s.replies }
  | .notAdmitted r => .refused r

/-- The platform's reset, as an event between two transactions (70_reset_and_hazards.md R260): the registers
the spec leaves unspecified take the free values of this draw (assumption log 4). -/
def platformResetNow (s : State) : Host.Outcome State Fault Refusal :=
  .next { s with engine := s.engine.platformReset (drawnRegisters s.draws), draws := s.draws + 1 }

/-- What the engine finds when it looks for what comes next. -/
inductive Fetched where
  /-- nothing is pending: the engine waits (70_reset_and_hazards.md R260) -/
  | idle
  /-- a `Cmd` transaction with its word, and the state with it taken -/
  | command (word : CommandWord) (s : State)
  /-- another transaction, and the state with it taken -/
  | access (t : HostAccess Config.F) (s : State)
  /-- the platform's reset, and the state with it taken -/
  | reset (s : State)

/-- Take the host's next transaction, "one at a time" and in the host's order (45_control_and_host.md R222,
10_state.md R23, 20_memory.md R71). -/
def fetch (s : State) : Fetched :=
  match s.pending with
  | [] => .idle
  | .cmd word :: rest => .command word { s with pending := rest }
  | .access t :: rest => .access t { s with pending := rest }
  | .reset :: rest => .reset { s with pending := rest }

end Sys2Proof.Machine
end

