-- ==== Sys2Proof/Machine/Step.lean ====
section
/-! DEFINITION. One step of the machine: the host's next transaction, to its end (00_scope.md R3,
45_control_and_host.md R222). -/

namespace Sys2Proof.Machine

/-- One step. With nothing pending the engine waits and nothing changes (assumption log 7). A `Cmd` decodes
its word and runs the command, or raises `IllegalCommand` (45_control_and_host.md R222). -/
def step (s : State) : Host.Outcome State Fault Refusal :=
  match fetch s with
  | .idle => .next s
  | .access t s' => hostAccess t s'
  | .reset s' => platformResetNow s'
  | .command word s' =>
    match decode word with
    | .command i => exec i s'
    | .illegal _ => execIllegal s'

/-- `s` with the host about to perform `Cmd(w)`, the word's bits at and above `nbits` being 0. What was
pending stays behind it (assumption log 6). -/
def State.withFetchWord (s : State) (nbits w : Nat) : State :=
  { s with pending := .cmd (BitVec.ofNat 32 (w % 2 ^ nbits)) :: s.pending }

end Sys2Proof.Machine
end

