-- ==== Sys2Proof/Machine/Command.lean ====
section
/-! DEFINITION. The engine with its parameters `NUM` and `CHROMA` as arguments (00_scope.md R3, R7, R8): one
step of one engine "takes the whole architectural state and one 32-bit command word and yields the next
state". `exec` is this at `configParams`. -/

namespace Sys2Proof.Machine

variable {F : Type}

/-- The rule of each command, for any parameters (30_encoding.md R94). -/
def commandOf (P : Params F) : Instr → Engine F → Except Fault (CommandResult F)
  | .nop, e => .ok (nopCommand e)
  | .clrerr, e => .ok (clrerrCommand e)
  | .fitsu width, e => .ok (fitsuCommand width e)
  | .fitss width, e => .ok (fitssCommand width e)
  | .getu width lsb, e => .ok (getuCommand width lsb e)
  | .gets width lsb, e => .ok (getsCommand width lsb e)
  | .setu width lsb, e => .ok (setuCommand width lsb e)
  | .sets width lsb, e => .ok (setsCommand width lsb e)
  | .s2u width, e => .ok (s2uCommand width e)
  | .u2s width, e => .ok (u2sCommand width e)
  | .btfwd, e => .ok (btfwdCommand P e)
  | .btinv, e => .ok (btinvCommand P e)
  | .quant, e => .ok (quantCommand P e)
  | .dequant, e => .ok (dequantCommand P e)
  | .pack, e => .ok (packCommand e)
  | .unpack, e => .ok (unpackCommand e)
  | .ldpx, e => ldpxCommand P e
  | .stpx, e => stpxCommand e
  | .ldcw, e => ldcwCommand P e
  | .stcw, e => stcwCommand e
  | .cblk, e => cblkCommand P e
  | .dblk, e => dblkCommand P e

/-- The engine after a command has ended. -/
def engineAfter (P : Params F) (i : Instr) (e : Engine F) : Except Fault (Engine F) :=
  match commandOf P i e with
  | .ok result => .ok (e.finish result)
  | .error f => .error f

/-- A step of one engine: "the engine decodes the 32-bit `word` and executes the command, or raises
`IllegalCommand`" (45_control_and_host.md R222), for any parameters. -/
def engineStep (P : Params F) (word : CommandWord) (e : Engine F) : Except Fault (Engine F) :=
  match decode word with
  | .command i => engineAfter P i e
  | .illegal _ => .ok (e.finish (illegalCommand e))

end Sys2Proof.Machine
end

