-- ==== Sys2Proof/Safety.lean ====
section
/-! DEFINITION. What counts as a safe run, and the terms the claims use: the invariant, the admitted
transactions, the outcome of a command, the read and write sets of 10_state.md R29. -/

namespace Sys2Proof.Machine

/-! ### Invariant and safe steps -/

/-- The invariant of the engine: `STATUS.ERR` is one of 0 to 6, "7 never written" (10_state.md R24,
93_implementation_defined.md U9), and both memories are in canonical form. -/
def Engine.Inv {F : Type} (e : Engine F) : Prop :=
  e.status.err ≠ 7 ∧ Memory.wf e.pix = true ∧ Memory.wf e.cwm = true

/-- The invariant of the machine, kept by every step. -/
def State.Inv (s : State) : Prop := s.engine.Inv

/-- A step that goes on: neither a fault nor a refusal. -/
def GoesOn (o : Host.Outcome State Fault Refusal) : Prop := ∃ s, o = .next s

/-- No command failed since reset or the last `CLRERR` (10_state.md R24, R25). -/
def NoCommandFailed (s : State) : Prop := s.engine.status.anyErr = false

/-- A step that a program relying on `STATUS.ANYERR` may go on from (44_memory_and_pipeline.md R208). -/
def SafeStep (s : State) : Prop := ∃ t, step s = .next t ∧ NoCommandFailed t

/-- The transactions that 45_control_and_host.md R223, R224 admit in a state. -/
def Admitted (e : Engine Config.F) : HostAccess Config.F → Prop
  | .regWrite n _ => n ∈ [0x00, 0x01, 0x03, 0x04, 0x05, 0x08, 0x09, 0x0A, 0x0B, 0x0C, 0x0D, 0x0E]
  | .regRead n => n ∈ [0x00, 0x01, 0x02, 0x03, 0x04, 0x05, 0x08, 0x09, 0x0A, 0x0B, 0x0C, 0x0D, 0x0E]
  | .fregWrite n _ | .fregRead n => (0x20 ≤ n ∧ n ≤ 0x2B) ∨ (0x30 ≤ n ∧ n ≤ 0x35)
  | .pixWrite p _ | .pixRead p => p < asU e.imgW * asU e.imgH
  | .byteWrite addr _ | .byteRead addr => addr < 4 * (asU e.imgW / 2) * (asU e.imgH / 2)

/-! ### Outcomes of a command, spelt out (00_scope.md R12) -/

/-- The state after a command that succeeds and leaves the engine `e`: `STATUS.ERR` is 0. -/
def State.succeedsAs (s : State) (e : Engine Config.F) : State :=
  { s with engine := { e with status := { err := 0, anyErr := e.status.anyErr, flag := e.status.flag } } }

/-- The state after a command that fails with a code: `STATUS.ERR` is the code, `STATUS.ANYERR` is 1, and
everything else is as before. -/
def State.failsWith (s : State) (code : BitVec 3) : State :=
  { s with engine := { s.engine with status := { err := code, anyErr := true, flag := s.engine.status.flag } } }

/-- The state with another block index in `BLK`. -/
def State.atBlock (s : State) (k : Word64) : State := { s with engine := { s.engine with blk := k } }

/-- The state with another value in `VAL`. -/
def State.withVal (s : State) (v : Word64) : State := { s with engine := { s.engine with val := v } }

/-- What `block_guard` asks for (44_memory_and_pipeline.md R200). -/
def BlockReady (e : Engine Config.F) : Prop :=
  asU e.imgW % 2 = 0 ∧ asU e.imgH % 2 = 0 ∧ asU e.blk < (asU e.imgW / 2) * (asU e.imgH / 2)

/-- The code of a command that `block_guard` stops: `DimensionMismatch` before `BadBlockIndex`
(44_memory_and_pipeline.md R200, 60_exceptions.md R236). -/
def guardCode (e : Engine Config.F) : BitVec 3 :=
  if asU e.imgW % 2 = 1 ∨ asU e.imgH % 2 = 1 then 2 else 5

/-- Every quantized register is in the range of its field (43_codeword_packer.md R180, R182). -/
def QuantsInRange (q : Quants) : Prop :=
  asU q.qa ≤ 511 ∧ (-16 ≤ asS q.qb ∧ asS q.qb ≤ 15) ∧ (-16 ≤ asS q.qc ∧ asS q.qc ≤ 15) ∧
    (-16 ≤ asS q.qd ∧ asS q.qd ≤ 15) ∧ asU q.qpb ≤ 15 ∧ asU q.qpr ≤ 15

/-- A tuple is in the field ranges of 43_codeword_packer.md R180. -/
def TupleInRange (t : QuantTuple) : Prop :=
  (0 ≤ t.qa ∧ t.qa ≤ 511) ∧ (-16 ≤ t.qb ∧ t.qb ≤ 15) ∧ (-16 ≤ t.qc ∧ t.qc ≤ 15) ∧
    (-16 ≤ t.qd ∧ t.qd ≤ 15) ∧ (0 ≤ t.qpb ∧ t.qpb ≤ 15) ∧ (0 ≤ t.qpr ∧ t.qpr ≤ 15)

/-- The domain of `QUANT` under `NUM_Q`, where every value is finite (42_quantizer.md R164). -/
def CoeffsInDomain (t : Coeffs Config.F) : Prop :=
  0 ≤ t.a ∧ t.a ≤ 1 ∧ configChroma.legal t.apb = true ∧ configChroma.legal t.apr = true

/-- The samples of the block in `BLK` as `PIX` holds them: the luma and the two chromas of pixel 1 in `Y1`, `PB1`,
`PR1`, and so on (44_memory_and_pipeline.md R201). -/
def blockSamples (e : Engine Config.F) : Samples Config.F :=
  let b := blockPixels (asU e.imgW) (asU e.blk)
  { y1 := (e.pixel configParams b.p1).y, y2 := (e.pixel configParams b.p2).y
    y3 := (e.pixel configParams b.p3).y, y4 := (e.pixel configParams b.p4).y
    pb1 := (e.pixel configParams b.p1).pb, pb2 := (e.pixel configParams b.p2).pb
    pb3 := (e.pixel configParams b.p3).pb, pb4 := (e.pixel configParams b.p4).pb
    pr1 := (e.pixel configParams b.p1).pr, pr2 := (e.pixel configParams b.p2).pr
    pr3 := (e.pixel configParams b.p3).pr, pr4 := (e.pixel configParams b.p4).pr }

/-- The commands one after another, stopping at a fault or a refusal. -/
def execAll : List Instr → State → Host.Outcome State Fault Refusal
  | [], s => .next s
  | i :: rest, s =>
    match exec i s with
    | .next t => execAll rest t
    | .fault f => .fault f
    | .refused r => .refused r

/-- The codes a command can raise (60_exceptions.md R230, column "raised by"; `IllegalCommand` is raised by the
word, before there is a command). -/
def raisedCodes : Instr → List (BitVec 3)
  | .nop | .clrerr | .btfwd | .btinv | .unpack => []
  | .fitsu _ | .fitss _ | .getu _ _ | .gets _ _ => [4]
  | .setu _ _ | .sets _ _ | .s2u _ | .u2s _ => [4, 1]
  | .quant => [6]
  | .dequant | .pack => [1]
  | .ldpx | .stpx | .ldcw | .stcw | .dblk => [2, 5]
  | .cblk => [2, 5, 6]

/-! ### Read and write sets (10_state.md R29) -/

/-- The groups of state that the table of 10_state.md R29 names: `pix` is the "four elements of `PIX`" of the block
in `BLK`, `cwm` its "four bytes of `CWM`"; `pixRest` and `cwmRest`, which no row names, are all others. -/
inductive Group where
  | word
  | val
  | flag
  | anyErr
  | dims
  | quants
  | cw
  | samples
  | coeffs
  | pix
  | pixRest
  | cwm
  | cwmRest
deriving DecidableEq, Repr

/-- What a command writes on success (10_state.md R29, column "writes on success"). -/
def writeSet : Instr → List Group
  | .nop => []
  | .clrerr => [.anyErr]
  | .fitsu _ | .fitss _ => [.flag]
  | .getu _ _ | .gets _ _ => [.val]
  | .setu _ _ | .sets _ _ => [.word]
  | .s2u _ | .u2s _ => [.val]
  | .btfwd => [.coeffs]
  | .btinv => [.samples]
  | .quant => [.quants]
  | .dequant => [.coeffs]
  | .pack => [.cw]
  | .unpack => [.quants]
  | .ldpx => [.samples]
  | .stpx => [.pix]
  | .ldcw => [.cw]
  | .stcw => [.cwm]
  | .cblk => [.samples, .coeffs, .quants, .cw, .cwm]
  | .dblk => [.cw, .quants, .coeffs, .samples, .pix]

/-- What a command reads (10_state.md R29, column "reads"). -/
def readSet : Instr → List Group
  | .nop | .clrerr => []
  | .fitsu _ | .fitss _ => [.val]
  | .getu _ _ | .gets _ _ => [.word]
  | .setu _ _ | .sets _ _ => [.word, .val]
  | .s2u _ | .u2s _ => [.val]
  | .btfwd => [.samples]
  | .btinv => [.coeffs]
  | .quant => [.coeffs]
  | .dequant => [.quants]
  | .pack => [.quants]
  | .unpack => [.cw]
  | .ldpx => [.dims, .pix]
  | .stpx => [.dims, .samples]
  | .ldcw => [.dims, .cwm]
  | .stcw => [.dims, .cw]
  | .cblk => [.dims, .pix]
  | .dblk => [.dims, .cwm]

/-- The elements of `PIX` that belong to the block in `BLK` (41_block_transform.md R147). -/
def blockElements (e : Engine Config.F) : List Nat :=
  [(blockPixels (asU e.imgW) (asU e.blk)).p1, (blockPixels (asU e.imgW) (asU e.blk)).p2,
    (blockPixels (asU e.imgW) (asU e.blk)).p3, (blockPixels (asU e.imgW) (asU e.blk)).p4]

/-- The bytes of `CWM` that belong to the block in `BLK` (20_memory.md R64). -/
def blockBytes (e : Engine Config.F) : List Nat :=
  [4 * asU e.blk, 4 * asU e.blk + 1, 4 * asU e.blk + 2, 4 * asU e.blk + 3]

/-- Two engines hold the same in a group; the memories are compared by what each element or byte reads as, the
block being that of the first engine. -/
def Group.same (e e' : Engine Config.F) : Group → Prop
  | .word => e'.word = e.word
  | .val => e'.val = e.val
  | .flag => e'.status.flag = e.status.flag
  | .anyErr => e'.status.anyErr = e.status.anyErr
  | .dims => e'.imgW = e.imgW ∧ e'.imgH = e.imgH ∧ e'.blk = e.blk
  | .quants => e'.quants = e.quants
  | .cw => e'.cw = e.cw
  | .samples => e'.samples = e.samples
  | .coeffs => e'.coeffs = e.coeffs
  | .pix => ∀ p, p ∈ blockElements e → e'.pixel configParams p = e.pixel configParams p
  | .pixRest => ∀ p, p ∉ blockElements e → e'.pixel configParams p = e.pixel configParams p
  | .cwm => ∀ addr, addr ∈ blockBytes e → e'.byte configParams addr = e.byte configParams addr
  | .cwmRest => ∀ addr, addr ∉ blockBytes e → e'.byte configParams addr = e.byte configParams addr

end Sys2Proof.Machine
end

