-- ==== Sys2Proof/Certificates/Slice0/Obligations.lean ====
section
/-! DEFINITION. The statements for the provers. `State.succeedsAs`, `State.failsWith`, `BlockReady`,
`QuantsInRange`, `CoeffsInDomain`, `blockSamples` and the sets of 10_state.md R29 are in Safety.lean. -/

open Sys2Proof Sys2Proof.Machine

/-! ### The command word -/

/-- Words written out from 30_encoding.md R91, R94 and R97 decode to the commands they stand for, and two that
R96 calls illegal do not. -/
def Obligations.SpecWordsDecode : Prop :=
  decode 0x12000917#32 = .command (.getu 9 23) ∧ decode 0x11000500#32 = .command (.fitss 5) ∧
  decode 0x40000000#32 = .command .pack ∧ decode 0x00000000#32 = .command .nop ∧
  decode 0x20000000#32 = .command .btfwd ∧ decode 0x31000000#32 = .command .dequant ∧
  decode 0x53000000#32 = .command .stcw ∧ decode 0x61000000#32 = .command .dblk ∧
  decode 0x12010917#32 = .illegal (.nonzeroReserved 0x12) ∧ decode 0xFFFFFFFF#32 = .illegal (.undefinedOpcode 0xFF)

/-- Decode and encode agree: no bit of an operand is dropped (30_encoding.md R92, R95). -/
def Obligations.DecodeOfEncode : Prop :=
  ∀ i : Instr, i.wellFormed = true → decode (encode i) = .command i

/-- Every word that decodes is the word of its command, so each command has one word (30_encoding.md R92,
R95). -/
def Obligations.EncodeOfDecode : Prop :=
  ∀ (word : CommandWord) (i : Instr), decode word = .command i → encode i = word ∧ i.wellFormed = true

/-- A word that is no command fails with code 3 and writes nothing else, whatever the state
(60_exceptions.md R233, 30_encoding.md R96). -/
def Obligations.OtherWordsAreIllegal : Prop :=
  ∀ (s : State) (word : CommandWord) (rest : List (HostEvent Config.F)),
    s.pending = .cmd word :: rest → (∀ i : Instr, i.wellFormed = true → encode i ≠ word) →
    step s = .next (State.failsWith { s with pending := rest } 3)

/-! ### The step and the host's transactions -/

/-- A step whose next transaction is `Cmd(word)` runs the decoded command on the state with that transaction
taken, and a step whose next transaction is another one performs it on that state (45_control_and_host.md R222). The
list of pending transactions is the model's (assumption log 6). -/
def Obligations.StepRunsDecodedCommand : Prop :=
  (∀ (s : State) (word : CommandWord) (rest : List (HostEvent Config.F)) (i : Instr),
    s.pending = .cmd word :: rest → decode word = .command i → step s = exec i { s with pending := rest }) ∧
  (∀ (s : State) (t : HostAccess Config.F) (rest : List (HostEvent Config.F)),
    s.pending = .access t :: rest → step s = hostAccess t { s with pending := rest })

/-- A host transaction goes on when it is admitted and is refused when it is not (45_control_and_host.md R223,
R224). -/
def Obligations.AccessGoesOnIffAdmitted : Prop :=
  ∀ (s : State) (t : HostAccess Config.F) (rest : List (HostEvent Config.F)),
    s.pending = .access t :: rest →
    (Admitted s.engine t → GoesOn (step s)) ∧ (¬Admitted s.engine t → ∃ r, step s = .refused r)

/-- An admitted `RegWrite` goes on and changes the engine alone; there the register reads as written (`CW`: the low
32 bits, zero-extended), and every other register and both memories are as before (45_control_and_host.md R222, R223;
10_state.md R21, R22). That `PIX` and `CWM` keep their contents when `IMG_W` (0x03) or `IMG_H` (0x04) is written is the
model's inference (assumption log 10). -/
def Obligations.IntRegisterWriteThenRead : Prop :=
  ∀ (s : State) (n : Nat) (data : Word64), Admitted s.engine (.regWrite n data) →
    ∃ e', hostAccess (.regWrite n data) s = .next { s with engine := e' } ∧
      intRegRead e' n = some (if n = 0x0E then (data.setWidth 32).setWidth 64 else data) ∧
      (∀ m, m ≠ n → intRegRead e' m = intRegRead s.engine m) ∧
      (∀ m, numRegRead e' m = numRegRead s.engine m) ∧ e'.pix = s.engine.pix ∧ e'.cwm = s.engine.cwm

/-- An admitted `FRegWrite` goes on and changes the engine alone; there the register reads as written, and every
other register and both memories are as before (45_control_and_host.md R222, R223; 10_state.md R27). -/
def Obligations.NumRegisterWriteThenRead : Prop :=
  ∀ (s : State) (n : Nat) (v : Config.F), Admitted s.engine (.fregWrite n v) →
    ∃ e', hostAccess (.fregWrite n v) s = .next { s with engine := e' } ∧
      numRegRead e' n = some v ∧ (∀ m, m ≠ n → numRegRead e' m = numRegRead s.engine m) ∧
      (∀ m, intRegRead e' m = intRegRead s.engine m) ∧ e'.pix = s.engine.pix ∧ e'.cwm = s.engine.cwm

/-- A host write of an element of `PIX` or a byte of `CWM` is admitted inside the memory, is read back, and
changes nothing else (20_memory.md R61, R63). -/
def Obligations.HostMemoryWriteThenRead : Prop :=
  (∀ (s : State) (p : Nat) (t : Pixel Config.F), p < asU s.engine.imgW * asU s.engine.imgH →
    ∃ m, hostAccess (.pixWrite p t) s = .next { s with engine := { s.engine with pix := m } } ∧
      ∀ q, Engine.pixel configParams { s.engine with pix := m } q =
        if q = p then t else s.engine.pixel configParams q) ∧
  (∀ (s : State) (addr : Nat) (b : Byte), addr < 4 * (asU s.engine.imgW / 2) * (asU s.engine.imgH / 2) →
    ∃ m, hostAccess (.byteWrite addr b) s = .next { s with engine := { s.engine with cwm := m } } ∧
      ∀ c, Engine.byte configParams { s.engine with cwm := m } c =
        if c = addr then b else s.engine.byte configParams c)

/-- The platform's reset: the control registers become 0, both memories are untouched, and every other register
holds some value (70_reset_and_hazards.md R260, 10_state.md R33). -/
def Obligations.PlatformResetClearsControl : Prop :=
  ∀ (s : State) (rest : List (HostEvent Config.F)), s.pending = .reset :: rest →
    ∃ t, step s = .next t ∧ t.engine.status = { err := 0, anyErr := false, flag := false } ∧
      t.engine.imgW = 0 ∧ t.engine.imgH = 0 ∧ t.engine.blk = 0 ∧ t.engine.pix = s.engine.pix ∧
      t.engine.cwm = s.engine.cwm ∧ t.pending = rest ∧ t.replies = s.replies

/-- The values the spec gives for reset, in the state after reset (10_state.md R33). The other registers' zeros
are the model's choice (assumption log 3) and are not stated. -/
def Obligations.ResetControlRegistersAreZero : Prop :=
  intRegRead State.reset.engine 0x02 = some 0 ∧ State.reset.engine.imgW = 0 ∧ State.reset.engine.imgH = 0 ∧
  State.reset.engine.blk = 0

/-- What the host reads from `STATUS`, its reserved bits zero (10_state.md R24). -/
def Obligations.StatusReadsItsFields : Prop :=
  ∀ e : Engine Config.F, ∃ v, intRegRead e 0x02 = some v ∧ v.toNat < 32 ∧
    v.toNat = (if e.status.flag then 1 else 0) * 16 + (if e.status.anyErr then 1 else 0) * 8 + e.status.err.toNat

/-! ### Control commands -/

/-- `NOP` writes `STATUS.ERR <- 0` and nothing else (45_control_and_host.md R220). -/
def Obligations.NopResult : Prop := ∀ s : State, exec .nop s = .next (s.succeedsAs s.engine)

/-- `CLRERR` clears `ANYERR` and `ERR` and nothing else (45_control_and_host.md R221). -/
def Obligations.ClrerrResult : Prop :=
  ∀ s : State, exec .clrerr s =
    .next { s with engine := { s.engine with status := { err := 0, anyErr := false, flag := s.engine.status.flag } } }

/-! ### BitField Codec -/

/-- Field arithmetic (40_bitfield_codec.md R110): the formulas, the ranges, and `insert` bit by bit. The clause of
width 0 is the spec's inference from the formula. -/
def Obligations.FieldArithmetic : Prop :=
  ∀ word w l u : Nat, word < 2 ^ 64 → w + l ≤ 64 → u < 2 ^ w →
    fieldGet word w l = word / 2 ^ l % 2 ^ w ∧ fieldGet word w l < 2 ^ w ∧ fieldGet word 0 l = 0 ∧
    (fieldInsert word w l u : Int) = (word : Int) - fieldGet word w l * 2 ^ l + u * 2 ^ l ∧
    fieldInsert word w l u < 2 ^ 64 ∧
    ∀ i, (fieldInsert word w l u).testBit i = if l ≤ i ∧ i < l + w then u.testBit (i - l) else word.testBit i

/-- The laws of 40_bitfield_codec.md R122: set then get, the conversion round trips, no other bit changes. -/
def Obligations.SetThenGetAndConversionLaws : Prop :=
  (∀ word w l u : Nat, word < 2 ^ 64 → 1 ≤ w → w + l ≤ 64 → u < 2 ^ w →
    fieldGet (fieldInsert word w l u) w l = u ∧
    ∀ w' l', w' + l' ≤ 64 → l' + w' ≤ l ∨ l + w ≤ l' →
      fieldGet (fieldInsert word w l u) w' l' = fieldGet word w' l') ∧
  (∀ (w : Nat) (v : Int), 1 ≤ w → w ≤ 64 → -(2 ^ (w - 1)) ≤ v → v ≤ 2 ^ (w - 1) - 1 →
    sextField w (v % 2 ^ w).toNat = v) ∧
  (∀ w u : Nat, 1 ≤ w → w ≤ 64 → u < 2 ^ w → sextField w u % 2 ^ w = u)

/-- `FITSU` (40_bitfield_codec.md R114). -/
def Obligations.FitsuResult : Prop :=
  ∀ (w : Nat) (s : State),
    (1 ≤ w → w ≤ 64 → exec (.fitsu w) s = .next (s.succeedsAs { s.engine with
      status := { s.engine.status with flag := decide (s.engine.val.toNat ≤ 2 ^ w - 1) } })) ∧
    (w = 0 ∨ 64 < w → exec (.fitsu w) s = .next (s.failsWith 4))

/-- `FITSS` (40_bitfield_codec.md R115). -/
def Obligations.FitssResult : Prop :=
  ∀ (w : Nat) (s : State),
    (1 ≤ w → w ≤ 64 → exec (.fitss w) s = .next (s.succeedsAs { s.engine with
      status := { s.engine.status with
        flag := decide (-(2 ^ (w - 1)) ≤ s.engine.val.toInt ∧ s.engine.val.toInt ≤ 2 ^ (w - 1) - 1) } })) ∧
    (w = 0 ∨ 64 < w → exec (.fitss w) s = .next (s.failsWith 4))

/-- `GETU` (40_bitfield_codec.md R116). -/
def Obligations.GetuResult : Prop :=
  ∀ (w l : Nat) (s : State),
    (w + l ≤ 64 → exec (.getu w l) s = .next (s.succeedsAs { s.engine with
      val := BitVec.ofNat 64 (s.engine.word.toNat / 2 ^ l % 2 ^ w) })) ∧
    (64 < w + l → exec (.getu w l) s = .next (s.failsWith 4))

/-- `GETS` (40_bitfield_codec.md R117): bit by bit, the field below `width` and copies of its top bit above;
width 0 gives 0. -/
def Obligations.GetsResult : Prop :=
  ∀ (w l : Nat) (s : State),
    (w + l ≤ 64 → ∃ v : Word64, exec (.gets w l) s = .next (s.succeedsAs { s.engine with val := v }) ∧
      ∀ i, i < 64 → v.getLsbD i =
        if w = 0 then false else if i < w then s.engine.word.getLsbD (l + i) else s.engine.word.getLsbD (l + w - 1)) ∧
    (64 < w + l → exec (.gets w l) s = .next (s.failsWith 4))

/-- `SETU` (40_bitfield_codec.md R118), the new Word bit by bit; `BadDescriptor` wins over `OutOfRange`. -/
def Obligations.SetuResult : Prop :=
  ∀ (w l : Nat) (s : State),
    (1 ≤ w → w + l ≤ 64 → s.engine.val.toNat < 2 ^ w →
      ∃ new : Word64, exec (.setu w l) s = .next (s.succeedsAs { s.engine with word := new }) ∧
        ∀ i, i < 64 → new.getLsbD i =
          if l ≤ i ∧ i < l + w then s.engine.val.getLsbD (i - l) else s.engine.word.getLsbD i) ∧
    (1 ≤ w → w + l ≤ 64 → 2 ^ w ≤ s.engine.val.toNat → exec (.setu w l) s = .next (s.failsWith 1)) ∧
    (w = 0 ∨ 64 < w + l → exec (.setu w l) s = .next (s.failsWith 4))

/-- `SETS` (40_bitfield_codec.md R119), the new Word bit by bit: the low `width` bits of `VAL` in the field. -/
def Obligations.SetsResult : Prop :=
  ∀ (w l : Nat) (s : State),
    (1 ≤ w → w + l ≤ 64 → -(2 ^ (w - 1)) ≤ s.engine.val.toInt → s.engine.val.toInt ≤ 2 ^ (w - 1) - 1 →
      ∃ new : Word64, exec (.sets w l) s = .next (s.succeedsAs { s.engine with word := new }) ∧
        ∀ i, i < 64 → new.getLsbD i =
          if l ≤ i ∧ i < l + w then s.engine.val.getLsbD (i - l) else s.engine.word.getLsbD i) ∧
    (1 ≤ w → w + l ≤ 64 → s.engine.val.toInt < -(2 ^ (w - 1)) ∨ 2 ^ (w - 1) - 1 < s.engine.val.toInt →
      exec (.sets w l) s = .next (s.failsWith 1)) ∧
    (w = 0 ∨ 64 < w + l → exec (.sets w l) s = .next (s.failsWith 4))

/-- `S2U` (40_bitfield_codec.md R120). -/
def Obligations.SignedToUnsignedResult : Prop :=
  ∀ (w : Nat) (s : State),
    (1 ≤ w → w ≤ 64 → -(2 ^ (w - 1)) ≤ s.engine.val.toInt → s.engine.val.toInt ≤ 2 ^ (w - 1) - 1 →
      ∃ v : Word64, exec (.s2u w) s = .next (s.succeedsAs { s.engine with val := v }) ∧
        (v.toNat : Int) = s.engine.val.toInt % 2 ^ w ∧ v.toNat < 2 ^ w) ∧
    (1 ≤ w → w ≤ 64 → s.engine.val.toInt < -(2 ^ (w - 1)) ∨ 2 ^ (w - 1) - 1 < s.engine.val.toInt →
      exec (.s2u w) s = .next (s.failsWith 1)) ∧
    (w = 0 ∨ 64 < w → exec (.s2u w) s = .next (s.failsWith 4))

/-- `U2S` (40_bitfield_codec.md R121). -/
def Obligations.UnsignedToSignedResult : Prop :=
  ∀ (w : Nat) (s : State),
    (1 ≤ w → w ≤ 64 → s.engine.val.toNat < 2 ^ w →
      ∃ v : Word64, exec (.u2s w) s = .next (s.succeedsAs { s.engine with val := v }) ∧
        v.toInt = if s.engine.val.toNat < 2 ^ (w - 1) then (s.engine.val.toNat : Int)
          else (s.engine.val.toNat : Int) - 2 ^ w) ∧
    (1 ≤ w → w ≤ 64 → 2 ^ w ≤ s.engine.val.toNat → exec (.u2s w) s = .next (s.failsWith 1)) ∧
    (w = 0 ∨ 64 < w → exec (.u2s w) s = .next (s.failsWith 4))

/-- The laws of the commands, which the spec derives from R110 and R116 to R121 (40_bitfield_codec.md R123): `GETS`
is `GETU` then `U2S`; `SETS` leaves in `WORD` what `S2U` then `SETU` leaves there, and is out of range exactly when
`S2U` is; a get after a successful set gives the value set; two successful sets of disjoint fields commute. -/
def Obligations.FieldCommandLaws : Prop :=
  (∀ (w l : Nat) (s : State), 1 ≤ w → w + l ≤ 64 →
    ∃ a b, exec (.getu w l) s = .next a ∧ exec (.u2s w) a = .next b ∧ exec (.gets w l) s = .next b) ∧
  (∀ (w l : Nat) (s : State), 1 ≤ w → w + l ≤ 64 → -(2 ^ (w - 1)) ≤ s.engine.val.toInt →
    s.engine.val.toInt ≤ 2 ^ (w - 1) - 1 →
    ∃ a b c, exec (.s2u w) s = .next a ∧ exec (.setu w l) a = .next b ∧ exec (.sets w l) s = .next c ∧
      b.engine.word = c.engine.word) ∧
  (∀ (w l : Nat) (s a b : State), 1 ≤ w → w + l ≤ 64 → exec (.sets w l) s = .next a →
    exec (.s2u w) s = .next b → (a.engine.status.err = 1 ↔ b.engine.status.err = 1)) ∧
  (∀ (w l : Nat) (s a b : State), exec (.setu w l) s = .next a → a.engine.status.err = 0 →
    exec (.getu w l) a = .next b → b.engine.val = s.engine.val) ∧
  (∀ (w l : Nat) (s a b : State), exec (.sets w l) s = .next a → a.engine.status.err = 0 →
    exec (.gets w l) a = .next b → b.engine.val = s.engine.val) ∧
  (∀ (w l w' l' : Nat) (i j : Instr) (v v' : Word64) (s a b c d : State), l + w ≤ l' ∨ l' + w' ≤ l →
    i ∈ [Instr.setu w l, .sets w l] → j ∈ [Instr.setu w' l', .sets w' l'] →
    exec i (s.withVal v) = .next a → exec j (a.withVal v') = .next b → a.engine.status.err = 0 →
    b.engine.status.err = 0 → exec j (s.withVal v') = .next c → exec i (c.withVal v) = .next d →
    c.engine.status.err = 0 ∧ d.engine.status.err = 0 ∧ d.engine.word = b.engine.word)

/-! ### Block Transform -/

/-- `BTFWD` (41_block_transform.md R140) under `NUM_Q`, the model's choice (assumption log 1). -/
def Obligations.ForwardTransformResult : Prop :=
  ∀ (s : State) (x : Samples Config.F), s.engine.samples = x →
    exec .btfwd s = .next (s.succeedsAs { s.engine with coeffs :=
      { a := (x.y1 + x.y2 + x.y3 + x.y4) / 4
        b := (x.y4 + x.y3 - x.y2 - x.y1) / 4
        c := (x.y4 - x.y3 + x.y2 - x.y1) / 4
        d := (x.y4 - x.y3 - x.y2 + x.y1) / 4
        apb := (x.pb1 + x.pb2 + x.pb3 + x.pb4) / 4
        apr := (x.pr1 + x.pr2 + x.pr3 + x.pr4) / 4 } })

/-- `BTINV` (41_block_transform.md R141) under `NUM_Q`, the model's choice (assumption log 1). -/
def Obligations.InverseTransformResult : Prop :=
  ∀ (s : State) (t : Coeffs Config.F), s.engine.coeffs = t →
    exec .btinv s = .next (s.succeedsAs { s.engine with samples :=
      { y1 := t.a - t.b - t.c + t.d, y2 := t.a - t.b + t.c - t.d
        y3 := t.a + t.b - t.c - t.d, y4 := t.a + t.b + t.c + t.d
        pb1 := t.apb, pb2 := t.apb, pb3 := t.apb, pb4 := t.apb
        pr1 := t.apr, pr2 := t.apr, pr3 := t.apr, pr4 := t.apr } })

/-- The round trips under `NUM_Q`, the model's choice (assumption log 1), which the spec derives from R140 and R141
(41_block_transform.md R142): `BTFWD` then `BTINV` restores the four lumas and leaves the chroma averages; `BTINV` then
`BTFWD` restores the six coefficients. -/
def Obligations.TransformRoundTrips : Prop :=
  (∀ (s : State) (x : Samples Config.F), s.engine.samples = x →
    ∃ a b, exec .btfwd s = .next a ∧ exec .btinv a = .next b ∧
      b.engine.samples.y1 = x.y1 ∧ b.engine.samples.y2 = x.y2 ∧ b.engine.samples.y3 = x.y3 ∧
      b.engine.samples.y4 = x.y4 ∧
      (∀ v ∈ [b.engine.samples.pb1, b.engine.samples.pb2, b.engine.samples.pb3, b.engine.samples.pb4],
        v = (x.pb1 + x.pb2 + x.pb3 + x.pb4) / 4) ∧
      (∀ v ∈ [b.engine.samples.pr1, b.engine.samples.pr2, b.engine.samples.pr3, b.engine.samples.pr4],
        v = (x.pr1 + x.pr2 + x.pr3 + x.pr4) / 4)) ∧
  (∀ s : State, ∃ a b, exec .btinv s = .next a ∧ exec .btfwd a = .next b ∧ b.engine.coeffs = s.engine.coeffs)

/-! ### Quantizer -/

/-- Rounding and clamping under `NUM_Q` (00_scope.md R13), with the rule's examples. -/
def Obligations.RoundingAndClamping : Prop :=
  (∀ x : Rat, 0 ≤ x → rhazQ x = ⌊x + 1 / 2⌋) ∧ (∀ x : Rat, x < 0 → rhazQ x = -⌊-x + 1 / 2⌋) ∧
  rhazQ (9 / 2) = 5 ∧ rhazQ (-9 / 2) = -5 ∧ rhazQ (1 / 2) = 1 ∧ rhazQ (-1 / 2) = -1 ∧ rhazQ (49 / 100) = 0 ∧
  (∀ x lo hi : Rat, lo ≤ hi → numClamp numQ x lo hi = if x < lo then lo else if hi < x then hi else x)

/-- `QUANT` (42_quantizer.md R165) under `NUM_Q` and a free table, the model's choices (assumption logs 1, 2): every
quantized register's new value inside the domain, and `DomainViolation` outside it. -/
def Obligations.QuantResult : Prop :=
  ∀ (s : State) (t : Coeffs Config.F), s.engine.coeffs = t →
    (CoeffsInDomain t → exec .quant s = .next (s.succeedsAs { s.engine with quants :=
      { qa := BitVec.ofInt 64 (rhazQ (t.a * 511))
        qb := BitVec.ofInt 64 (rhazQ (max (-(3 / 10)) (min t.b (3 / 10)) * 15))
        qc := BitVec.ofInt 64 (rhazQ (max (-(3 / 10)) (min t.c (3 / 10)) * 15))
        qd := BitVec.ofInt 64 (rhazQ (max (-(3 / 10)) (min t.d (3 / 10)) * 15))
        qpb := BitVec.ofNat 64 (configChroma.indexOf t.apb).val
        qpr := BitVec.ofNat 64 (configChroma.indexOf t.apr).val } })) ∧
    (¬CoeffsInDomain t → exec .quant s = .next (s.failsWith 6))

/-- After a successful `QUANT` every register is in its reachable range, and a `PACK` that follows cannot fail
(42_quantizer.md R165, R166). `NUM_Q` is the model's choice (assumption log 1). -/
def Obligations.QuantThenPackSucceeds : Prop :=
  ∀ s : State, CoeffsInDomain s.engine.coeffs →
    ∃ a b, exec .quant s = .next a ∧ exec .pack a = .next b ∧ b.engine.status.err = 0 ∧
      asU a.engine.quants.qa ≤ 511 ∧ (-5 ≤ asS a.engine.quants.qb ∧ asS a.engine.quants.qb ≤ 5) ∧
      (-5 ≤ asS a.engine.quants.qc ∧ asS a.engine.quants.qc ≤ 5) ∧
      (-5 ≤ asS a.engine.quants.qd ∧ asS a.engine.quants.qd ≤ 5) ∧
      asU a.engine.quants.qpb ≤ 15 ∧ asU a.engine.quants.qpr ≤ 15

/-- The values the forward functions reach with the source's literals (42_quantizer.md R166), under `NUM_Q`
(assumption log 1). -/
def Obligations.QuantReachableValues : Prop :=
  (∀ n : Int, (∃ a : Rat, 0 ≤ a ∧ a ≤ 1 ∧ quantA numQ a = n) ↔ 0 ≤ n ∧ n ≤ 511) ∧
  (∀ n : Int, (∃ x : Rat, quantDiff numQ x = n) ↔ -5 ≤ n ∧ n ≤ 5)

/-- The lossy bound per field under `NUM_Q`, and what holds of chroma (42_quantizer.md R168); the table with the
nearest-level law is the model's construction (assumption log 2). -/
def Obligations.LossyBound : Prop :=
  (∀ a : Rat, 0 ≤ a → a ≤ 1 → |dequantA numQ (quantA numQ a) - a| ≤ 1 / 1022) ∧
  (∀ x : Rat, -(3 / 10) ≤ x → x ≤ 3 / 10 → |dequantDiff numQ (quantDiff numQ x) - x| ≤ 1 / 30) ∧
  (∀ x : Rat, 3 / 10 < x → dequantDiff numQ (quantDiff numQ x) = 1 / 3) ∧
  (∀ x : Rat, x < -(3 / 10) → dequantDiff numQ (quantDiff numQ x) = -(1 / 3)) ∧
  (∀ x : Rat, configChroma.legal x = true → ∀ j : Fin 16,
    |configChroma.chromaOf (configChroma.indexOf x) - x| ≤ |configChroma.chromaOf j - x|)

/-- Clamping before scaling and clamping the scaled value agree under `NUM_Q`, and every value from 3/10 up gives
exactly 5 (42_quantizer.md R167). -/
def Obligations.ClampOrdersAgree : Prop :=
  (∀ x : Rat, numClamp numQ x (-(3 / 10)) (3 / 10) * 15 = numClamp numQ (15 * x) (-(9 / 2)) (9 / 2)) ∧
  (∀ x : Rat, 3 / 10 ≤ x → quantDiff numQ x = 5) ∧ (∀ x : Rat, x ≤ -(3 / 10) → quantDiff numQ x = -5)

/-- `DEQUANT` (42_quantizer.md R169) under `NUM_Q` and a free table, the model's choices (assumption logs 1, 2): every
coefficient's new value, and `OutOfRange` outside the fields' ranges. -/
def Obligations.DequantResult : Prop :=
  ∀ (s : State) (q : Quants), s.engine.quants = q →
    (QuantsInRange q → exec .dequant s = .next (s.succeedsAs { s.engine with coeffs :=
      { a := (asU q.qa : Rat) / 511, b := (asS q.qb : Rat) / 15, c := (asS q.qc : Rat) / 15
        d := (asS q.qd : Rat) / 15
        apb := configChroma.chromaOf (Fin.ofNat 16 (asU q.qpb))
        apr := configChroma.chromaOf (Fin.ofNat 16 (asU q.qpr)) } })) ∧
    (¬QuantsInRange q → exec .dequant s = .next (s.failsWith 1))

/-! ### Codeword Serializer -/

/-- `PACK` (43_codeword_packer.md R182): the codeword by the closed form of R181, and `OutOfRange`. -/
def Obligations.PackResult : Prop :=
  ∀ (s : State) (q : Quants), s.engine.quants = q →
    (QuantsInRange q → ∃ cw : Codeword, exec .pack s = .next (s.succeedsAs { s.engine with cw := cw }) ∧
      (cw.toNat : Int) = asU q.qa * 2 ^ 23 + asS q.qb % 32 * 2 ^ 18 + asS q.qc % 32 * 2 ^ 13 +
        asS q.qd % 32 * 2 ^ 8 + asU q.qpb * 2 ^ 4 + asU q.qpr) ∧
    (¬QuantsInRange q → exec .pack s = .next (s.failsWith 1))

/-- `UNPACK` (43_codeword_packer.md R183): each field of the layout of R180, zero- or sign-extended. -/
def Obligations.UnpackResult : Prop :=
  ∀ (s : State) (cw : Codeword), s.engine.cw = cw →
    exec .unpack s = .next (s.succeedsAs { s.engine with quants :=
      { qa := (cw.extractLsb' 23 9).setWidth 64
        qb := (cw.extractLsb' 18 5).signExtend 64
        qc := (cw.extractLsb' 13 5).signExtend 64
        qd := (cw.extractLsb' 8 5).signExtend 64
        qpb := (cw.extractLsb' 4 4).setWidth 64
        qpr := (cw.extractLsb' 0 4).setWidth 64 } })

/-- Packing is a bijection between the field ranges and all codewords, as functions and as commands, which the spec
derives from R180 to R183 (43_codeword_packer.md R184). -/
def Obligations.PackUnpackBijection : Prop :=
  (∀ t : QuantTuple, TupleInRange t → packWord t < 2 ^ 32 ∧ unpackWord (packWord t) = t) ∧
  (∀ w : Nat, w < 2 ^ 32 → TupleInRange (unpackWord w) ∧ packWord (unpackWord w) = w) ∧
  (∀ s : State, QuantsInRange s.engine.quants →
    ∃ a b, exec .pack s = .next a ∧ exec .unpack a = .next b ∧ b.engine.quants = s.engine.quants) ∧
  (∀ s : State, ∃ a b, exec .unpack s = .next a ∧ exec .pack a = .next b ∧ b.engine.cw = s.engine.cw ∧
    b.engine.status.err = 0)

/-- The byte order of a codeword (20_memory.md R65). -/
def Obligations.ByteOrder : Prop :=
  (∀ cw : Codeword, be4 cw = [BitVec.ofNat 8 (cw.toNat / 2 ^ 24), BitVec.ofNat 8 (cw.toNat / 2 ^ 16),
    BitVec.ofNat 8 (cw.toNat / 2 ^ 8), BitVec.ofNat 8 cw.toNat]) ∧
  (∀ b0 b1 b2 b3 : Byte,
    (unbe4 [b0, b1, b2, b3]).toNat = b0.toNat * 2 ^ 24 + b1.toNat * 2 ^ 16 + b2.toNat * 2 ^ 8 + b3.toNat) ∧
  (∀ cw : Codeword, unbe4 (be4 cw) = cw) ∧ (∀ l : List Byte, l.length = 4 → be4 (unbe4 l) = l) ∧
  (∀ (m : Memory Byte) (k : Nat) (cw : Codeword),
    Memory.read (storeBytes m (4 * k) (be4 cw)) (4 * k) = some (cw.extractLsb' 24 8) ∧
    Memory.read (storeBytes m (4 * k) (be4 cw)) (4 * k + 1) = some (cw.extractLsb' 16 8) ∧
    Memory.read (storeBytes m (4 * k) (be4 cw)) (4 * k + 2) = some (cw.extractLsb' 8 8) ∧
    Memory.read (storeBytes m (4 * k) (be4 cw)) (4 * k + 3) = some (cw.extractLsb' 0 8))

/-! ### Block memory and pipeline -/

/-- The six commands that address a block fail with code 2 on an odd dimension and with code 5 on a block index
at or beyond the count, and change nothing else (44_memory_and_pipeline.md R200, 60_exceptions.md R235, R237). -/
def Obligations.BlockGuardErrors : Prop :=
  ∀ (i : Instr) (s : State), i ∈ [Instr.ldpx, .stpx, .ldcw, .stcw, .cblk, .dblk] →
    (asU s.engine.imgW % 2 = 1 ∨ asU s.engine.imgH % 2 = 1 → exec i s = .next (s.failsWith 2)) ∧
    (asU s.engine.imgW % 2 = 0 → asU s.engine.imgH % 2 = 0 →
      (asU s.engine.imgW / 2) * (asU s.engine.imgH / 2) ≤ asU s.engine.blk → exec i s = .next (s.failsWith 5))

/-- The pixel indices of blocks: the formulas, all inside the image, disjoint for different blocks, and together
the whole image, which the spec derives from R145 and R146 (41_block_transform.md R147). -/
def Obligations.BlocksPartitionTheImage : Prop :=
  ∀ w h : Nat, w % 2 = 0 → h % 2 = 0 →
    (∀ k, k < (w / 2) * (h / 2) →
      (blockPixels w k).p1 = 2 * (k / (w / 2)) * w + 2 * (k % (w / 2)) ∧
      (blockPixels w k).p2 = (blockPixels w k).p1 + 1 ∧ (blockPixels w k).p3 = (blockPixels w k).p1 + w ∧
      (blockPixels w k).p4 = (blockPixels w k).p3 + 1 ∧ (blockPixels w k).p4 < w * h) ∧
    (∀ p, p < w * h → ∃! k, k < (w / 2) * (h / 2) ∧
      p ∈ [(blockPixels w k).p1, (blockPixels w k).p2, (blockPixels w k).p3, (blockPixels w k).p4])

/-- `LDPX` (44_memory_and_pipeline.md R201): each of the twelve sample registers takes its part of its element of
`PIX`, and everything else is unchanged. -/
def Obligations.LoadPixelsResult : Prop :=
  ∀ (s : State) (b : BlockPixels), b = blockPixels (asU s.engine.imgW) (asU s.engine.blk) →
    (BlockReady s.engine → exec .ldpx s = .next (s.succeedsAs { s.engine with samples :=
      { y1 := (s.engine.pixel configParams b.p1).y, pb1 := (s.engine.pixel configParams b.p1).pb
        pr1 := (s.engine.pixel configParams b.p1).pr
        y2 := (s.engine.pixel configParams b.p2).y, pb2 := (s.engine.pixel configParams b.p2).pb
        pr2 := (s.engine.pixel configParams b.p2).pr
        y3 := (s.engine.pixel configParams b.p3).y, pb3 := (s.engine.pixel configParams b.p3).pb
        pr3 := (s.engine.pixel configParams b.p3).pr
        y4 := (s.engine.pixel configParams b.p4).y, pb4 := (s.engine.pixel configParams b.p4).pb
        pr4 := (s.engine.pixel configParams b.p4).pr } })) ∧
    (¬BlockReady s.engine → exec .ldpx s = .next (s.failsWith (guardCode s.engine)))

/-- `STPX` (44_memory_and_pipeline.md R202): four elements of `PIX` take the samples, every other element and
everything else is unchanged. -/
def Obligations.StorePixelsResult : Prop :=
  ∀ (s : State) (x : Samples Config.F) (b : BlockPixels), s.engine.samples = x →
    b = blockPixels (asU s.engine.imgW) (asU s.engine.blk) →
    (BlockReady s.engine → ∃ m, exec .stpx s = .next (s.succeedsAs { s.engine with pix := m }) ∧
      ∀ p, Engine.pixel configParams { s.engine with pix := m } p =
        if p = b.p1 then ⟨x.y1, x.pb1, x.pr1⟩ else if p = b.p2 then ⟨x.y2, x.pb2, x.pr2⟩
        else if p = b.p3 then ⟨x.y3, x.pb3, x.pr3⟩ else if p = b.p4 then ⟨x.y4, x.pb4, x.pr4⟩
        else s.engine.pixel configParams p) ∧
    (¬BlockReady s.engine → exec .stpx s = .next (s.failsWith (guardCode s.engine)))

/-- `LDCW` (44_memory_and_pipeline.md R203): the byte at the lowest address is the most significant. -/
def Obligations.LoadCodewordResult : Prop :=
  ∀ (s : State) (k : Nat), k = asU s.engine.blk →
    (BlockReady s.engine → ∃ cw : Codeword, exec .ldcw s = .next (s.succeedsAs { s.engine with cw := cw }) ∧
      cw.toNat = (s.engine.byte configParams (4 * k)).toNat * 2 ^ 24 +
        (s.engine.byte configParams (4 * k + 1)).toNat * 2 ^ 16 +
        (s.engine.byte configParams (4 * k + 2)).toNat * 2 ^ 8 + (s.engine.byte configParams (4 * k + 3)).toNat) ∧
    (¬BlockReady s.engine → exec .ldcw s = .next (s.failsWith (guardCode s.engine)))

/-- `STCW` (44_memory_and_pipeline.md R204): four bytes of `CWM` take the codeword, every other byte and
everything else is unchanged. -/
def Obligations.StoreCodewordResult : Prop :=
  ∀ (s : State) (k : Nat), k = asU s.engine.blk →
    (BlockReady s.engine → ∃ m, exec .stcw s = .next (s.succeedsAs { s.engine with cwm := m }) ∧
      ∀ addr, Engine.byte configParams { s.engine with cwm := m } addr =
        if addr = 4 * k then s.engine.cw.extractLsb' 24 8
        else if addr = 4 * k + 1 then s.engine.cw.extractLsb' 16 8
        else if addr = 4 * k + 2 then s.engine.cw.extractLsb' 8 8
        else if addr = 4 * k + 3 then s.engine.cw.extractLsb' 0 8
        else s.engine.byte configParams addr) ∧
    (¬BlockReady s.engine → exec .stcw s = .next (s.failsWith (guardCode s.engine)))

/-- `CBLK` under `NUM_Q` (44_memory_and_pipeline.md R205; `NUM_Q` is the model's choice, assumption log 1): what it
leaves in every register and byte when the domain check passes, and that a failing check leaves nothing but
`STATUS`. -/
def Obligations.CompressBlockResult : Prop :=
  ∀ (s : State) (k : Nat) (x : Samples Config.F) (c : Coeffs Config.F) (q : QuantTuple) (cw : Codeword),
    k = asU s.engine.blk → x = blockSamples s.engine → c = blockForward numQ x → q = quantize configParams c →
    cw = BitVec.ofNat 32 (packWord q) →
    (BlockReady s.engine → CoeffsInDomain c → ∃ m,
      exec .cblk s = .next (s.succeedsAs
        { s.engine with samples := x, coeffs := c, quants := quantsOf q, cw := cw, cwm := m }) ∧
      ∀ addr, Engine.byte configParams { s.engine with cwm := m } addr =
        if addr = 4 * k then cw.extractLsb' 24 8 else if addr = 4 * k + 1 then cw.extractLsb' 16 8
        else if addr = 4 * k + 2 then cw.extractLsb' 8 8 else if addr = 4 * k + 3 then cw.extractLsb' 0 8
        else s.engine.byte configParams addr) ∧
    (BlockReady s.engine → ¬CoeffsInDomain c → exec .cblk s = .next (s.failsWith 6)) ∧
    (¬BlockReady s.engine → exec .cblk s = .next (s.failsWith (guardCode s.engine)))

/-- `DBLK` under `NUM_Q` (44_memory_and_pipeline.md R206; `NUM_Q` is the model's choice, assumption log 1): what it
leaves in every register and element; it has no failure but the guard's. -/
def Obligations.DecompressBlockResult : Prop :=
  ∀ (s : State) (b : BlockPixels) (k : Nat) (cw : Codeword) (q : QuantTuple) (c : Coeffs Config.F)
    (x : Samples Config.F), b = blockPixels (asU s.engine.imgW) (asU s.engine.blk) → k = asU s.engine.blk →
    cw = unbe4 [s.engine.byte configParams (4 * k), s.engine.byte configParams (4 * k + 1),
      s.engine.byte configParams (4 * k + 2), s.engine.byte configParams (4 * k + 3)] →
    q = unpackWord cw.toNat → c = dequantize configParams q → x = blockInverse numQ c →
    (BlockReady s.engine → ∃ m, exec .dblk s = .next (s.succeedsAs
        { s.engine with cw := cw, quants := quantsOf q, coeffs := c, samples := x, pix := m }) ∧
      ∀ p, Engine.pixel configParams { s.engine with pix := m } p =
        if p = b.p1 then ⟨x.y1, c.apb, c.apr⟩ else if p = b.p2 then ⟨x.y2, c.apb, c.apr⟩
        else if p = b.p3 then ⟨x.y3, c.apb, c.apr⟩ else if p = b.p4 then ⟨x.y4, c.apb, c.apr⟩
        else s.engine.pixel configParams p) ∧
    (¬BlockReady s.engine → exec .dblk s = .next (s.failsWith (guardCode s.engine)))

/-- Whenever `CBLK` succeeds, "the state after it equals the state after the five commands", and the same for
`DBLK`; a `CBLK` that fails its domain check writes nothing where the single commands have written their registers
(44_memory_and_pipeline.md R207, under `NUM_Q`: assumption log 1). -/
def Obligations.PipelineIsTheFiveCommands : Prop :=
  (∀ s t : State, exec .cblk s = .next t → t.engine.status.err = 0 →
    execAll [.ldpx, .btfwd, .quant, .pack, .stcw] s = .next t) ∧
  (∀ s t : State, exec .dblk s = .next t → t.engine.status.err = 0 →
    execAll [.ldcw, .unpack, .dequant, .btinv, .stpx] s = .next t) ∧
  (∀ s : State, exec .cblk s = .next (s.failsWith 6) →
    ∃ t, execAll [.ldpx, .btfwd, .quant] s = .next t ∧ t.engine.status.err = 6 ∧
      t.engine.samples = blockSamples s.engine ∧ t.engine.coeffs = blockForward numQ (blockSamples s.engine))

/-- Under `NUM_Q` and the free table, the model's choices (assumption logs 1, 2), a uniform block of luma 1 and legal
chroma comes back with luma 1 and each chroma at its nearest level, and its codeword is the one R205 gives. The spec
derives it from R205 and R206, "under `NUM_Q`" (44_memory_and_pipeline.md R209). -/
def Obligations.UniformBlockRoundTrip : Prop :=
  ∀ (s : State) (x z : Config.F) (b : BlockPixels), BlockReady s.engine →
    b = blockPixels (asU s.engine.imgW) (asU s.engine.blk) →
    (∀ p ∈ [b.p1, b.p2, b.p3, b.p4], s.engine.pixel configParams p = ⟨1, x, z⟩) →
    configChroma.legal x = true → configChroma.legal z = true →
    ∃ t u, exec .cblk s = .next t ∧ exec .dblk t = .next u ∧
      t.engine.cw.toNat = 0xFF800000 + 16 * (configChroma.indexOf x).val + (configChroma.indexOf z).val ∧
      ∀ p ∈ [b.p1, b.p2, b.p3, b.p4], u.engine.pixel configParams p =
        ⟨1, configChroma.chromaOf (configChroma.indexOf x), configChroma.chromaOf (configChroma.indexOf z)⟩

/-- Two different blocks may be compressed, or decompressed, in either order: `PIX` and `CWM` read the same
afterwards (20_memory.md R73), on one engine (assumption log 13). -/
def Obligations.BlocksAreIndependent : Prop :=
  ∀ (i : Instr) (s a b c d : State) (k l : Word64), i = .cblk ∨ i = .dblk →
    BlockReady (s.atBlock k).engine → BlockReady (s.atBlock l).engine → k ≠ l →
    exec i (s.atBlock k) = .next a → exec i (a.atBlock l) = .next b →
    exec i (s.atBlock l) = .next c → exec i (c.atBlock k) = .next d →
    (∀ p, b.engine.pixel configParams p = d.engine.pixel configParams p) ∧
    (∀ addr, b.engine.byte configParams addr = d.engine.byte configParams addr)

/-! ### The whole machine -/

/-- Every command ends in a next state, from every state (70_reset_and_hazards.md R268, 60_exceptions.md R242). -/
def Obligations.EveryCommandGoesOn : Prop := ∀ (i : Instr) (s : State), GoesOn (exec i s)

/-- No step faults: an access of the engine outside its memories cannot happen (20_memory.md R68). -/
def Obligations.NoStepFaults : Prop := ∀ (s : State) (f : Fault), step s ≠ .fault f

/-- A failing command changes nothing but `STATUS` (60_exceptions.md R241). -/
def Obligations.FailureChangesOnlyStatus : Prop :=
  ∀ (i : Instr) (s t : State), exec i s = .next t → t.engine.status.err ≠ 0 →
    t = s.failsWith t.engine.status.err

/-- Who writes which field of `STATUS` (10_state.md R25). -/
def Obligations.StatusFieldWriters : Prop :=
  (∀ (i : Instr) (s t : State), exec i s = .next t →
    (t.engine.status.err = 0 ∧
      (if i = .clrerr then t.engine.status.anyErr = false else t.engine.status.anyErr = s.engine.status.anyErr) ∧
      ((∀ w, i ≠ .fitsu w ∧ i ≠ .fitss w) → t.engine.status.flag = s.engine.status.flag)) ∨
    (t.engine.status.err ∈ raisedCodes i ∧ t.engine.status.anyErr = true ∧
      t.engine.status.flag = s.engine.status.flag)) ∧
  (∀ (t : HostAccess Config.F) (s s' : State), hostAccess t s = .next s' → s'.engine.status = s.engine.status)

/-- A command that succeeds writes nothing outside its row of 10_state.md R29, and one that fails nothing but
`STATUS`. -/
def Obligations.WriteSetsAreComplete : Prop :=
  ∀ (i : Instr) (s t : State) (g : Group), exec i s = .next t → g ∉ writeSet i →
    (g = .anyErr → t.engine.status.err = 0) → g.same s.engine t.engine

/-- A command reads nothing outside its row of 10_state.md R29: two states that agree on what it reads end with
the same `ERR` and, where it succeeds, agree on all it writes. -/
def Obligations.ReadSetsAreComplete : Prop :=
  ∀ (i : Instr) (s s' t t' : State), (∀ g ∈ readSet i, g.same s.engine s'.engine) →
    exec i s = .next t → exec i s' = .next t' →
    t'.engine.status.err = t.engine.status.err ∧
    (t.engine.status.err = 0 → ∀ g ∈ writeSet i, g.same t.engine t'.engine)

/-- The next command executes as it would have, had the failed one never been issued, apart from `STATUS`
(60_exceptions.md R242). -/
def Obligations.FailureLeavesNoTrace : Prop :=
  ∀ (i : Instr) (s : State) (code : BitVec 3), ∃ t t', exec i s = .next t ∧
    exec i (s.failsWith code) = .next t' ∧ t'.engine.status.err = t.engine.status.err ∧
    t' = { t with engine := { t.engine with status := t'.engine.status } }

/-- The invariant is kept by every step from every state that has it: `ERR` is never 7 and both memories stay in
canonical form (10_state.md R24; the canonical form is the model's, assumption log 5). -/
def Obligations.StepKeepsInvariant : Prop := ∀ s t : State, s.Inv → step s = .next t → t.Inv

/-- The state after reset has the invariant. -/
def Obligations.ResetHasInvariant : Prop := State.reset.Inv

/-- What each of the four read transactions returns, register by register with the numbers of 10_state.md R21 and
R27, and that none changes anything else: "No address of any space has a side effect on read" (20_memory.md R67).
That the returned value stands in front of `replies` is the model's choice (assumption log 9). -/
def Obligations.ReadsReturnAndChangeNothing : Prop :=
  ∀ (s : State) (e : Engine Config.F), e = s.engine →
    (∀ r ∈ [(0x00, e.word), (0x01, e.val), (0x02, statusValue e.status), (0x03, e.imgW), (0x04, e.imgH), (0x05, e.blk),
        (0x08, e.quants.qa), (0x09, e.quants.qb), (0x0A, e.quants.qc), (0x0B, e.quants.qd), (0x0C, e.quants.qpb),
        (0x0D, e.quants.qpr), (0x0E, e.cw.setWidth 64)],
      intRegRead e r.1 = some r.2 ∧
      hostAccess (.regRead r.1) s = .next { s with replies := .register r.2 :: s.replies }) ∧
    (∀ r ∈ [(0x20, e.samples.y1), (0x21, e.samples.y2), (0x22, e.samples.y3), (0x23, e.samples.y4),
        (0x24, e.samples.pb1), (0x25, e.samples.pb2), (0x26, e.samples.pb3), (0x27, e.samples.pb4),
        (0x28, e.samples.pr1), (0x29, e.samples.pr2), (0x2A, e.samples.pr3), (0x2B, e.samples.pr4),
        (0x30, e.coeffs.a), (0x31, e.coeffs.b), (0x32, e.coeffs.c), (0x33, e.coeffs.d), (0x34, e.coeffs.apb),
        (0x35, e.coeffs.apr)],
      numRegRead e r.1 = some r.2 ∧
      hostAccess (.fregRead r.1) s = .next { s with replies := .number r.2 :: s.replies }) ∧
    (∀ p, p < asU e.imgW * asU e.imgH →
      hostAccess (.pixRead p) s = .next { s with replies := .pixel (e.pixel configParams p) :: s.replies }) ∧
    (∀ addr, addr < 4 * (asU e.imgW / 2) * (asU e.imgH / 2) →
      hostAccess (.byteRead addr) s = .next { s with replies := .byte (e.byte configParams addr) :: s.replies })
end

