-- ==== Sys2Proof/Laws/Chroma.lean ====
section
/-! SUPPORT. Laws of the chroma table's construction (00_scope.md R8, assumption log 2). -/

namespace Sys2Proof.Machine

variable {F : Type}

/-- `isNearestLevel` compares with all sixteen levels. -/
theorem isNearestLevel_iff (N : NumSystem F) (level : Fin 16 → F) (x : F) (i : Fin 16) :
    isNearestLevel N level x i = true ↔ ∀ j : Fin 16, N.le (numDist N (level i) x) (numDist N (level j) x) = true := by
  have h : ∀ j : Fin 16, j ∈ chromaIndices := by decide
  simp only [isNearestLevel, List.all_eq_true]
  exact ⟨fun k j => k j (h j), fun k j _ => k j⟩

/-- All that the lookup can answer: the choice where it is a nearest level, else the first nearest level, else
(where no level is nearest) the choice. -/
theorem nearestLookup_cases (N : NumSystem F) (level : Fin 16 → F) (choice : F → Fin 16) (x : F) :
    nearestLookup N level choice x = choice x ∨
      (isNearestLevel N level x (choice x) = false ∧
        chromaIndices.find? (isNearestLevel N level x) = some (nearestLookup N level choice x)) := by
  unfold nearestLookup
  split
  · exact .inl rfl
  · next h =>
    cases hf : chromaIndices.find? (isNearestLevel N level x) with
    | none => exact .inl rfl
    | some i => exact .inr ⟨by simpa using h, rfl⟩

/-- Every table that obeys the nearest-level law is of the machine's form: a lookup that answers a nearest level at
`x` is, at `x`, the machine's lookup with that lookup as the choice. -/
theorem nearestLookup_eq_of_nearest (N : NumSystem F) (level : Fin 16 → F) (index : F → Fin 16) (x : F)
    (h : isNearestLevel N level x (index x) = true) : nearestLookup N level index x = index x := by
  simp [nearestLookup, h]

end Sys2Proof.Machine
end

