-- ==== Sys2Proof/Laws/Memory.lean ====
section
/-! SUPPORT. The laws of sparse memory: a read after a write, the canonical form, and that memories in
canonical form that read alike are the same data. -/

namespace Sys2Proof.Machine

variable {α : Type}

@[simp] theorem Memory.read_nil (a : Nat) : Memory.read ([] : Memory α) a = none := rfl

/-- "a read after a write to the same bytes returns the bytes written" (20_memory.md R63). -/
@[simp] theorem Memory.read_write_same (m : Memory α) (a : Nat) (v : α) :
    Memory.read (Memory.write m a v) a = some v := by
  induction m with
  | nil => simp [Memory.write, Memory.read]
  | cons entry rest ih =>
    obtain ⟨b, w⟩ := entry
    unfold Memory.write
    split
    · simp [Memory.read]
    · split
      · simp [Memory.read]
      · simp [Memory.read, *]

/-- "writes to one range change no byte outside it" (20_memory.md R63). -/
theorem Memory.read_write_other (m : Memory α) {a c : Nat} (v : α) (h : c ≠ a) :
    Memory.read (Memory.write m a v) c = Memory.read m c := by
  induction m with
  | nil => simp [Memory.write, Memory.read, h]
  | cons entry rest ih =>
    obtain ⟨b, w⟩ := entry
    unfold Memory.write
    split
    · simp [Memory.read, h]
    · split
      · rename_i hab
        subst hab
        simp [Memory.read, h]
      · simp [Memory.read, ih]

theorem Memory.read_write (m : Memory α) (a c : Nat) (v : α) :
    Memory.read (Memory.write m a v) c = if c = a then some v else Memory.read m c := by
  split
  · next h => subst h; simp
  · next h => exact Memory.read_write_other m v h

@[simp] theorem Memory.wf_nil : Memory.wf ([] : Memory α) = true := rfl

theorem Memory.wf_cons (b : Nat) (w : α) (rest : Memory α) :
    Memory.wf ((b, w) :: rest) = true ↔ (∀ entry ∈ rest, b < entry.1) ∧ Memory.wf rest = true := by
  simp [Memory.wf]

/-- Every entry after a write is the new one or an old one. -/
theorem Memory.mem_write {m : Memory α} {a : Nat} {v : α} {entry : Nat × α}
    (h : entry ∈ Memory.write m a v) : entry = (a, v) ∨ entry ∈ m := by
  induction m with
  | nil => simpa [Memory.write] using h
  | cons first rest ih =>
    obtain ⟨b, w⟩ := first
    unfold Memory.write at h
    split at h
    · simpa using h
    · split at h
      · rcases List.mem_cons.mp h with h | h
        · exact .inl h
        · exact .inr (List.mem_cons_of_mem _ h)
      · rcases List.mem_cons.mp h with h | h
        · exact .inr (by simp [h])
        · rcases ih h with h | h
          · exact .inl h
          · exact .inr (List.mem_cons_of_mem _ h)

/-- A write keeps the canonical form. -/
theorem Memory.wf_write {m : Memory α} (h : Memory.wf m = true) (a : Nat) (v : α) :
    Memory.wf (Memory.write m a v) = true := by
  induction m with
  | nil => simp [Memory.write, Memory.wf]
  | cons first rest ih =>
    obtain ⟨b, w⟩ := first
    obtain ⟨hb, hrest⟩ := (Memory.wf_cons b w rest).mp h
    unfold Memory.write
    split
    · next hab =>
      refine (Memory.wf_cons ..).mpr ⟨fun entry he => ?_, h⟩
      rcases List.mem_cons.mp he with rfl | he
      · exact hab
      · exact lt_trans hab (hb entry he)
    · split
      · next _ hab =>
        subst hab
        exact (Memory.wf_cons ..).mpr ⟨hb, hrest⟩
      · refine (Memory.wf_cons ..).mpr ⟨fun entry he => ?_, ih hrest⟩
        rcases Memory.mem_write he with rfl | he
        · simp only; omega
        · exact hb entry he

/-- Storing a list of bytes keeps the canonical form. -/
theorem wf_storeBytes {m : Memory Byte} (h : Memory.wf m = true) (addr : Nat) (bytes : List Byte) :
    Memory.wf (storeBytes m addr bytes) = true := by
  induction bytes generalizing m addr with
  | nil => exact h
  | cons b rest ih => exact ih (Memory.wf_write h addr b) (addr + 1)

/-- What a byte reads as after a list of bytes is stored: inside the range the byte of the list, outside it
what it read as before (20_memory.md R63). -/
theorem read_storeBytes (m : Memory Byte) (addr : Nat) (bytes : List Byte) (c : Nat) :
    Memory.read (storeBytes m addr bytes) c =
      if addr ≤ c ∧ c < addr + bytes.length then bytes[c - addr]? else Memory.read m c := by
  induction bytes generalizing m addr with
  | nil =>
    simp [storeBytes]
  | cons b rest ih =>
    rw [storeBytes, ih, Memory.read_write]
    simp only [List.length_cons]
    by_cases h1 : addr + 1 ≤ c ∧ c < addr + 1 + rest.length
    · have h2 : addr ≤ c ∧ c < addr + (rest.length + 1) := by omega
      have h3 : c - addr = c - (addr + 1) + 1 := by omega
      rw [if_pos h1, if_pos h2, h3, List.getElem?_cons_succ]
    · rw [if_neg h1]
      by_cases h4 : c = addr
      · have h2 : addr ≤ c ∧ c < addr + (rest.length + 1) := by omega
        rw [if_pos h4, if_pos h2, h4, Nat.sub_self]
        rfl
      · have h2 : ¬(addr ≤ c ∧ c < addr + (rest.length + 1)) := by omega
        rw [if_neg h4, if_neg h2]

/-- An address below every entry is not written. -/
theorem Memory.read_eq_none_of_lt {m : Memory α} {a : Nat} (h : ∀ entry ∈ m, a < entry.1) :
    Memory.read m a = none := by
  induction m with
  | nil => rfl
  | cons first rest ih =>
    obtain ⟨b, w⟩ := first
    have hb : a < b := h (b, w) (by simp)
    rw [Memory.read, if_neg (by omega)]
    exact ih fun entry he => h entry (List.mem_cons_of_mem _ he)

/-- Equal memories are equal data: two memories in canonical form that read alike everywhere are the same. -/
theorem Memory.eq_of_read_eq {m n : Memory α} (hm : Memory.wf m = true) (hn : Memory.wf n = true)
    (h : ∀ a, Memory.read m a = Memory.read n a) : m = n := by
  induction m generalizing n with
  | nil =>
    cases n with
    | nil => rfl
    | cons first rest =>
      have := h first.1
      simp [Memory.read] at this
  | cons first rest ih =>
    obtain ⟨b, w⟩ := first
    obtain ⟨hb, hrest⟩ := (Memory.wf_cons ..).mp hm
    cases n with
    | nil =>
      have := h b
      simp [Memory.read] at this
    | cons first' rest' =>
      obtain ⟨b', w'⟩ := first'
      obtain ⟨hb', hrest'⟩ := (Memory.wf_cons ..).mp hn
      have hbb : b = b' := by
        rcases Nat.lt_trichotomy b b' with hlt | heq | hgt
        · have h1 := h b
          rw [Memory.read, if_pos rfl, Memory.read, if_neg (by omega),
            Memory.read_eq_none_of_lt fun entry he => lt_trans hlt (hb' entry he)] at h1
          cases h1
        · exact heq
        · have h1 := h b'
          rw [Memory.read, if_neg (by omega), Memory.read_eq_none_of_lt fun entry he => lt_trans hgt (hb entry he),
            Memory.read, if_pos rfl] at h1
          cases h1
      subst hbb
      have hww : w = w' := by simpa [Memory.read] using h b
      subst hww
      congr 1
      refine ih hrest hrest' fun a => ?_
      by_cases hab : a = b
      · subst hab
        rw [Memory.read_eq_none_of_lt hb, Memory.read_eq_none_of_lt hb']
      · simpa [Memory.read, hab] using h a

end Sys2Proof.Machine
end

