-- ==== Sys2Proof/Laws/Numbers.lean ====
section
/-! SUPPORT. Small laws of the readings of bit patterns, of the field functions and of `NUM_Q`. -/

namespace Sys2Proof.Machine

/-! ### Readings (00_scope.md R10) -/

theorem asU_lt (r : Word64) : asU r < 2 ^ 64 := r.isLt

/-- The rule's two's complement reading is Lean's. -/
theorem asS_eq_toInt (r : Word64) : asS r = r.toInt := by
  have := r.isLt
  unfold asS asU
  rw [BitVec.toInt_eq_toNat_cond]
  split <;> split <;> push_cast <;> omega

theorem asS_range (r : Word64) : -(2 ^ 63) ≤ asS r ∧ asS r ≤ 2 ^ 63 - 1 := by
  have := asU_lt r
  unfold asS
  split <;> omega

@[simp] theorem asU_zero : asU 0 = 0 := rfl

theorem asU_pat64 (z : Int) : (asU (pat64 z) : Int) = z % 2 ^ 64 := by
  simp [asU, pat64, BitVec.toNat_ofInt, Int.toNat_of_nonneg (Int.emod_nonneg z (by decide : (18446744073709551616 : Int) ≠ 0))]

/-- An unsigned value in range survives storing and reading. -/
theorem asU_pat64_of_range {z : Int} (h0 : 0 ≤ z) (h1 : z < 2 ^ 64) : (asU (pat64 z) : Int) = z := by
  rw [asU_pat64, Int.emod_eq_of_lt h0 h1]

/-- A signed value in range survives storing and reading. -/
theorem asS_pat64_of_range {z : Int} (h0 : -(2 ^ 63) ≤ z) (h1 : z < 2 ^ 63) : asS (pat64 z) = z := by
  have h := asU_pat64 z
  unfold asS
  split <;> omega

/-- Storing the unsigned reading of a pattern gives the pattern. -/
@[simp] theorem pat64_asU (r : Word64) : pat64 (asU r) = r := by
  simp [pat64, asU]

/-- Storing the signed reading of a pattern gives the pattern. -/
@[simp] theorem pat64_asS (r : Word64) : pat64 (asS r) = r := by
  simp [pat64, asS_eq_toInt]

/-! ### Fields (40_bitfield_codec.md R110 to R112) -/

theorem fieldGet_lt (word w l : Nat) : fieldGet word w l < 2 ^ w := Nat.mod_lt _ (Nat.two_pow_pos w)

/-- "`width = 0` yields `0`" (40_bitfield_codec.md R110). -/
@[simp] theorem fieldGet_width_zero (word l : Nat) : fieldGet word 0 l = 0 := by simp [fieldGet, Nat.mod_one]

/-- The subtraction of `insert` is exact. -/
theorem fieldGet_mul_le (word w l : Nat) : fieldGet word w l * 2 ^ l ≤ word :=
  le_trans (Nat.mul_le_mul_right _ (Nat.mod_le _ _)) (Nat.div_mul_le_self word (2 ^ l))

theorem fitsU_iff (n : Int) (w : Nat) : fitsU n w = true ↔ 0 ≤ n ∧ n ≤ 2 ^ w - 1 := by simp [fitsU]

theorem fitsS_iff (n : Int) (w : Nat) : fitsS n w = true ↔ -(2 ^ (w - 1)) ≤ n ∧ n ≤ 2 ^ (w - 1) - 1 := by
  simp [fitsS]

theorem getDescriptorLegal_iff (width lsb : Nat) :
    getDescriptorLegal width lsb = true ↔ width ≤ 64 ∧ width + lsb ≤ 64 := decide_eq_true_iff

theorem setDescriptorLegal_iff (width lsb : Nat) :
    setDescriptorLegal width lsb = true ↔ 1 ≤ width ∧ width ≤ 64 ∧ width + lsb ≤ 64 := decide_eq_true_iff

theorem widthLegal_iff (width : Nat) : widthLegal width = true ↔ 1 ≤ width ∧ width ≤ 64 := decide_eq_true_iff

/-- The pattern of a value in a field is below `2^width`. -/
theorem fieldPattern_lt (width : Nat) (v : Int) : fieldPattern width v < 2 ^ width := by
  have h := Int.emod_lt_of_pos v (by positivity : (0 : Int) < 2 ^ width)
  have h0 := Int.emod_nonneg v (by positivity : (2 ^ width : Int) ≠ 0)
  unfold fieldPattern
  zify
  rwa [Int.toNat_of_nonneg h0]

/-! ### `NUM_Q` (00_scope.md R7) -/

@[simp] theorem numQ_add (x y : Rat) : numQ.add x y = x + y := rfl
@[simp] theorem numQ_sub (x y : Rat) : numQ.sub x y = x - y := rfl
@[simp] theorem numQ_mulConst (x : Rat) (n : Nat) : numQ.mulConst x n = x * n := rfl
@[simp] theorem numQ_divConst (x : Rat) (n : Nat) : numQ.divConst x n = x / n := rfl
@[simp] theorem numQ_le (x y : Rat) : numQ.le x y = decide (x ≤ y) := rfl
@[simp] theorem numQ_finite (x : Rat) : numQ.finite x = true := rfl
@[simp] theorem numQ_zero : numQ.zero = 0 := rfl
@[simp] theorem numQ_one : numQ.one = 1 := rfl
@[simp] theorem numQ_clampLo : numQ.clampLo = -diffClamp := rfl
@[simp] theorem numQ_clampHi : numQ.clampHi = diffClamp := rfl
@[simp] theorem numQ_ofInt (z : Int) : numQ.ofInt z = z := rfl
@[simp] theorem numQ_rhaz (x : Rat) : numQ.rhaz x = rhazQ x := rfl

/-- The strict order of `NUM_Q` is that of the rationals. -/
@[simp] theorem numLt_numQ (x y : Rat) : numLt numQ x y = decide (x < y) := by
  rw [Bool.eq_iff_iff]
  simp only [numLt, numQ_le, Bool.and_eq_true, Bool.not_eq_true', decide_eq_true_eq, decide_eq_false_iff_not, not_le]
  exact ⟨fun h => h.2, fun h => ⟨le_of_lt h, h⟩⟩

/-- The distance of `NUM_Q` is the absolute difference. -/
@[simp] theorem numDist_numQ (x y : Rat) : numDist numQ x y = |x - y| := by
  simp only [numDist, numQ_le, numQ_sub, numQ_zero, decide_eq_true_eq, zero_sub]
  split
  · next h => exact (abs_of_nonneg h).symm
  · next h => exact (abs_of_neg (not_le.mp h)).symm

/-- All that `clamp` can answer. -/
theorem numClamp_cases {F : Type} (N : NumSystem F) (x lo hi : F) :
    (numLt N x lo = true ∧ numClamp N x lo hi = lo) ∨
      (numLt N x lo = false ∧ numLt N hi x = true ∧ numClamp N x lo hi = hi) ∨
      (numLt N x lo = false ∧ numLt N hi x = false ∧ numClamp N x lo hi = x) := by
  unfold numClamp
  cases numLt N x lo <;> cases numLt N hi x <;> simp

/-- What the check of `PACK` and `DEQUANT` asks for (43_codeword_packer.md R180, R182). -/
theorem quantsFit_iff (t : QuantTuple) :
    quantsFit t = true ↔
      (0 ≤ t.qa ∧ t.qa ≤ 511) ∧ (-16 ≤ t.qb ∧ t.qb ≤ 15) ∧ (-16 ≤ t.qc ∧ t.qc ≤ 15) ∧ (-16 ≤ t.qd ∧ t.qd ≤ 15) ∧
        (0 ≤ t.qpb ∧ t.qpb ≤ 15) ∧ (0 ≤ t.qpr ∧ t.qpr ≤ 15) := by
  simp only [quantsFit, Bool.and_eq_true, fitsU_iff, fitsS_iff, fieldQA, fieldQB, fieldQC, fieldQD, fieldQPB, fieldQPR]
  norm_num
  tauto

end Sys2Proof.Machine
end

