-- ==== Sys2Proof/Laws/Ops.lean ====
section
/-! SUPPORT. For each shared operation one lemma that says everything it can do, to be cited instead of
unfolding it. -/

namespace Sys2Proof.Machine

variable {F : Type}

/-! ### How a command ends -/

/-- A command without memory accesses always ends in a next state. -/
theorem runCommand_eq (c : Engine Config.F → CommandResult Config.F) (s : State) :
    runCommand c s = .next { s with engine := s.engine.finish (c s.engine) } := rfl

/-- All that a command with memory accesses can do. -/
theorem runBlockCommand_cases (c : Engine Config.F → Except Fault (CommandResult Config.F)) (s : State) :
    (∃ r, c s.engine = .ok r ∧ runBlockCommand c s = .next { s with engine := s.engine.finish r }) ∨
      (∃ f, c s.engine = .error f ∧ runBlockCommand c s = .fault f) := by
  unfold runBlockCommand
  cases h : c s.engine with
  | ok r => exact .inl ⟨r, rfl, rfl⟩
  | error f => exact .inr ⟨f, rfl, rfl⟩

theorem runBlockCommand_next_iff (c : Engine Config.F → Except Fault (CommandResult Config.F)) (s s' : State) :
    runBlockCommand c s = .next s' ↔ ∃ r, c s.engine = .ok r ∧ s' = { s with engine := s.engine.finish r } := by
  unfold runBlockCommand
  cases c s.engine with
  | ok r => simp [eq_comm]
  | error f => simp

/-- `exec` is the parameterised command at the machine's parameters. -/
theorem exec_eq_runBlockCommand (i : Instr) (s : State) :
    exec i s = runBlockCommand (commandOf configParams i) s := by
  cases i <;> rfl

/-! ### The next transaction -/

theorem fetch_nil (s : State) (h : s.pending = []) : fetch s = .idle := by simp [fetch, h]

theorem fetch_cmd {s : State} {word : CommandWord} {rest : List (HostEvent Config.F)}
    (h : s.pending = .cmd word :: rest) : fetch s = .command word { s with pending := rest } := by
  simp [fetch, h]

theorem fetch_access {s : State} {t : HostAccess Config.F} {rest : List (HostEvent Config.F)}
    (h : s.pending = .access t :: rest) : fetch s = .access t { s with pending := rest } := by
  simp [fetch, h]

theorem fetch_reset {s : State} {rest : List (HostEvent Config.F)} (h : s.pending = .reset :: rest) :
    fetch s = .reset { s with pending := rest } := by
  simp [fetch, h]

/-- All that a host transaction other than `Cmd` can do: change the engine, return a value, or be refused. -/
theorem hostAccess_cases (t : HostAccess Config.F) (s : State) :
    (∃ e, hostAccess t s = .next { s with engine := e }) ∨
      (∃ r, hostAccess t s = .next { s with replies := r :: s.replies }) ∨ ∃ r, hostAccess t s = .refused r := by
  unfold hostAccess
  split
  · exact .inl ⟨_, rfl⟩
  · exact .inr (.inl ⟨_, rfl⟩)
  · exact .inr (.inr ⟨_, rfl⟩)

/-! ### Accesses (20_memory.md R61, R63) -/

theorem pixRead_ok_iff (P : Params F) (e : Engine F) (p : Nat) (t : Pixel F) :
    e.pixRead P p = .ok t ↔ p < e.pixSize ∧ t = e.pixel P p := by
  unfold Engine.pixRead
  split <;> simp [*, eq_comm]

theorem pixWrite_ok_iff (e e' : Engine F) (p : Nat) (t : Pixel F) :
    e.pixWrite p t = .ok e' ↔ p < e.pixSize ∧ e' = { e with pix := Memory.write e.pix p t } := by
  unfold Engine.pixWrite
  split <;> simp [*, eq_comm]

theorem memRead_ok_iff (P : Params F) (e : Engine F) (addr n : Nat) (bytes : List Byte) :
    e.memRead P addr n = .ok bytes ↔ addr + n ≤ e.cwmSize ∧ bytes = e.bytes P addr n := by
  unfold Engine.memRead
  split <;> simp [*, eq_comm]

theorem memWrite_ok_iff (e e' : Engine F) (addr : Nat) (bytes : List Byte) :
    e.memWrite addr bytes = .ok e' ↔
      addr + bytes.length ≤ e.cwmSize ∧ e' = { e with cwm := storeBytes e.cwm addr bytes } := by
  unfold Engine.memWrite
  split <;> simp [*, eq_comm]

/-- `readBlock` answers the four elements, and exactly when all four are inside `PIX`. -/
theorem readBlock_ok_iff (P : Params F) (e : Engine F) (k : Nat) (s : Samples F) :
    e.readBlock P k = .ok s ↔
      ((blockPixels (asU e.imgW) k).p1 < e.pixSize ∧ (blockPixels (asU e.imgW) k).p2 < e.pixSize ∧
        (blockPixels (asU e.imgW) k).p3 < e.pixSize ∧ (blockPixels (asU e.imgW) k).p4 < e.pixSize) ∧
      s = samplesOfPixels (e.pixel P (blockPixels (asU e.imgW) k).p1) (e.pixel P (blockPixels (asU e.imgW) k).p2)
            (e.pixel P (blockPixels (asU e.imgW) k).p3) (e.pixel P (blockPixels (asU e.imgW) k).p4) := by
  simp only [Engine.readBlock, Engine.pixRead]
  by_cases h1 : (blockPixels (asU e.imgW) k).p1 < e.pixSize
  · by_cases h2 : (blockPixels (asU e.imgW) k).p2 < e.pixSize
    · by_cases h3 : (blockPixels (asU e.imgW) k).p3 < e.pixSize
      · by_cases h4 : (blockPixels (asU e.imgW) k).p4 < e.pixSize
        · simp [h1, h2, h3, h4, eq_comm]
        · simp [h1, h2, h3, h4]
      · simp [h1, h2, h3]
    · simp [h1, h2]
  · simp [h1]

/-- The pixel memory after the four elements of a block are stored. -/
def storeBlock (m : Memory (Pixel F)) (at_ : BlockPixels) (s : Samples F) : Memory (Pixel F) :=
  Memory.write (Memory.write (Memory.write (Memory.write m at_.p1 (samplePixels s).1) at_.p2 (samplePixels s).2.1)
    at_.p3 (samplePixels s).2.2.1) at_.p4 (samplePixels s).2.2.2

/-- `writeBlock` stores the four elements and nothing else, and exactly when all four are inside `PIX`. -/
theorem writeBlock_ok_iff (e e' : Engine F) (k : Nat) (s : Samples F) :
    e.writeBlock k s = .ok e' ↔
      ((blockPixels (asU e.imgW) k).p1 < e.pixSize ∧ (blockPixels (asU e.imgW) k).p2 < e.pixSize ∧
        (blockPixels (asU e.imgW) k).p3 < e.pixSize ∧ (blockPixels (asU e.imgW) k).p4 < e.pixSize) ∧
      e' = { e with pix := storeBlock e.pix (blockPixels (asU e.imgW) k) s } := by
  simp only [Engine.writeBlock, Engine.pixWrite, Engine.pixSize, storeBlock]
  by_cases h1 : (blockPixels (asU e.imgW) k).p1 < asU e.imgW * asU e.imgH
  · by_cases h2 : (blockPixels (asU e.imgW) k).p2 < asU e.imgW * asU e.imgH
    · by_cases h3 : (blockPixels (asU e.imgW) k).p3 < asU e.imgW * asU e.imgH
      · by_cases h4 : (blockPixels (asU e.imgW) k).p4 < asU e.imgW * asU e.imgH
        · simp [h1, h2, h3, h4, eq_comm]
        · simp [h1, h2, h3, h4]
      · simp [h1, h2, h3]
    · simp [h1, h2]
  · simp [h1]

/-- `readCodeword` answers the codeword of the four bytes, and exactly when they are inside `CWM`. -/
theorem readCodeword_ok_iff (P : Params F) (e : Engine F) (k : Nat) (cw : Codeword) :
    e.readCodeword P k = .ok cw ↔ 4 * k + 4 ≤ e.cwmSize ∧ cw = unbe4 (e.bytes P (4 * k) 4) := by
  simp only [Engine.readCodeword, Engine.memRead, codewordAddr, cwBytes]
  by_cases h : 4 * k + 4 ≤ e.cwmSize <;> simp [h, eq_comm]

/-- `writeCodeword` stores the four bytes and nothing else, and exactly when they are inside `CWM`. -/
theorem writeCodeword_ok_iff (e e' : Engine F) (k : Nat) (cw : Codeword) :
    e.writeCodeword k cw = .ok e' ↔
      4 * k + 4 ≤ e.cwmSize ∧ e' = { e with cwm := storeBytes e.cwm (4 * k) (be4 cw) } := by
  have h4 : (be4 cw).length = 4 := rfl
  rw [Engine.writeCodeword, memWrite_ok_iff, h4, codewordAddr, cwBytes]

/-! ### `block_guard` (44_memory_and_pipeline.md R200) -/

theorem blockGuard_ok_iff (e : Engine F) (k : Nat) :
    e.blockGuard = .ok k ↔
      asU e.imgW % 2 = 0 ∧ asU e.imgH % 2 = 0 ∧ asU e.blk < (asU e.imgW / 2) * (asU e.imgH / 2) ∧ k = asU e.blk := by
  unfold Engine.blockGuard blockCount
  split
  · next h =>
    simp only [reduceCtorEq, false_iff]
    omega
  · next h =>
    split
    · next h' =>
      simp only [Except.ok.injEq]
      constructor
      · rintro rfl; omega
      · rintro ⟨-, -, -, rfl⟩; rfl
    · next h' => simp only [reduceCtorEq, false_iff]; tauto

theorem blockGuard_error_iff (e : Engine F) (kind : ErrorKind) :
    e.blockGuard = .error kind ↔
      ((asU e.imgW % 2 = 1 ∨ asU e.imgH % 2 = 1) ∧ kind = .dimensionMismatch) ∨
      (asU e.imgW % 2 = 0 ∧ asU e.imgH % 2 = 0 ∧ (asU e.imgW / 2) * (asU e.imgH / 2) ≤ asU e.blk ∧
        kind = .badBlockIndex) := by
  unfold Engine.blockGuard blockCount
  split
  · next h =>
    simp only [Except.error.injEq]
    constructor
    · rintro rfl; exact .inl ⟨h, rfl⟩
    · rintro (⟨-, rfl⟩ | ⟨h1, h2, -, -⟩)
      · rfl
      · omega
  · next h =>
    split
    · next h' => simp only [reduceCtorEq, false_iff]; omega
    · next h' =>
      simp only [Except.error.injEq]
      constructor
      · rintro rfl; exact .inr ⟨by omega, by omega, by omega, rfl⟩
      · rintro (⟨h1, -⟩ | ⟨-, -, -, rfl⟩)
        · exact absurd h1 h
        · rfl

end Sys2Proof.Machine
end

