-- ==== Sys2Proof/Laws/PerInstr.lean ====
section
/-! SUPPORT. The per-instruction family `EncodedOpcode`: the word of every well-formed command carries the
opcode of its row in its top eight bits (30_encoding.md R91, R92). -/

namespace Sys2Proof.Laws

/-- The opcode of a command (30_encoding.md R94). -/
def opcodeOf : Instr → Nat
  | .nop => 0x00
  | .clrerr => 0x01
  | .fitsu _ => 0x10
  | .fitss _ => 0x11
  | .getu _ _ => 0x12
  | .gets _ _ => 0x13
  | .setu _ _ => 0x14
  | .sets _ _ => 0x15
  | .s2u _ => 0x16
  | .u2s _ => 0x17
  | .btfwd => 0x20
  | .btinv => 0x21
  | .quant => 0x30
  | .dequant => 0x31
  | .pack => 0x40
  | .unpack => 0x41
  | .ldpx => 0x50
  | .stpx => 0x51
  | .ldcw => 0x52
  | .stcw => 0x53
  | .cblk => 0x60
  | .dblk => 0x61

/-- An assembled word's opcode field is the opcode, when the operands fit their fields. -/
theorem opcodeField_assembleWord {op width lsb : Nat} (h1 : op < 256) (h2 : width ≤ 127) (h3 : lsb ≤ 63) :
    opcodeField (assembleWord op width lsb) = op := by
  simp only [opcodeField, commandBits, assembleWord, BitVec.toNat_ofNat]
  omega

/-- The word of a well-formed command carries the opcode of its row. -/
def EncodedOpcode.Statement (i : Instr) : Prop := i.wellFormed = true → opcodeField (encode i) = opcodeOf i

theorem EncodedOpcode.nop : EncodedOpcode.Statement .nop := fun _ => by decide
theorem EncodedOpcode.clrerr : EncodedOpcode.Statement .clrerr := fun _ => by decide
theorem EncodedOpcode.fitsu (width : Nat) : EncodedOpcode.Statement (.fitsu width) := fun h =>
  opcodeField_assembleWord (by decide) (by simpa [Instr.wellFormed, widthEncodable] using h) (by decide)
theorem EncodedOpcode.fitss (width : Nat) : EncodedOpcode.Statement (.fitss width) := fun h =>
  opcodeField_assembleWord (by decide) (by simpa [Instr.wellFormed, widthEncodable] using h) (by decide)
theorem EncodedOpcode.getu (width lsb : Nat) : EncodedOpcode.Statement (.getu width lsb) := fun h => by
  simp only [Instr.wellFormed, widthEncodable, lsbEncodable, Bool.and_eq_true, decide_eq_true_eq] at h
  exact opcodeField_assembleWord (by decide) h.1 h.2
theorem EncodedOpcode.gets (width lsb : Nat) : EncodedOpcode.Statement (.gets width lsb) := fun h => by
  simp only [Instr.wellFormed, widthEncodable, lsbEncodable, Bool.and_eq_true, decide_eq_true_eq] at h
  exact opcodeField_assembleWord (by decide) h.1 h.2
theorem EncodedOpcode.setu (width lsb : Nat) : EncodedOpcode.Statement (.setu width lsb) := fun h => by
  simp only [Instr.wellFormed, widthEncodable, lsbEncodable, Bool.and_eq_true, decide_eq_true_eq] at h
  exact opcodeField_assembleWord (by decide) h.1 h.2
theorem EncodedOpcode.sets (width lsb : Nat) : EncodedOpcode.Statement (.sets width lsb) := fun h => by
  simp only [Instr.wellFormed, widthEncodable, lsbEncodable, Bool.and_eq_true, decide_eq_true_eq] at h
  exact opcodeField_assembleWord (by decide) h.1 h.2
theorem EncodedOpcode.s2u (width : Nat) : EncodedOpcode.Statement (.s2u width) := fun h =>
  opcodeField_assembleWord (by decide) (by simpa [Instr.wellFormed, widthEncodable] using h) (by decide)
theorem EncodedOpcode.u2s (width : Nat) : EncodedOpcode.Statement (.u2s width) := fun h =>
  opcodeField_assembleWord (by decide) (by simpa [Instr.wellFormed, widthEncodable] using h) (by decide)
theorem EncodedOpcode.btfwd : EncodedOpcode.Statement .btfwd := fun _ => by decide
theorem EncodedOpcode.btinv : EncodedOpcode.Statement .btinv := fun _ => by decide
theorem EncodedOpcode.quant : EncodedOpcode.Statement .quant := fun _ => by decide
theorem EncodedOpcode.dequant : EncodedOpcode.Statement .dequant := fun _ => by decide
theorem EncodedOpcode.pack : EncodedOpcode.Statement .pack := fun _ => by decide
theorem EncodedOpcode.unpack : EncodedOpcode.Statement .unpack := fun _ => by decide
theorem EncodedOpcode.ldpx : EncodedOpcode.Statement .ldpx := fun _ => by decide
theorem EncodedOpcode.stpx : EncodedOpcode.Statement .stpx := fun _ => by decide
theorem EncodedOpcode.ldcw : EncodedOpcode.Statement .ldcw := fun _ => by decide
theorem EncodedOpcode.stcw : EncodedOpcode.Statement .stcw := fun _ => by decide
theorem EncodedOpcode.cblk : EncodedOpcode.Statement .cblk := fun _ => by decide
theorem EncodedOpcode.dblk : EncodedOpcode.Statement .dblk := fun _ => by decide

end Sys2Proof.Laws
end

