-- ==== Sys2Proof/Laws/State.lean ====
section
/-! SUPPORT. One lemma per field per named update of the state, true by unfolding, for the simplifier. -/

namespace Sys2Proof.Machine

variable {F : Type}
/-! ### STATUS (10_state.md R25) -/
@[simp] theorem statusSucceed_err (st : Status) : (statusSucceed st).err = 0 := rfl
@[simp] theorem statusSucceed_anyErr (st : Status) : (statusSucceed st).anyErr = st.anyErr := rfl
@[simp] theorem statusSucceed_flag (st : Status) : (statusSucceed st).flag = st.flag := rfl
@[simp] theorem statusFail_err (st : Status) (k : ErrorKind) : (statusFail st k).err = errorCode k := rfl
@[simp] theorem statusFail_anyErr (st : Status) (k : ErrorKind) : (statusFail st k).anyErr = true := rfl
@[simp] theorem statusFail_flag (st : Status) (k : ErrorKind) : (statusFail st k).flag = st.flag := rfl
@[simp] theorem statusSetFlag_err (st : Status) (b : Bool) : (statusSetFlag st b).err = st.err := rfl
@[simp] theorem statusSetFlag_anyErr (st : Status) (b : Bool) : (statusSetFlag st b).anyErr = st.anyErr := rfl
@[simp] theorem statusSetFlag_flag (st : Status) (b : Bool) : (statusSetFlag st b).flag = b := rfl
@[simp] theorem statusClearAnyErr_err (st : Status) : (statusClearAnyErr st).err = st.err := rfl
@[simp] theorem statusClearAnyErr_anyErr (st : Status) : (statusClearAnyErr st).anyErr = false := rfl
@[simp] theorem statusClearAnyErr_flag (st : Status) : (statusClearAnyErr st).flag = st.flag := rfl
@[simp] theorem statusReset_err : statusReset.err = 0 := rfl
@[simp] theorem statusReset_anyErr : statusReset.anyErr = false := rfl
@[simp] theorem statusReset_flag : statusReset.flag = false := rfl

/-! ### How a command ends (00_scope.md R12) -/
@[simp] theorem raiseError_word (e : Engine F) (k : ErrorKind) : (e.raiseError k).word = e.word := rfl
@[simp] theorem raiseError_val (e : Engine F) (k : ErrorKind) : (e.raiseError k).val = e.val := rfl
@[simp] theorem raiseError_status (e : Engine F) (k : ErrorKind) : (e.raiseError k).status = statusFail e.status k := rfl
@[simp] theorem raiseError_imgW (e : Engine F) (k : ErrorKind) : (e.raiseError k).imgW = e.imgW := rfl
@[simp] theorem raiseError_imgH (e : Engine F) (k : ErrorKind) : (e.raiseError k).imgH = e.imgH := rfl
@[simp] theorem raiseError_blk (e : Engine F) (k : ErrorKind) : (e.raiseError k).blk = e.blk := rfl
@[simp] theorem raiseError_quants (e : Engine F) (k : ErrorKind) : (e.raiseError k).quants = e.quants := rfl
@[simp] theorem raiseError_cw (e : Engine F) (k : ErrorKind) : (e.raiseError k).cw = e.cw := rfl
@[simp] theorem raiseError_samples (e : Engine F) (k : ErrorKind) : (e.raiseError k).samples = e.samples := rfl
@[simp] theorem raiseError_coeffs (e : Engine F) (k : ErrorKind) : (e.raiseError k).coeffs = e.coeffs := rfl
@[simp] theorem raiseError_pix (e : Engine F) (k : ErrorKind) : (e.raiseError k).pix = e.pix := rfl
@[simp] theorem raiseError_cwm (e : Engine F) (k : ErrorKind) : (e.raiseError k).cwm = e.cwm := rfl
@[simp] theorem succeed_word (e : Engine F) : e.succeed.word = e.word := rfl
@[simp] theorem succeed_val (e : Engine F) : e.succeed.val = e.val := rfl
@[simp] theorem succeed_status (e : Engine F) : e.succeed.status = statusSucceed e.status := rfl
@[simp] theorem succeed_imgW (e : Engine F) : e.succeed.imgW = e.imgW := rfl
@[simp] theorem succeed_imgH (e : Engine F) : e.succeed.imgH = e.imgH := rfl
@[simp] theorem succeed_blk (e : Engine F) : e.succeed.blk = e.blk := rfl
@[simp] theorem succeed_quants (e : Engine F) : e.succeed.quants = e.quants := rfl
@[simp] theorem succeed_cw (e : Engine F) : e.succeed.cw = e.cw := rfl
@[simp] theorem succeed_samples (e : Engine F) : e.succeed.samples = e.samples := rfl
@[simp] theorem succeed_coeffs (e : Engine F) : e.succeed.coeffs = e.coeffs := rfl
@[simp] theorem succeed_pix (e : Engine F) : e.succeed.pix = e.pix := rfl
@[simp] theorem succeed_cwm (e : Engine F) : e.succeed.cwm = e.cwm := rfl
@[simp] theorem finish_done (e e' : Engine F) : e.finish (.done e') = e'.succeed := rfl
@[simp] theorem finish_raise (e : Engine F) (k : ErrorKind) : e.finish (.raise k) = e.raiseError k := rfl

/-! ### The platform's reset (10_state.md R33) -/
@[simp] theorem platformReset_word (e : Engine F) (drawn : UnspecifiedRegisters F) : (e.platformReset drawn).word = drawn.word := rfl
@[simp] theorem platformReset_val (e : Engine F) (drawn : UnspecifiedRegisters F) : (e.platformReset drawn).val = drawn.val := rfl
@[simp] theorem platformReset_status (e : Engine F) (drawn : UnspecifiedRegisters F) : (e.platformReset drawn).status = statusReset := rfl
@[simp] theorem platformReset_imgW (e : Engine F) (drawn : UnspecifiedRegisters F) : (e.platformReset drawn).imgW = 0 := rfl
@[simp] theorem platformReset_imgH (e : Engine F) (drawn : UnspecifiedRegisters F) : (e.platformReset drawn).imgH = 0 := rfl
@[simp] theorem platformReset_blk (e : Engine F) (drawn : UnspecifiedRegisters F) : (e.platformReset drawn).blk = 0 := rfl
@[simp] theorem platformReset_quants (e : Engine F) (drawn : UnspecifiedRegisters F) : (e.platformReset drawn).quants = drawn.quants := rfl
@[simp] theorem platformReset_cw (e : Engine F) (drawn : UnspecifiedRegisters F) : (e.platformReset drawn).cw = drawn.cw := rfl
@[simp] theorem platformReset_samples (e : Engine F) (drawn : UnspecifiedRegisters F) : (e.platformReset drawn).samples = drawn.samples := rfl
@[simp] theorem platformReset_coeffs (e : Engine F) (drawn : UnspecifiedRegisters F) : (e.platformReset drawn).coeffs = drawn.coeffs := rfl
@[simp] theorem platformReset_pix (e : Engine F) (drawn : UnspecifiedRegisters F) : (e.platformReset drawn).pix = e.pix := rfl
@[simp] theorem platformReset_cwm (e : Engine F) (drawn : UnspecifiedRegisters F) : (e.platformReset drawn).cwm = e.cwm := rfl

/-! ### The records of one block -/
@[simp] theorem samplesOfPixels_y1 (t1 t2 t3 t4 : Pixel F) : (samplesOfPixels t1 t2 t3 t4).y1 = t1.y := rfl
@[simp] theorem samplesOfPixels_pb1 (t1 t2 t3 t4 : Pixel F) : (samplesOfPixels t1 t2 t3 t4).pb1 = t1.pb := rfl
@[simp] theorem samplesOfPixels_pr1 (t1 t2 t3 t4 : Pixel F) : (samplesOfPixels t1 t2 t3 t4).pr1 = t1.pr := rfl
@[simp] theorem samplesOfPixels_y2 (t1 t2 t3 t4 : Pixel F) : (samplesOfPixels t1 t2 t3 t4).y2 = t2.y := rfl
@[simp] theorem samplesOfPixels_pb2 (t1 t2 t3 t4 : Pixel F) : (samplesOfPixels t1 t2 t3 t4).pb2 = t2.pb := rfl
@[simp] theorem samplesOfPixels_pr2 (t1 t2 t3 t4 : Pixel F) : (samplesOfPixels t1 t2 t3 t4).pr2 = t2.pr := rfl
@[simp] theorem samplesOfPixels_y3 (t1 t2 t3 t4 : Pixel F) : (samplesOfPixels t1 t2 t3 t4).y3 = t3.y := rfl
@[simp] theorem samplesOfPixels_pb3 (t1 t2 t3 t4 : Pixel F) : (samplesOfPixels t1 t2 t3 t4).pb3 = t3.pb := rfl
@[simp] theorem samplesOfPixels_pr3 (t1 t2 t3 t4 : Pixel F) : (samplesOfPixels t1 t2 t3 t4).pr3 = t3.pr := rfl
@[simp] theorem samplesOfPixels_y4 (t1 t2 t3 t4 : Pixel F) : (samplesOfPixels t1 t2 t3 t4).y4 = t4.y := rfl
@[simp] theorem samplesOfPixels_pb4 (t1 t2 t3 t4 : Pixel F) : (samplesOfPixels t1 t2 t3 t4).pb4 = t4.pb := rfl
@[simp] theorem samplesOfPixels_pr4 (t1 t2 t3 t4 : Pixel F) : (samplesOfPixels t1 t2 t3 t4).pr4 = t4.pr := rfl
@[simp] theorem quantsOf_qa (t : QuantTuple) : (quantsOf t).qa = pat64 t.qa := rfl
@[simp] theorem quantsOf_qb (t : QuantTuple) : (quantsOf t).qb = pat64 t.qb := rfl
@[simp] theorem quantsOf_qc (t : QuantTuple) : (quantsOf t).qc = pat64 t.qc := rfl
@[simp] theorem quantsOf_qd (t : QuantTuple) : (quantsOf t).qd = pat64 t.qd := rfl
@[simp] theorem quantsOf_qpb (t : QuantTuple) : (quantsOf t).qpb = pat64 t.qpb := rfl
@[simp] theorem quantsOf_qpr (t : QuantTuple) : (quantsOf t).qpr = pat64 t.qpr := rfl
@[simp] theorem quantsRead_qa (q : Quants) : (quantsRead q).qa = ((asU q.qa) : Int) := rfl
@[simp] theorem quantsRead_qb (q : Quants) : (quantsRead q).qb = asS q.qb := rfl
@[simp] theorem quantsRead_qc (q : Quants) : (quantsRead q).qc = asS q.qc := rfl
@[simp] theorem quantsRead_qd (q : Quants) : (quantsRead q).qd = asS q.qd := rfl
@[simp] theorem quantsRead_qpb (q : Quants) : (quantsRead q).qpb = ((asU q.qpb) : Int) := rfl
@[simp] theorem quantsRead_qpr (q : Quants) : (quantsRead q).qpr = ((asU q.qpr) : Int) := rfl

/-! ### The next transaction -/
@[simp] theorem withFetchWord_engine (s : State) (nbits w : Nat) : (s.withFetchWord nbits w).engine = s.engine := rfl
@[simp] theorem withFetchWord_replies (s : State) (nbits w : Nat) : (s.withFetchWord nbits w).replies = s.replies := rfl
@[simp] theorem withFetchWord_draws (s : State) (nbits w : Nat) : (s.withFetchWord nbits w).draws = s.draws := rfl
@[simp] theorem withFetchWord_pending (s : State) (nbits w : Nat) : (s.withFetchWord nbits w).pending = .cmd (BitVec.ofNat 32 (w % 2 ^ nbits)) :: s.pending := rfl

end Sys2Proof.Machine
end

