-- ==== Sys2Proof/Machine/Assembler.lean ====
section
/-! DEFINITION. The assembler of 30_encoding.md R97 to R99: one line of text to the host's transactions it
stands for. It is a tool of the host; `step` does not use it. What the rules leave open of the text's form is
assumption log 17. -/

namespace Sys2Proof.Machine

/-- The register names and numbers of the integer file (10_state.md R21). -/
def intRegisterNames : List (String × Nat) :=
  [ ("WORD", 0x00), ("VAL", 0x01), ("STATUS", 0x02), ("IMG_W", 0x03), ("IMG_H", 0x04), ("BLK", 0x05),
    ("QA", 0x08), ("QB", 0x09), ("QC", 0x0A), ("QD", 0x0B), ("QPB", 0x0C), ("QPR", 0x0D), ("CW", 0x0E) ]

/-- The register names and numbers of the `F`-typed file (10_state.md R27). -/
def numRegisterNames : List (String × Nat) :=
  [ ("Y1", 0x20), ("Y2", 0x21), ("Y3", 0x22), ("Y4", 0x23), ("PB1", 0x24), ("PB2", 0x25), ("PB3", 0x26),
    ("PB4", 0x27), ("PR1", 0x28), ("PR2", 0x29), ("PR3", 0x2A), ("PR4", 0x2B), ("A", 0x30), ("B", 0x31),
    ("C", 0x32), ("D", 0x33), ("APB", 0x34), ("APR", 0x35) ]

/-- The number of a name in a table; names are case-insensitive (30_encoding.md R97). -/
def registerNumber (table : List (String × Nat)) (name : List Char) : Option Nat :=
  (table.find? fun entry => entry.1.toList == name.map Char.toUpper).map Prod.snd

/-- The row of the opcode map with a mnemonic; mnemonics are case-insensitive (30_encoding.md R97). -/
def mnemonicRow (name : List Char) : Option OpcodeRow :=
  opcodeMap.find? fun row => row.mnemonic.toList == name.map Char.toUpper

/-- The value of a digit in a base of at most 16. -/
def digitValue (base : Nat) (c : Char) : Option Nat :=
  let v :=
    if '0' ≤ c ∧ c ≤ '9' then c.toNat - '0'.toNat
    else if 'a' ≤ c ∧ c ≤ 'f' then c.toNat - 'a'.toNat + 10
    else if 'A' ≤ c ∧ c ≤ 'F' then c.toNat - 'A'.toNat + 10
    else base
  if v < base then some v else none

/-- Digits in a base, most significant first, continuing from `acc`. -/
def digitsFrom (base : Nat) : Nat → List Char → Option Nat
  | acc, [] => some acc
  | acc, c :: rest =>
    match digitValue base c with
    | some v => digitsFrom base (acc * base + v) rest
    | none => none

/-- A non-empty run of digits in a base. -/
def digits (base : Nat) (cs : List Char) : Option Nat := if cs.isEmpty then none else digitsFrom base 0 cs

/-- "numbers are decimal, `0x` hexadecimal or `0b` binary" (30_encoding.md R97). -/
def parseNat : List Char → Option Nat
  | '0' :: 'x' :: rest | '0' :: 'X' :: rest => digits 16 rest
  | '0' :: 'b' :: rest | '0' :: 'B' :: rest => digits 2 rest
  | cs => digits 10 cs

/-- A register value: "a leading `-` on a register value means the two's complement 64-bit pattern of the
negative integer" (30_encoding.md R97). A value without a 64-bit pattern is refused. -/
def parseRegisterValue : List Char → Option Word64
  | '-' :: rest =>
    match parseNat rest with
    | some n => if n ≤ 2 ^ 63 then some (pat64 (-(n : Int))) else none
    | none => none
  | cs =>
    match parseNat cs with
    | some n => if n < 2 ^ 64 then some (pat64 n) else none
    | none => none

/-- The characters before and after the first `sep`, if there is one. -/
def splitAtChar (sep : Char) : List Char → Option (List Char × List Char)
  | [] => none
  | c :: rest =>
    if c = sep then some ([], rest)
    else
      match splitAtChar sep rest with
      | some (before, after) => some (c :: before, after)
      | none => none

/-- An unsigned value of `F`: "a rational `p/q` or a decimal" (30_encoding.md R98). -/
def parseUnsignedNumber (cs : List Char) : Option Rat :=
  match splitAtChar '/' cs with
  | some (p, q) =>
    match digits 10 p, digits 10 q with
    | some p, some q => if q = 0 then none else some ((p : Rat) / (q : Rat))
    | _, _ => none
  | none =>
    match splitAtChar '.' cs with
    | some (whole, fraction) =>
      match digits 10 whole, digits 10 fraction with
      | some w, some f => some ((w : Rat) + (f : Rat) / ((10 ^ fraction.length : Nat) : Rat))
      | _, _ => none
    | none => (digits 10 cs).map fun n => (n : Rat)

/-- A value of `F`, with a leading `-` for a negative one. -/
def parseNumber : List Char → Option Rat
  | '-' :: rest => (parseUnsignedNumber rest).map fun x => -x
  | cs => parseUnsignedNumber cs

/-- Append a non-empty word to the words so far, both kept in reverse. -/
def pushWord (word : List Char) (done : List (List Char)) : List (List Char) :=
  if word.isEmpty then done else word.reverse :: done

/-- The words of a line: runs of characters between blanks, each of `,`, `(` and `)` a word of its own; "`;`
starts a comment" (30_encoding.md R97). The current word and the words so far are kept in reverse. -/
def lineWords : List Char → List Char → List (List Char) → List (List Char)
  | [], word, done => (pushWord word done).reverse
  | c :: rest, word, done =>
    if c = ';' then (pushWord word done).reverse
    else if c = ' ' ∨ c = '\t' then lineWords rest [] (pushWord word done)
    else if c = ',' ∨ c = '(' ∨ c = ')' then lineWords rest [] ([c] :: pushWord word done)
    else lineWords rest (c :: word) done

/-- What the assembler knows of the image: the last values written to `IMG_W` and `IMG_H`, which
`compress_all` and `decompress_all` depend on (30_encoding.md R99). -/
structure AssemblerContext where
  imgW : Option Nat
  imgH : Option Nat
deriving DecidableEq, Repr

/-- For `k = 0, 1, ..` below the block count, in this order: `wr BLK, k`, then the command
(30_encoding.md R99). DESIGN CHOICE (assumption log 17): where the block count is above `2^64` the expansion holds
a `wr BLK, k` whose `k` has no 64-bit pattern, the spec is silent, and the whole statement is refused, as `wr` of
such a value is. -/
def forEachBlock (w h : Nat) (i : Instr) : Option (List (HostEvent Config.F)) :=
  if blockCount w h ≤ 2 ^ 64 then
    some ((List.range (blockCount w h)).flatMap fun k => [.access (.regWrite 0x05 (pat64 k)), .cmd (encode i)])
  else none

/-- `compress_all` (30_encoding.md R99, 44_memory_and_pipeline.md R208; a block count above `2^64`: assumption
log 17). -/
def compressAll (w h : Nat) : Option (List (HostEvent Config.F)) := forEachBlock w h .cblk

/-- `decompress_all` (30_encoding.md R99, 44_memory_and_pipeline.md R208; a block count above `2^64`: assumption
log 17). -/
def decompressAll (w h : Nat) : Option (List (HostEvent Config.F)) := forEachBlock w h .dblk

/-- A command statement: "its mnemonic and its operands" by format; a `width` above 127 or an `lsb` above 63
is refused (30_encoding.md R97). -/
def assembleCommand (row : OpcodeRow) (operands : List (List Char)) : Option CommandWord :=
  let built :=
    match row.format, operands with
    | .N, [] => some (row.build 0 0)
    | .W, [width] => (parseNat width).map fun w => row.build w 0
    | .D, [width, [','], lsb] =>
      match parseNat width, parseNat lsb with
      | some w, some l => some (row.build w l)
      | _, _ => none
    | _, _ => none
  match built with
  | some i => if i.wellFormed then some (encode i) else none
  | none => none

/-- The context after `wr` of a register. -/
def contextAfterWrite (ctx : AssemblerContext) (n : Nat) (v : Word64) : AssemblerContext :=
  if n = 0x03 then { ctx with imgW := some (asU v) }
  else if n = 0x04 then { ctx with imgH := some (asU v) }
  else ctx

/-- A register write statement. -/
def assembleWrite (ctx : AssemblerContext) (name value : List Char) :
    Option (List (HostEvent Config.F) × AssemblerContext) :=
  match registerNumber intRegisterNames name, parseRegisterValue value with
  | some n, some v => some ([.access (.regWrite n v)], contextAfterWrite ctx n v)
  | _, _ => none

/-- A statement that is one transaction and changes no context. -/
def oneEvent (ctx : AssemblerContext) (ev : Option (HostEvent Config.F)) :
    Option (List (HostEvent Config.F) × AssemblerContext) :=
  ev.map fun x => ([x], ctx)

/-- The four pseudo-instructions (30_encoding.md R99), the eight host statements (R98) and the command
statements (R97), from the statement's name in capitals and its other words. -/
def assembleStatement (ctx : AssemblerContext) (name : List Char) (operands : List (List Char)) :
    Option (List (HostEvent Config.F) × AssemblerContext) :=
  match mnemonicRow name with
  | some row => oneEvent ctx ((assembleCommand row operands).map fun word => .cmd word)
  | none =>
    match String.ofList (name.map Char.toUpper), operands with
    | "WR", [reg, [','], value] => assembleWrite ctx reg value
    | "LDW", [value] => assembleWrite ctx ['W', 'O', 'R', 'D'] value
    | "LDV", [value] => assembleWrite ctx ['V', 'A', 'L'] value
    | "RD", [reg] => oneEvent ctx ((registerNumber intRegisterNames reg).map fun n => .access (.regRead n))
    | "WRF", [reg, [','], value] =>
      match registerNumber numRegisterNames reg, parseNumber value with
      | some n, some v => oneEvent ctx (some (.access (.fregWrite n v)))
      | _, _ => none
    | "RDF", [reg] => oneEvent ctx ((registerNumber numRegisterNames reg).map fun n => .access (.fregRead n))
    | "WRPX", [p, [','], ['('], y, [','], pb, [','], pr, [')']] =>
      match parseNat p, parseNumber y, parseNumber pb, parseNumber pr with
      | some p, some y, some pb, some pr => oneEvent ctx (some (.access (.pixWrite p ⟨y, pb, pr⟩)))
      | _, _, _, _ => none
    | "RDPX", [p] => oneEvent ctx ((parseNat p).map fun n => .access (.pixRead n))
    | "WRB", [addr, [','], byte] =>
      match parseNat addr, parseNat byte with
      | some a, some b =>
        oneEvent ctx (if b < 256 then some (.access (.byteWrite a (BitVec.ofNat 8 b))) else none)
      | _, _ => none
    | "RDB", [addr] => oneEvent ctx ((parseNat addr).map fun n => .access (.byteRead n))
    | "COMPRESS_ALL", [] =>
      match ctx.imgW, ctx.imgH with
      | some w, some h => (compressAll w h).map fun events => (events, ctx)
      | _, _ => none
    | "DECOMPRESS_ALL", [] =>
      match ctx.imgW, ctx.imgH with
      | some w, some h => (decompressAll w h).map fun events => (events, ctx)
      | _, _ => none
    | _, _ => none

/-- One line: "One statement per line" (30_encoding.md R97); an empty line or a comment stands for nothing. -/
def assembleLine (ctx : AssemblerContext) (line : List Char) :
    Option (List (HostEvent Config.F) × AssemblerContext) :=
  match lineWords line [] [] with
  | [] => some ([], ctx)
  | name :: operands => assembleStatement ctx name operands

/-- A whole host program, line after line; `none` if some line is refused. -/
def assembleLines : AssemblerContext → List (List Char) → Option (List (HostEvent Config.F))
  | _, [] => some []
  | ctx, line :: rest =>
    match assembleLine ctx line with
    | none => none
    | some (events, ctx') =>
      match assembleLines ctx' rest with
      | none => none
      | some more => some (events ++ more)

end Sys2Proof.Machine
end

