-- ==== Sys2Proof/Machine/MultiEngine.lean ====
section
/-! DEFINITION. Several engines on one `PIX` and one `CWM` (20_memory.md R73, 60_exceptions.md R246): "each is
started by reset and driven by its own host stream"; "A model of several engines interleaves whole commands (each
is atomic)" and refuses a system outside the condition of R73 (93_implementation_defined.md U8). A layer over the
single engine; `step` does not use it (assumption log 13). -/

namespace Sys2Proof.Machine

variable {F : Type}

/-- The part of the shared memories that belongs to one block (41_block_transform.md R147, 20_memory.md R64). -/
inductive SharedPlace where
  /-- the four elements of `PIX` of block `k` -/
  | pixels (k : Nat)
  /-- the four bytes of `CWM` of block `k` -/
  | codeword (k : Nat)
deriving DecidableEq, Repr

/-- Several engines. The `pix` and `cwm` fields of the listed engines are not used (a transaction leaves them
empty): the shared memories stand in their place. -/
structure MultiEngine (F : Type) where
  /-- the registers of each engine; an engine's place in the list is the model's name for it -/
  engines : List (Engine F)
  /-- the shared pixel memory -/
  pix : Memory (Pixel F)
  /-- the shared codeword memory -/
  cwm : Memory Byte
  /-- the one `IMG_W` of the system -/
  imgW : Word64
  /-- the one `IMG_H` of the system -/
  imgH : Word64
  /-- MODEL's own: the engine each block index has been given to so far -/
  given : Memory Nat
  /-- MODEL's own: what each host stream has written since the streams last met -/
  written : List (SharedPlace × Nat)
  /-- MODEL's own: what each engine's commands have touched since the streams last met -/
  touched : List (SharedPlace × Nat)
  /-- MODEL's own: what the reads of each host stream returned, newest first (assumption log 9) -/
  replies : List (Nat × HostReply F)
deriving DecidableEq, Repr

/-- What may come next in a system of several engines; the number is the engine's place in the list. -/
inductive MultiEvent (F : Type) where
  /-- a `Cmd` of the engine's own host stream -/
  | cmd (n : Nat) (word : CommandWord)
  /-- any other transaction of the engine's own host stream (45_control_and_host.md R222) -/
  | access (n : Nat) (t : HostAccess F)
  /-- the platform's reset of one engine, with the values drawn for its unspecified registers (10_state.md R33) -/
  | reset (n : Nat) (drawn : UnspecifiedRegisters F)
  /-- the host streams meet: every transaction before comes before every transaction after. DESIGN CHOICE
  (assumption log 13): the order between agents that R246 and U8 speak of -/
  | meet
deriving DecidableEq, Repr

/-- Why a system of several engines is refused. -/
inductive MultiRefusal where
  /-- there is no such engine -/
  | noSuchEngine (n : Nat)
  /-- the transaction is not admitted (45_control_and_host.md R224) -/
  | notAdmitted (r : Refusal)
  /-- engine `n` addresses the shared memories with dimensions other than the system's (60_exceptions.md R246) -/
  | dimensionsDiffer (n : Nat)
  /-- a block index is given to two engines (60_exceptions.md R246) -/
  | blockGivenTwice (k : Nat)
  /-- a host write races another engine's command, with no order between them (60_exceptions.md R246) -/
  | hostWriteRaces (place : SharedPlace)
  /-- a command faulted: unreachable (20_memory.md R68) -/
  | faulted (f : Fault)
deriving DecidableEq, Repr

/-- The system right after every engine's reset, with the values drawn for the unspecified registers of each, on
memories with any contents (10_state.md R33, 60_exceptions.md R246). -/
def MultiEngine.start (drawn : List (UnspecifiedRegisters F)) (pix : Memory (Pixel F)) (cwm : Memory Byte)
    (imgW imgH : Word64) : MultiEngine F :=
  { engines := drawn.map fun d => registersAfterReset d [] []
    pix := pix, cwm := cwm, imgW := imgW, imgH := imgH
    given := [], written := [], touched := [], replies := [] }

/-- What a command touches when it runs on block `k` (20_memory.md R67). -/
def touchedPlaces (i : Instr) (k : Nat) : List SharedPlace :=
  match i with
  | .ldpx | .stpx => [.pixels k]
  | .ldcw | .stcw => [.codeword k]
  | .cblk | .dblk => [.pixels k, .codeword k]
  | .nop | .clrerr | .fitsu _ | .fitss _ | .getu _ _ | .gets _ _ | .setu _ _ | .sets _ _ | .s2u _ | .u2s _
  | .btfwd | .btinv | .quant | .dequant | .pack | .unpack => []

/-- The block that pixel `p` of an image of width `w` belongs to (41_block_transform.md R145, R146; 20_memory.md
R62). -/
def blockOfPixel (w p : Nat) : Nat := p / w / 2 * (w / 2) + p % w / 2

/-- What a host transaction writes of the shared memories of an image of width `w`. -/
def writtenPlaces (w : Nat) : HostAccess F → List SharedPlace
  | .pixWrite p _ => [.pixels (blockOfPixel w p)]
  | .byteWrite addr _ => [.codeword (addr / cwBytes)]
  | .pixRead _ | .byteRead _ | .regWrite _ _ | .regRead _ | .fregWrite _ _ | .fregRead _ => []

/-- A host transaction on the shared memories. -/
def HostAccess.onMemory : HostAccess F → Bool
  | .pixWrite _ _ | .pixRead _ | .byteWrite _ _ | .byteRead _ => true
  | .regWrite _ _ | .regRead _ | .fregWrite _ _ | .fregRead _ => false

/-- The first of the places that another agent than `n` has marked. -/
def markedByOther (marks : List (SharedPlace × Nat)) (n : Nat) (places : List SharedPlace) : Option SharedPlace :=
  places.find? fun place => marks.any fun mark => decide (mark.1 = place ∧ mark.2 ≠ n)

/-- Engine `e` of a system, looking at the shared memories. -/
def MultiEngine.view (m : MultiEngine F) (e : Engine F) : Engine F := { e with pix := m.pix, cwm := m.cwm }

/-- Engine `n` has become `e`, and the shared memories what `e` left. -/
def MultiEngine.store (m : MultiEngine F) (n : Nat) (e : Engine F) : MultiEngine F :=
  { m with engines := m.engines.set n { e with pix := [], cwm := [] }, pix := e.pix, cwm := e.cwm }

/-- Engine `e` has the dimensions of the system. -/
def MultiEngine.sameDimensions (m : MultiEngine F) (e : Engine F) : Bool := decide (e.imgW = m.imgW ∧ e.imgH = m.imgH)

/-- The condition of 20_memory.md R73 for engine `n`, seen as `e`, to run a command. A command that addresses a
block needs the system's dimensions, whether `block_guard` passes or not; one that passes the guard needs a block
that no other engine has been given, which is then engine `n`'s, and no racing host write. -/
def MultiEngine.claim (m : MultiEngine F) (n : Nat) (e : Engine F) (i : Instr) :
    Except MultiRefusal (MultiEngine F) :=
  if (touchedPlaces i 0).isEmpty then .ok m
  else if !m.sameDimensions e then .error (.dimensionsDiffer n)
  else
    match e.blockGuard with
    | .error _ => .ok m
    | .ok k =>
      if (Memory.read m.given k).getD n ≠ n then .error (.blockGivenTwice k)
      else
        match markedByOther m.written n (touchedPlaces i k) with
        | some place => .error (.hostWriteRaces place)
        | none =>
          .ok { m with
            given := Memory.write m.given k n
            touched := (touchedPlaces i k).map (fun place => (place, n)) ++ m.touched }

/-- A `Cmd` of engine `n`'s host stream. -/
def MultiEngine.command (P : Params F) (m : MultiEngine F) (n : Nat) (e : Engine F) (word : CommandWord) :
    Except MultiRefusal (MultiEngine F) :=
  match decode word with
  | .illegal _ => .ok (m.store n (e.finish (illegalCommand e)))
  | .command i =>
    match m.claim n e i with
    | .error r => .error r
    | .ok m' =>
      match engineAfter P i e with
      | .error f => .error (.faulted f)
      | .ok e' => .ok (m'.store n e')

/-- Another transaction of engine `n`'s host stream: on the shared memories it needs the system's dimensions, and
a write needs that no other engine's command has touched the place with no order between them. -/
def MultiEngine.access (P : Params F) (m : MultiEngine F) (n : Nat) (e : Engine F) (t : HostAccess F) :
    Except MultiRefusal (MultiEngine F) :=
  if t.onMemory && !m.sameDimensions e then .error (.dimensionsDiffer n)
  else
    match markedByOther m.touched n (writtenPlaces (asU e.imgW) t) with
    | some place => .error (.hostWriteRaces place)
    | none =>
      match engineAccess P t e with
      | .notAdmitted r => .error (.notAdmitted r)
      | .replied r => .ok { m with replies := (n, r) :: m.replies }
      | .changed e' =>
        .ok { m.store n e' with
          written := (writtenPlaces (asU e.imgW) t).map (fun place => (place, n)) ++ m.written }

/-- One event of a system of several engines: a whole transaction of one engine's host stream, the reset of one
engine, or a meeting of the streams. -/
def MultiEngine.step (P : Params F) (m : MultiEngine F) (ev : MultiEvent F) :
    Except MultiRefusal (MultiEngine F) :=
  match ev with
  | .meet => .ok { m with written := [], touched := [] }
  | .cmd n word =>
    match m.engines[n]? with
    | none => .error (.noSuchEngine n)
    | some own => m.command P n (m.view own) word
  | .access n t =>
    match m.engines[n]? with
    | none => .error (.noSuchEngine n)
    | some own => m.access P n (m.view own) t
  | .reset n drawn =>
    match m.engines[n]? with
    | none => .error (.noSuchEngine n)
    | some own => .ok (m.store n ((m.view own).platformReset drawn))

end Sys2Proof.Machine
end

