-- ==== Sys2Proof/Tests/Slice0.lean ====
section
/-! SUPPORT. The session's own tests: the refusals of `Instr.wellFormed`, words written out from 30_encoding.md
R91 to R97, vectors of 95_test_vectors.md (computed there by hand from the rules), and for every obligation with
hypotheses a witness that meets them. -/

namespace Sys2Proof.Tests

open Sys2Proof Sys2Proof.Machine

/-! ### Well-formedness: every check refuses something (30_encoding.md R93, R97) -/

theorem test_wf_refuses_width_128 :
    (Instr.fitsu 128).wellFormed = false ∧ (Instr.fitss 128).wellFormed = false ∧
    (Instr.s2u 128).wellFormed = false ∧ (Instr.u2s 128).wellFormed = false ∧
    (Instr.getu 128 0).wellFormed = false ∧ (Instr.gets 128 0).wellFormed = false ∧
    (Instr.setu 128 0).wellFormed = false ∧ (Instr.sets 128 0).wellFormed = false := by decide
theorem test_wf_refuses_lsb_64 :
    (Instr.getu 9 64).wellFormed = false ∧ (Instr.gets 9 64).wellFormed = false ∧
    (Instr.setu 9 64).wellFormed = false ∧ (Instr.sets 9 64).wellFormed = false := by decide
theorem test_wf_admits_every_encodable : (Instr.getu 127 63).wellFormed = true ∧ (Instr.fitsu 0).wellFormed = true := by
  decide

/-! ### Decoding: one word per command, from the map of 30_encoding.md R94 and the fields of R91; 95 2.1, 2.7 -/

theorem test_decode_control : decode 0x00000000#32 = .command .nop ∧ decode 0x01000000#32 = .command .clrerr := by
  decide
theorem test_decode_bitfield :
    decode 0x10000900#32 = .command (.fitsu 9) ∧ decode 0x11000500#32 = .command (.fitss 5) ∧
    decode 0x12000917#32 = .command (.getu 9 23) ∧ decode 0x13004000#32 = .command (.gets 64 0) ∧
    decode 0x14000838#32 = .command (.setu 8 56) ∧ decode 0x15000512#32 = .command (.sets 5 18) ∧
    decode 0x16003F00#32 = .command (.s2u 63) ∧ decode 0x17000100#32 = .command (.u2s 1) := by decide
theorem test_decode_transform_quantizer_packer :
    decode 0x20000000#32 = .command .btfwd ∧ decode 0x21000000#32 = .command .btinv ∧
    decode 0x30000000#32 = .command .quant ∧ decode 0x31000000#32 = .command .dequant ∧
    decode 0x40000000#32 = .command .pack ∧ decode 0x41000000#32 = .command .unpack := by decide
theorem test_decode_memory_pipeline :
    decode 0x50000000#32 = .command .ldpx ∧ decode 0x51000000#32 = .command .stpx ∧
    decode 0x52000000#32 = .command .ldcw ∧ decode 0x53000000#32 = .command .stcw ∧
    decode 0x60000000#32 = .command .cblk ∧ decode 0x61000000#32 = .command .dblk := by decide
theorem test_decode_table_word : decodeTableWord 32 0x12007F3F = some (.getu 127 63) ∧
    decodeTableWord 32 0x02000000 = none ∧ decodeTableWord 24 0xFF000000 = some .nop := by decide
theorem test_illegal_opcodes : ([0xFFFFFFFF#32, 0x02000000#32, 0x0F000000#32, 0x18000000#32, 0x22000000#32,
    0x32000000#32, 0x42000000#32, 0x54000000#32, 0x62000000#32, 0x70000000#32, 0x80000000#32].all
    fun w => (decode w).instr?.isNone) = true := by decide
theorem test_illegal_reserved : ([0x12010917#32, 0x12800917#32, 0x12008917#32, 0x12000957#32, 0x12000997#32,
    0x10000501#32, 0x16000520#32, 0x40000100#32, 0x53004000#32, 0x00000001#32, 0x01000100#32, 0x20800000#32,
    0x61000001#32, 0x60000001#32].all
    fun w => (decode w).instr?.isNone) = true := by decide

/-! ### One step of the machine on a command word -/

/-- The machine with an engine and nothing pending. -/
def onEngine (e : Engine Config.F) : State := { State.reset with engine := e }

/-- The engine after a step on a word. -/
def stepped (word : Nat) (e : Engine Config.F) : Option (Engine Config.F) :=
  match step ((onEngine e).withFetchWord 32 word) with
  | .next t => some t.engine
  | .fault _ | .refused _ => none

/-- An engine with the given `WORD` and `VAL`, after reset otherwise. -/
def withWords (word val : Word64) : Engine Config.F := { State.reset.engine with word := word, val := val }

/-- What the host would read from `STATUS` after a step on a word. -/
def statusAfter (word : Nat) (e : Engine Config.F) : Option Word64 := (stepped word e).map fun t => statusValue t.status

/-- 95 2.6, the first sequence: `FLAG` and `ANYERR` through failures, `NOP` and `CLRERR`. -/
theorem test_nop : statusAfter 0x00000000 { State.reset.engine with status := ⟨4, true, true⟩ } = some 0x18 := by decide
theorem test_clrerr : statusAfter 0x01000000 { State.reset.engine with status := ⟨3, true, true⟩ } = some 0x10 := by
  decide
theorem test_illegal_step : statusAfter 0x02000000 { State.reset.engine with status := ⟨0, true, true⟩ } = some 0x1B := by
  decide
theorem test_fitsu : statusAfter 0x10000900 (withWords 0 511) = some 0x10 ∧
    statusAfter 0x10000900 (withWords 0 512) = some 0x00 ∧ statusAfter 0x10004100 (withWords 0 0) = some 0x0C := by decide
theorem test_fitss : statusAfter 0x11000500 (withWords 0 (-16)) = some 0x10 ∧
    statusAfter 0x11000500 (withWords 0 16) = some 0x00 ∧ statusAfter 0x11000500 (withWords 0 (-17)) = some 0x00 := by
  decide
theorem test_getu : (stepped 0x12002020 (withWords 0x0123456789ABCDEF 0)).map (·.val) = some 0x01234567 ∧
    (stepped 0x12000011 (withWords 0x0123456789ABCDEF 5)).map (·.val) = some 0 ∧
    statusAfter 0x12000938 (withWords 0 0) = some 0x0C := by decide
theorem test_gets : (stepped 0x13001010 (withWords 0x0123456789ABCDEF 0)).map (·.val) = some 0xFFFFFFFFFFFF89AB ∧
    (stepped 0x1300013F (withWords 0x8000000000000000 0)).map (·.val) = some 0xFFFFFFFFFFFFFFFF := by decide
theorem test_setu : (stepped 0x14000917 (withWords 0xFFFFFFFFFFFFFFFF 0)).map (·.word) = some 0xFFFFFFFF007FFFFF ∧
    (stepped 0x1400093C (withWords 0xFFFF 512)).map (·.word) = some 0xFFFF ∧
    statusAfter 0x1400093C (withWords 0xFFFF 512) = some 0x0C := by decide
theorem test_sets : (stepped 0x15000512 (withWords 0x0123456789ABCDEF (-3))).map (·.word) = some 0x0123456789F7CDEF ∧
    statusAfter 0x15000800 (withWords 0 253) = some 0x09 := by decide
theorem test_s2u : (stepped 0x16000500 (withWords 0 (-16))).map (·.val) = some 16 ∧
    statusAfter 0x16000500 (withWords 0 16) = some 0x09 := by decide
theorem test_u2s : (stepped 0x17000900 (withWords 0 256)).map (·.val) = some 0xFFFFFFFFFFFFFF00 ∧
    statusAfter 0x17000500 (withWords 0 32) = some 0x09 := by decide

/-- 95 2.2: a block without a range check on its samples; `BTINV` of a reconstruction outside `[0, 1]`. -/
theorem test_btfwd : (stepped 0x20000000 { State.reset.engine with
      samples := ⟨-1, 2, 1 / 2, 3, 1 / 10, -1 / 10, 3 / 10, 1 / 10, 0, 1 / 4, -1 / 4, 1 / 2⟩ }).map (·.coeffs) =
    some ⟨9 / 8, 5 / 8, 11 / 8, -1 / 8, 1 / 10, 1 / 8⟩ := by decide +kernel
theorem test_btinv : (stepped 0x21000000 { State.reset.engine with
      coeffs := ⟨1 / 2, 1 / 3, -1 / 3, 1 / 3, 1 / 7, -1 / 9⟩ }).map (·.samples) =
    some ⟨5 / 6, -1 / 2, 5 / 6, 5 / 6, 1 / 7, 1 / 7, 1 / 7, 1 / 7, -1 / 9, -1 / 9, -1 / 9, -1 / 9⟩ := by decide +kernel

/-- 95 2.3: `a > 1` is found before the table is asked. -/
theorem test_quant_domain : statusAfter 0x30000000 { State.reset.engine with coeffs := ⟨2, 0, 0, 0, 0, 0⟩ } = some 0x0E ∧
    statusAfter 0x30000000 { State.reset.engine with coeffs := ⟨-1 / 100, 0, 0, 0, 0, 0⟩ } = some 0x0E := by
  decide +kernel
theorem test_dequant : (stepped 0x31000000 { State.reset.engine with
      quants := ⟨511, 15, -16, -5, 0, 15⟩ }).map (fun e => [e.coeffs.a, e.coeffs.b, e.coeffs.c, e.coeffs.d]) =
      some [1, 1, -16 / 15, -1 / 3] ∧
    statusAfter 0x31000000 { State.reset.engine with quants := ⟨0, 0, -17, 0, 0, 0⟩ } = some 0x09 := by decide +kernel

/-- 95 1.2, Scenario C, and 95 2.4. -/
theorem test_pack : (stepped 0x40000000 { State.reset.engine with
      quants := ⟨300, 5, -3, 0, 10, 2⟩ }).map (·.cw) = some 0x9617A0A2 ∧
    (stepped 0x40000000 { State.reset.engine with quants := ⟨0, -16, 15, -1, 15, 0⟩ }).map (·.cw) = some 0x0041FFF0 ∧
    statusAfter 0x40000000 { State.reset.engine with quants := ⟨512, 0, 0, 0, 0, 0⟩ } = some 0x09 := by decide
theorem test_unpack : (stepped 0x41000000 { State.reset.engine with cw := 0xDEADBEEF }).map (·.quants) =
    some ⟨445, 11, 13, -2, 14, 15⟩ := by decide

/-- 43_codeword_packer.md R180: each field begins where the next one below it ends, from bit 32 down to 0. -/
theorem test_layout : codewordLayout.map (fun f => (f.lsb + f.width, f.lsb)) =
    [(32, 23), (23, 18), (18, 13), (13, 8), (8, 4), (4, 0)] := by decide

/-- An engine on a 4 × 2 image at block 1, its last: elements 2, 3, 6, 7 and bytes 4 to 7 (95 2.5). -/
def onBlock1 : Engine Config.F := { State.reset.engine with imgW := 4, imgH := 2, blk := 1 }

theorem test_ldpx : (stepped 0x50000000 { onBlock1 with
      pix := [(2, ⟨1, 2, 3⟩), (3, ⟨4, 5, 6⟩), (6, ⟨7, 8, 9⟩), (7, ⟨10, 11, 12⟩)] }).map (·.samples) =
    some ⟨1, 4, 7, 10, 2, 5, 8, 11, 3, 6, 9, 12⟩ := by decide +kernel
theorem test_stpx : (stepped 0x51000000 { onBlock1 with
      samples := ⟨1, 4, 7, 10, 2, 5, 8, 11, 3, 6, 9, 12⟩ }).map (·.pix) =
    some [(2, ⟨1, 2, 3⟩), (3, ⟨4, 5, 6⟩), (6, ⟨7, 8, 9⟩), (7, ⟨10, 11, 12⟩)] := by decide +kernel
theorem test_ldcw : (stepped 0x52000000 { onBlock1 with
      cwm := [(4, 0x96), (5, 0x17), (6, 0xA0), (7, 0xA2)] }).map (·.cw) = some 0x9617A0A2 := by decide
theorem test_stcw : (stepped 0x53000000 { onBlock1 with cw := 0x9617A0A2 }).map (·.cwm) =
    some [(4, 0x96), (5, 0x17), (6, 0xA0), (7, 0xA2)] := by decide

/-- 95 2.5 and 2.8: `DimensionMismatch` before `BadBlockIndex`, and `BLK` read unsigned. -/
theorem test_guard : statusAfter 0x60000000 { State.reset.engine with imgW := 3, imgH := 0, blk := 99 } = some 0x0A ∧
    statusAfter 0x50000000 { State.reset.engine with imgW := 4, imgH := 4, blk := 0x8000000000000000 } = some 0x0D ∧
    statusAfter 0x61000000 State.reset.engine = some 0x0D := by decide

/-! ### The commands that ask the table, at the example table of 95 -/

/-- The levels of `CHROMA_EX`. -/
def exampleLevels : List Rat :=
  [-7 / 20, -1 / 5, -3 / 20, -1 / 10, -77 / 1000, -11 / 200, -33 / 1000, -11 / 1000, 11 / 1000, 33 / 1000, 11 / 200,
    77 / 1000, 1 / 10, 3 / 20, 1 / 5, 7 / 20]

/-- `CHROMA_EX.chroma_of`. -/
def exampleLevel (i : Fin 16) : Rat := exampleLevels.getD i.val 0

/-- `NUM_Q` and `CHROMA_EX` (95, opening). -/
def exampleParams : Params Rat where
  num := numQ
  chroma :=
    { chromaOf := exampleLevel
      indexOf := nearestLookup numQ exampleLevel fun _ => 0
      legal := fun x => decide (-1 / 2 ≤ x ∧ x ≤ 1 / 2) }
  pixPowerOn := fun _ => (0, 0, 0)
  cwmPowerOn := fun _ => 0

/-- The engine after a command word, at the example table. -/
def exampleStep (word : CommandWord) (e : Engine Rat) : Option (Engine Rat) :=
  match engineStep exampleParams word e with
  | .ok t => some t
  | .error _ => none

/-- 95 2.3, third row of `QUANT`: ties away from zero, both ends of the legal range. -/
theorem test_quant : (exampleStep 0x30000000#32 { State.reset.engine with
      coeffs := ⟨1 / 2, 1 / 10, -1 / 10, 1 / 30, 1 / 2, -1 / 2⟩ }).map (·.quants) = some ⟨256, 2, -2, 1, 15, 0⟩ := by
  decide +kernel
theorem test_quant_illegal_chroma : (exampleStep 0x30000000#32 { State.reset.engine with
      coeffs := ⟨1 / 2, 0, 0, 0, 3 / 5, 1 / 10⟩ }).map (fun e => statusValue e.status) = some 0x0E := by decide +kernel

/-- 95 P3, line 6: block 1 of the 4 × 2 image. -/
theorem test_cblk : (exampleStep 0x60000000#32 { onBlock1 with
      pix := [(2, ⟨1 / 10, 1 / 10, -1 / 10⟩), (3, ⟨1 / 5, 1 / 5, -1 / 10⟩), (6, ⟨3 / 10, 1 / 10, -3 / 10⟩),
        (7, ⟨2 / 5, 1 / 5, -3 / 10⟩)] }).map (fun e => (e.coeffs, e.quants, e.cw, e.cwm)) =
    some (⟨1 / 4, 1 / 10, 1 / 20, 0, 3 / 20, -1 / 5⟩, ⟨128, 2, 1, 0, 13, 1⟩, 0x400820D1,
      [(4, 0x40), (5, 0x08), (6, 0x20), (7, 0xD1)]) := by decide +kernel

/-- 95 P3, line 10. -/
theorem test_dblk : (exampleStep 0x61000000#32 { onBlock1 with
      cwm := [(4, 0x40), (5, 0x08), (6, 0x20), (7, 0xD1)] }).map (·.pix) =
    some [(2, ⟨129 / 2555, 3 / 20, -1 / 5⟩), (3, ⟨1409 / 7665, 3 / 20, -1 / 5⟩), (6, ⟨2431 / 7665, 3 / 20, -1 / 5⟩),
      (7, ⟨1151 / 2555, 3 / 20, -1 / 5⟩)] := by decide +kernel

/-! ### Host transactions, the layer of several engines, the assembler -/

/-- With nothing pending a step changes nothing (assumption log 7). -/
theorem test_idle : step State.reset = .next State.reset := rfl

/-- A write of more than 32 bits to `CW` (95 2.4, last line). -/
theorem test_write_cw : (intRegWrite State.reset.engine 0x0E 0x1234567890ABCDEF).bind (fun e => intRegRead e 0x0E) =
    some 0x0000000090ABCDEF := by decide

/-- Two engines on a 4 × 2 image; engine 0 has been given block 1. -/
def twoEngines (second : Engine Rat) : MultiEngine Rat :=
  { engines := [onBlock1, second], pix := [], cwm := [], imgW := 4, imgH := 2
    given := [(1, 0)], written := [], touched := [(.codeword 1, 0)], replies := [] }

/-- 60_exceptions.md R246: a block of another engine, and other dimensions, whether `block_guard` passes or not. -/
theorem test_shared_system_refused :
    (twoEngines onBlock1).step exampleParams (.cmd 1 0x53000000#32) = .error (.blockGivenTwice 1) ∧
    (twoEngines { onBlock1 with imgW := 8, blk := 3 }).step exampleParams (.cmd 1 0x53000000#32) =
      .error (.dimensionsDiffer 1) ∧
    (twoEngines { onBlock1 with imgW := 3 }).step exampleParams (.cmd 1 0x53000000#32) = .error (.dimensionsDiffer 1) := by
  decide

/-- 60_exceptions.md R246, 93_implementation_defined.md U8: a host write races a command of another engine where
there is "no order between them". -/
theorem test_racing_host_write :
    (twoEngines onBlock1).step exampleParams (.access 1 (.byteWrite 7 0xA2)) = .error (.hostWriteRaces (.codeword 1)) ∧
    (((twoEngines onBlock1).step exampleParams .meet).bind fun m =>
      (m.step exampleParams (.access 1 (.byteWrite 7 0xA2))).map (·.cwm)) = .ok [(7, 0xA2)] ∧
    ((twoEngines onBlock1).step exampleParams (.access 0 (.byteWrite 7 0xA2))).map (·.cwm) = .ok [(7, 0xA2)] := by
  decide

/-- Engines started by reset, each driven by its own stream (60_exceptions.md R246, 10_state.md R33). -/
theorem test_engine_started_by_reset (d : UnspecifiedRegisters Rat) :
    ((MultiEngine.start [d] [] [] 4 2).step exampleParams (.access 0 (.regRead 0x03))).map (·.replies) =
      .ok [(0, .register 0)] := rfl
/-- 41_block_transform.md R147 at a width of 4. -/
theorem test_block_of_pixel : [0, 1, 2, 3, 4, 5, 6, 7, 8].map (blockOfPixel 4) = [0, 0, 1, 1, 0, 0, 1, 1, 2] := by decide

/-- The examples of 30_encoding.md R97, a negative register value, and two operands that do not fit. -/
theorem test_assembler :
    (assembleLine ⟨none, none⟩ "getu 9, 23".toList).map (·.1) = some [.cmd 0x12000917#32] ∧
    (assembleLine ⟨none, none⟩ "FITSS 5 ; a comment".toList).map (·.1) = some [.cmd 0x11000500#32] ∧
    (assembleLine ⟨none, none⟩ "wr val, -3".toList).map (·.1) =
      some [.access (.regWrite 0x01 0xFFFFFFFFFFFFFFFD#64)] ∧
    assembleLine ⟨none, none⟩ "getu 128, 0".toList = none ∧ assembleLine ⟨none, none⟩ "getu 1, 64".toList = none := by
  decide +kernel
theorem test_compress_all : (assembleLine ⟨some 4, some 2⟩ "compress_all".toList).map (·.1) =
    some [.access (.regWrite 0x05 0), .cmd 0x60000000#32, .access (.regWrite 0x05 1), .cmd 0x60000000#32] := by
  decide +kernel

/-- More blocks than `BLK` has values: refused (assumption log 17). -/
theorem test_compress_all_too_many_blocks :
    assembleLine ⟨some 0xFFFFFFFFFFFFFFFE, some 0xFFFFFFFFFFFFFFFE⟩ "compress_all".toList = none := by decide +kernel

/-! ### Witnesses: the hypotheses of each obligation can be met, at boundary values of every clause -/

/-- A machine with one transaction to perform. -/
def pendingOne (e : Engine Config.F) (ev : HostEvent Config.F) : State := { onEngine e with pending := [ev] }

theorem witness_DecodeOfEncode : (Instr.getu 127 63).wellFormed = true ∧ (Instr.fitsu 0).wellFormed = true := by decide
theorem witness_EncodeOfDecode : decode 0x12007F3F#32 = .command (.getu 127 63) := by decide
theorem witness_OtherWordsAreIllegal :
    (pendingOne onBlock1 (.cmd 0x02000000#32)).pending = [.cmd 0x02000000#32] ∧
    ∀ i : Instr, i.wellFormed = true → encode i ≠ 0x02000000#32 := by
  refine ⟨rfl, fun i h he => ?_⟩
  have key : Laws.EncodedOpcode.Statement i → Laws.opcodeOf i = 2 := fun k => by
    rw [← k h, he]; decide
  cases i <;> first
    | exact absurd (key Laws.EncodedOpcode.nop) (by decide)
    | exact absurd (key Laws.EncodedOpcode.clrerr) (by decide)
    | exact absurd (key (Laws.EncodedOpcode.fitsu _)) (by simp [Laws.opcodeOf])
    | exact absurd (key (Laws.EncodedOpcode.fitss _)) (by simp [Laws.opcodeOf])
    | exact absurd (key (Laws.EncodedOpcode.getu _ _)) (by simp [Laws.opcodeOf])
    | exact absurd (key (Laws.EncodedOpcode.gets _ _)) (by simp [Laws.opcodeOf])
    | exact absurd (key (Laws.EncodedOpcode.setu _ _)) (by simp [Laws.opcodeOf])
    | exact absurd (key (Laws.EncodedOpcode.sets _ _)) (by simp [Laws.opcodeOf])
    | exact absurd (key (Laws.EncodedOpcode.s2u _)) (by simp [Laws.opcodeOf])
    | exact absurd (key (Laws.EncodedOpcode.u2s _)) (by simp [Laws.opcodeOf])
    | exact absurd (key Laws.EncodedOpcode.btfwd) (by decide)
    | exact absurd (key Laws.EncodedOpcode.btinv) (by decide)
    | exact absurd (key Laws.EncodedOpcode.quant) (by decide)
    | exact absurd (key Laws.EncodedOpcode.dequant) (by decide)
    | exact absurd (key Laws.EncodedOpcode.pack) (by decide)
    | exact absurd (key Laws.EncodedOpcode.unpack) (by decide)
    | exact absurd (key Laws.EncodedOpcode.ldpx) (by decide)
    | exact absurd (key Laws.EncodedOpcode.stpx) (by decide)
    | exact absurd (key Laws.EncodedOpcode.ldcw) (by decide)
    | exact absurd (key Laws.EncodedOpcode.stcw) (by decide)
    | exact absurd (key Laws.EncodedOpcode.cblk) (by decide)
    | exact absurd (key Laws.EncodedOpcode.dblk) (by decide)
theorem witness_StepRunsDecodedCommand :
    (pendingOne onBlock1 (.cmd 0x53000000#32)).pending = [.cmd 0x53000000#32] ∧
    decode 0x53000000#32 = .command .stcw ∧
    (pendingOne onBlock1 (.access (.pixRead 7))).pending = [.access (.pixRead 7)] := ⟨rfl, by decide, rfl⟩
theorem witness_AccessGoesOnIffAdmitted :
    (pendingOne onBlock1 (.access (.regRead 0))).pending = [.access (.regRead 0)] ∧
    Admitted onBlock1 (.regWrite 0x0E 0) ∧ Admitted onBlock1 (.regRead 0x02) ∧ ¬Admitted onBlock1 (.regWrite 0x02 0) ∧
    ¬Admitted onBlock1 (.regRead 0x0F) ∧ Admitted onBlock1 (.fregWrite 0x2B 0) ∧ ¬Admitted onBlock1 (.fregWrite 0x2C 0) ∧
    Admitted onBlock1 (.fregRead 0x30) ∧ ¬Admitted onBlock1 (.fregRead 0x36) ∧
    Admitted onBlock1 (.pixRead 7) ∧ ¬Admitted onBlock1 (.pixRead 8) ∧
    Admitted onBlock1 (.byteWrite 7 0) ∧ ¬Admitted onBlock1 (.byteWrite 8 0) :=
  ⟨rfl, by simp [Admitted], by simp [Admitted], by simp [Admitted], by simp [Admitted], by simp [Admitted],
    by simp [Admitted], by simp [Admitted], by simp [Admitted], by unfold Admitted; decide, by unfold Admitted; decide,
    by unfold Admitted; decide, by unfold Admitted; decide⟩
theorem witness_IntRegisterWriteThenRead :
    Admitted onBlock1 (.regWrite 0x00 1) ∧ Admitted onBlock1 (.regWrite 0x0E 0xFFFFFFFFFFFFFFFF) := by simp [Admitted]
theorem witness_NumRegisterWriteThenRead :
    Admitted onBlock1 (.fregWrite 0x20 1) ∧ Admitted onBlock1 (.fregWrite 0x2B 1) ∧
    Admitted onBlock1 (.fregWrite 0x30 1) ∧ Admitted onBlock1 (.fregWrite 0x35 1) := by simp [Admitted]
/-- The last pixel, the last byte, and the first and the last number of each list. -/
theorem witness_ReadsReturnAndChangeNothing : 7 < asU onBlock1.imgW * asU onBlock1.imgH ∧
    7 < 4 * (asU onBlock1.imgW / 2) * (asU onBlock1.imgH / 2) ∧ (intRegRead onBlock1 0x00 = some 0) ∧
    (intRegRead onBlock1 0x0E = some 0) ∧ numRegRead onBlock1 0x20 = some 0 ∧ numRegRead onBlock1 0x35 = some 0 := by
  decide
theorem witness_HostMemoryWriteThenRead : 7 < asU onBlock1.imgW * asU onBlock1.imgH ∧
    7 < 4 * (asU onBlock1.imgW / 2) * (asU onBlock1.imgH / 2) := by decide
theorem witness_PlatformResetClearsControl : (pendingOne onBlock1 .reset).pending = [.reset] := rfl
theorem witness_FieldArithmetic : (2 ^ 64 - 1 < 2 ^ 64 ∧ 64 + 0 ≤ 64 ∧ 2 ^ 64 - 1 < 2 ^ 64) ∧ (1 + 63 ≤ 64 ∧ 1 < 2 ^ 1) ∧
    0 + 64 ≤ 64 ∧ 0 < 2 ^ 0 := by decide
theorem witness_SetThenGetAndConversionLaws :
    (2 ^ 64 - 1 < 2 ^ 64 ∧ 1 ≤ 9 ∧ 9 + 55 ≤ 64 ∧ 511 < 2 ^ 9 ∧ 55 + 0 ≤ 64 ∧ 0 + 55 ≤ 55) ∧
    (1 ≤ 64 ∧ -(2 ^ (64 - 1)) ≤ (-(2 ^ 63) : Int) ∧ (-(2 ^ 63) : Int) ≤ 2 ^ (64 - 1) - 1) ∧ 1 ≤ 1 ∧ 1 < 2 ^ 1 := by decide

/-- The boundary widths of 40_bitfield_codec.md R113, legal and illegal. -/
theorem witness_FitsuResult_FitssResult : (1 ≤ 1 ∧ 1 ≤ 64) ∧ (1 ≤ 64 ∧ 64 ≤ 64) ∧ (0 = 0 ∨ 64 < 0) ∧ (65 = 0 ∨ 64 < 65) := by
  decide
theorem witness_GetuResult_GetsResult : 64 + 0 ≤ 64 ∧ 1 + 63 ≤ 64 ∧ 0 + 63 ≤ 64 ∧ 64 < 64 + 1 ∧ 64 < 127 + 63 := by decide
theorem witness_SetuResult : (1 ≤ 9 ∧ 9 + 55 ≤ 64 ∧ (onEngine (withWords 0 511)).engine.val.toNat < 2 ^ 9) ∧
    2 ^ 9 ≤ (onEngine (withWords 0 512)).engine.val.toNat ∧ (0 = 0 ∨ 64 < 0 + 63) ∧ (9 = 0 ∨ 64 < 9 + 56) := by decide
theorem witness_SetsResult_SignedToUnsignedResult :
    (1 ≤ 5 ∧ 5 + 59 ≤ 64 ∧ -(2 ^ (5 - 1)) ≤ (onEngine (withWords 0 (-16))).engine.val.toInt ∧
      (onEngine (withWords 0 (-16))).engine.val.toInt ≤ 2 ^ (5 - 1) - 1) ∧
    (-(2 ^ (5 - 1)) ≤ (onEngine (withWords 0 15)).engine.val.toInt ∧
      (onEngine (withWords 0 15)).engine.val.toInt ≤ 2 ^ (5 - 1) - 1) ∧
    (onEngine (withWords 0 (-17))).engine.val.toInt < -(2 ^ (5 - 1)) ∧
    2 ^ (5 - 1) - 1 < (onEngine (withWords 0 16)).engine.val.toInt := by decide
theorem witness_UnsignedToSignedResult : (1 ≤ 5 ∧ 5 ≤ 64 ∧ (onEngine (withWords 0 31)).engine.val.toNat < 2 ^ 5) ∧
    2 ^ 5 ≤ (onEngine (withWords 0 32)).engine.val.toNat ∧ (onEngine (withWords 0 15)).engine.val.toNat < 2 ^ (5 - 1) ∧
    ¬(onEngine (withWords 0 16)).engine.val.toNat < 2 ^ (5 - 1) := by decide

theorem witness_FieldCommandLaws :
    (1 ≤ 64 ∧ 64 + 0 ≤ 64) ∧
    (∃ a b, exec (.sets 5 18) (onEngine (withWords 0 16)) = .next a ∧ exec (.s2u 5) (onEngine (withWords 0 16)) = .next b ∧
      a.engine.status.err = 1) ∧
    (∃ a b, exec (.setu 9 23) (onEngine (withWords 0 511)) = .next a ∧ a.engine.status.err = 0 ∧
      exec (.getu 9 23) a = .next b) ∧
    (∃ a b, exec (.sets 5 59) (onEngine (withWords 0 (-16))) = .next a ∧ a.engine.status.err = 0 ∧
      exec (.gets 5 59) a = .next b) ∧
    (∃ a b c d, 18 + 5 ≤ 23 ∧ exec (.sets 5 18) ((onEngine onBlock1).withVal (-3)) = .next a ∧
      exec (.setu 9 23) (a.withVal 300) = .next b ∧ a.engine.status.err = 0 ∧ b.engine.status.err = 0 ∧
      exec (.setu 9 23) ((onEngine onBlock1).withVal 300) = .next c ∧ exec (.sets 5 18) (c.withVal (-3)) = .next d) :=
  ⟨by decide, ⟨_, _, rfl, rfl, by decide⟩, ⟨_, _, rfl, by decide, rfl⟩, ⟨_, _, rfl, by decide, rfl⟩,
    ⟨_, _, _, _, by decide, rfl, rfl, by decide, by decide, rfl, rfl⟩⟩
theorem witness_ForwardTransformResult_InverseTransformResult :
    onBlock1.samples = uniformSamples 0 ∧ onBlock1.coeffs = ⟨0, 0, 0, 0, 0, 0⟩ := ⟨rfl, rfl⟩
theorem witness_RoundingAndClamping : (0 : Rat) ≤ 0 ∧ (-1 / 2 : Rat) < 0 ∧ (-3 / 10 : Rat) ≤ 3 / 10 := by decide +kernel

/-- The legal range of the machine's table holds a value (assumption log 2). -/
theorem witness_legal_chroma : configChroma.legal Config.chromaLegalPoint = true := by
  simp [configChroma, configLegal]

theorem witness_QuantResult_QuantThenPackSucceeds_LossyBound :
    CoeffsInDomain ⟨0, 7, -7, 0, Config.chromaLegalPoint, Config.chromaLegalPoint⟩ ∧
    CoeffsInDomain ⟨1, 3 / 10, -3 / 10, 0, Config.chromaLegalPoint, Config.chromaLegalPoint⟩ ∧
    ¬CoeffsInDomain ⟨-1 / 100, 0, 0, 0, Config.chromaLegalPoint, Config.chromaLegalPoint⟩ ∧
    ¬CoeffsInDomain ⟨101 / 100, 0, 0, 0, Config.chromaLegalPoint, Config.chromaLegalPoint⟩ := by
  refine ⟨⟨?_, ?_, witness_legal_chroma, witness_legal_chroma⟩, ⟨?_, ?_, witness_legal_chroma, witness_legal_chroma⟩,
    fun h => absurd h.1 ?_, fun h => absurd h.2.1 ?_⟩ <;> norm_num
theorem witness_ClampOrdersAgree_LossyBound : (3 / 10 : Rat) ≤ 3 / 10 ∧ (-(3 / 10) : Rat) ≤ 3 / 10 ∧ (3 / 10 : Rat) < 31 / 100 ∧
    (-31 / 100 : Rat) < -(3 / 10) := by norm_num
theorem witness_DequantResult_PackResult :
    QuantsInRange ⟨511, 15, -16, -5, 0, 15⟩ ∧ ¬QuantsInRange ⟨512, 0, 0, 0, 0, 0⟩ ∧ ¬QuantsInRange ⟨0, 16, 0, 0, 0, 0⟩ ∧
    ¬QuantsInRange ⟨0, 0, -17, 0, 0, 0⟩ ∧ ¬QuantsInRange ⟨0, 0, 0, 0, 16, 0⟩ := by unfold QuantsInRange; decide
theorem witness_UnpackResult : onBlock1.cw = 0 := rfl
theorem witness_PackUnpackBijection : TupleInRange ⟨511, -16, 15, 0, 15, 0⟩ ∧ 2 ^ 32 - 1 < 2 ^ 32 ∧
    QuantsInRange (onEngine { onBlock1 with quants := ⟨511, -16, 15, 0, 15, 0⟩ }).engine.quants := by
  unfold TupleInRange QuantsInRange; decide
theorem witness_ByteOrder : ([0x96, 0x17, 0xA0, 0xA2] : List Byte).length = 4 := rfl
theorem witness_BlockGuardErrors :
    (asU (onEngine { onBlock1 with imgW := 3 }).engine.imgW % 2 = 1) ∧
    (asU (onEngine { onBlock1 with blk := 2 }).engine.imgW % 2 = 0 ∧
      asU (onEngine { onBlock1 with blk := 2 }).engine.imgH % 2 = 0 ∧
      (asU (onEngine { onBlock1 with blk := 2 }).engine.imgW / 2) *
        (asU (onEngine { onBlock1 with blk := 2 }).engine.imgH / 2) ≤
        asU (onEngine { onBlock1 with blk := 2 }).engine.blk) ∧ Instr.cblk ∈ [Instr.ldpx, .stpx, .ldcw, .stcw, .cblk, .dblk] := by
  decide
theorem witness_BlocksPartitionTheImage : 4 % 2 = 0 ∧ 2 % 2 = 0 ∧ 1 < (4 / 2) * (2 / 2) ∧ 7 < 4 * 2 := by decide
/-- For LoadPixelsResult, StorePixelsResult, LoadCodewordResult, StoreCodewordResult and DecompressBlockResult: the
last block passes, the next one and an odd height do not. -/
theorem witness_BlockReady : BlockReady onBlock1 ∧ ¬BlockReady { onBlock1 with blk := 2 } ∧
    ¬BlockReady { onBlock1 with imgH := 3 } := by unfold BlockReady; decide

/-- The four pixels of the last block hold luma `y` and a legal chroma. -/
def uniformBlock (y : Config.F) : Engine Config.F :=
  { onBlock1 with
    pix := [(2, ⟨y, Config.chromaLegalPoint, Config.chromaLegalPoint⟩),
      (3, ⟨y, Config.chromaLegalPoint, Config.chromaLegalPoint⟩),
      (6, ⟨y, Config.chromaLegalPoint, Config.chromaLegalPoint⟩),
      (7, ⟨y, Config.chromaLegalPoint, Config.chromaLegalPoint⟩)] }

theorem uniformBlock_ready (y : Config.F) : BlockReady (uniformBlock y) := witness_BlockReady.1

theorem uniformBlock_forward (y : Config.F) :
    blockForward numQ (blockSamples (uniformBlock y)) = ⟨y, 0, 0, 0, Config.chromaLegalPoint, Config.chromaLegalPoint⟩ := by
  have h : blockSamples (uniformBlock y) = ⟨y, y, y, y, Config.chromaLegalPoint, Config.chromaLegalPoint,
      Config.chromaLegalPoint, Config.chromaLegalPoint, Config.chromaLegalPoint, Config.chromaLegalPoint,
      Config.chromaLegalPoint, Config.chromaLegalPoint⟩ := by
    have hp : blockPixels (asU (uniformBlock y).imgW) (asU (uniformBlock y).blk) = ⟨2, 3, 6, 7⟩ := by
      show blockPixels (asU 4) (asU 1) = _
      decide
    simp only [blockSamples, hp]
    simp [Engine.pixel, Memory.read, uniformBlock]
  rw [h]
  simp only [blockForward, average4, numQ_add, numQ_sub, numQ_divConst, Coeffs.mk.injEq]
  refine ⟨by ring, by ring, by ring, by ring, by ring, by ring⟩

theorem witness_CompressBlockResult : BlockReady (onEngine (uniformBlock 1)).engine ∧
    CoeffsInDomain (blockForward numQ (blockSamples (onEngine (uniformBlock 1)).engine)) ∧
    ¬CoeffsInDomain (blockForward numQ (blockSamples (onEngine (uniformBlock (3 / 2))).engine)) := by
  refine ⟨uniformBlock_ready 1, ?_, ?_⟩
  · show CoeffsInDomain (blockForward numQ (blockSamples (uniformBlock 1)))
    rw [uniformBlock_forward]
    exact ⟨by norm_num, by norm_num, witness_legal_chroma, witness_legal_chroma⟩
  · show ¬CoeffsInDomain (blockForward numQ (blockSamples (uniformBlock (3 / 2))))
    rw [uniformBlock_forward]
    exact fun h => absurd h.2.1 (by norm_num)

theorem uniformBlock_guard (y : Config.F) : (uniformBlock y).blockGuard = .ok 1 :=
  (blockGuard_ok_iff _ _).mpr (by
    show asU 4 % 2 = 0 ∧ asU 2 % 2 = 0 ∧ asU 1 < (asU 4 / 2) * (asU 2 / 2) ∧ 1 = asU 1
    decide)

theorem uniformBlock_read (y : Config.F) :
    (uniformBlock y).readBlock configParams 1 = .ok (blockSamples (uniformBlock y)) :=
  (readBlock_ok_iff configParams (uniformBlock y) 1 _).mpr ⟨by
    show (blockPixels (asU 4) 1).p1 < asU 4 * asU 2 ∧ (blockPixels (asU 4) 1).p2 < asU 4 * asU 2 ∧
      (blockPixels (asU 4) 1).p3 < asU 4 * asU 2 ∧ (blockPixels (asU 4) 1).p4 < asU 4 * asU 2
    decide, rfl⟩

/-- `CBLK` on the uniform block of luma 1 succeeds. -/
theorem uniformBlock_compresses : ∃ t, exec .cblk (onEngine (uniformBlock 1)) = .next t ∧ t.engine.status.err = 0 := by
  have hd : quantDomain configParams (blockForward configParams.num (blockSamples (uniformBlock 1))) = true := by
    rw [show configParams.num = numQ from rfl, uniformBlock_forward]
    simp [quantDomain, configParams, witness_legal_chroma]
  have hw : ∀ cw, (uniformBlock 1).writeCodeword 1 cw =
      .ok { uniformBlock 1 with cwm := storeBytes (uniformBlock 1).cwm (4 * 1) (be4 cw) } := fun cw =>
    (writeCodeword_ok_iff _ _ _ _).mpr ⟨by decide, rfl⟩
  have hc : ∃ e, cblkCommand configParams (uniformBlock 1) = .ok (.done e) := by
    simp only [cblkCommand, uniformBlock_guard, uniformBlock_read, hd, hw, if_true]
    exact ⟨_, rfl⟩
  obtain ⟨e, hc⟩ := hc
  exact ⟨_, (runBlockCommand_next_iff _ _ _).mpr ⟨_, hc, rfl⟩, rfl⟩

/-- `CBLK` on the uniform block of luma 3/2 fails its domain check. -/
theorem uniformBlock_too_bright :
    exec .cblk (onEngine (uniformBlock (3 / 2))) = .next ((onEngine (uniformBlock (3 / 2))).failsWith 6) := by
  have hd : quantDomain configParams (blockForward configParams.num (blockSamples (uniformBlock (3 / 2)))) = false := by
    rw [show configParams.num = numQ from rfl, uniformBlock_forward]
    have h : (1 : Rat) < 3 / 2 := by norm_num
    simp [quantDomain, configParams, h]
  refine (runBlockCommand_next_iff _ _ _).mpr ⟨.raise .domainViolation, ?_, rfl⟩
  show cblkCommand configParams (uniformBlock (3 / 2)) = _
  simp only [cblkCommand, uniformBlock_guard, uniformBlock_read, hd]
  rfl

/-- `DBLK` on a block of a 4 × 2 image goes on, and the image is 4 × 2 after it. -/
theorem ready_decompresses {s : State} (h1 : s.engine.imgW = 4) (h2 : s.engine.imgH = 2) (h3 : asU s.engine.blk < 2) :
    ∃ t, exec .dblk s = .next t ∧ t.engine.status.err = 0 ∧ t.engine.imgW = 4 ∧ t.engine.imgH = 2 := by
  have e1 : asU s.engine.imgW = 4 := by rw [h1]; rfl
  have e2 : asU s.engine.imgH = 2 := by rw [h2]; rfl
  have hg := (blockGuard_ok_iff s.engine (asU s.engine.blk)).mpr (by rw [e1, e2]; exact ⟨rfl, rfl, h3, rfl⟩)
  have hr := (readCodeword_ok_iff configParams s.engine (asU s.engine.blk) _).mpr
    ⟨by simp only [Engine.cwmSize, cwBytes, blockCount, e1, e2]; omega, rfl⟩
  have hw : ∀ x, s.engine.writeBlock (asU s.engine.blk) x = .ok _ := fun x =>
    (writeBlock_ok_iff s.engine _ (asU s.engine.blk) x).mpr
      ⟨by simp only [blockPixels, Engine.pixSize, e1, e2]; omega, rfl⟩
  have hc : ∃ e, dblkCommand configParams s.engine = .ok (.done e) ∧ e.imgW = 4 ∧ e.imgH = 2 := by
    simp only [dblkCommand, hg, hr, hw]
    exact ⟨_, rfl, h1, h2⟩
  obtain ⟨e, hc, h4, h5⟩ := hc
  exact ⟨_, (runBlockCommand_next_iff _ _ _).mpr ⟨_, hc, rfl⟩, rfl, h4, h5⟩

theorem witness_PipelineIsTheFiveCommands :
    (∃ t, exec .cblk (onEngine (uniformBlock 1)) = .next t ∧ t.engine.status.err = 0) ∧
    (∃ t, exec .dblk (onEngine onBlock1) = .next t ∧ t.engine.status.err = 0) ∧
    exec .cblk (onEngine (uniformBlock (3 / 2))) = .next ((onEngine (uniformBlock (3 / 2))).failsWith 6) :=
  ⟨uniformBlock_compresses,
    (ready_decompresses (s := onEngine onBlock1) rfl rfl (by decide)).imp fun _ h => ⟨h.1, h.2.1⟩, uniformBlock_too_bright⟩
theorem witness_UniformBlockRoundTrip : BlockReady (onEngine (uniformBlock 1)).engine ∧
    (∀ p ∈ [2, 3, 6, 7], (onEngine (uniformBlock 1)).engine.pixel configParams p =
      ⟨1, Config.chromaLegalPoint, Config.chromaLegalPoint⟩) ∧
    (⟨2, 3, 6, 7⟩ : BlockPixels) = blockPixels (asU (onEngine (uniformBlock 1)).engine.imgW)
      (asU (onEngine (uniformBlock 1)).engine.blk) ∧ configChroma.legal Config.chromaLegalPoint = true :=
  ⟨uniformBlock_ready 1, by simp; exact ⟨rfl, rfl, rfl, rfl⟩, by show _ = blockPixels (asU 4) (asU 1); decide,
    witness_legal_chroma⟩
theorem witness_BlocksAreIndependent :
    (Instr.dblk = .cblk ∨ Instr.dblk = .dblk) ∧ BlockReady ((onEngine onBlock1).atBlock 0).engine ∧
    BlockReady ((onEngine onBlock1).atBlock 1).engine ∧ (0 : Word64) ≠ 1 ∧
    ∃ a b c d, exec .dblk ((onEngine onBlock1).atBlock 0) = .next a ∧ exec .dblk (a.atBlock 1) = .next b ∧
      exec .dblk ((onEngine onBlock1).atBlock 1) = .next c ∧ exec .dblk (c.atBlock 0) = .next d := by
  obtain ⟨a, ha, -, aw, ah⟩ := ready_decompresses (s := (onEngine onBlock1).atBlock 0) rfl rfl (by decide)
  obtain ⟨b, hb, -⟩ := ready_decompresses (s := a.atBlock 1) aw ah (by decide : asU 1 < 2)
  obtain ⟨c, hc, -, cw, ch⟩ := ready_decompresses (s := (onEngine onBlock1).atBlock 1) rfl rfl (by decide)
  obtain ⟨d, hd, -⟩ := ready_decompresses (s := c.atBlock 0) cw ch (by decide : asU 0 < 2)
  exact ⟨.inr rfl, by unfold BlockReady; decide, by unfold BlockReady; decide, by decide, a, b, c, d, ha, hb, hc, hd⟩
theorem witness_FailureChangesOnlyStatus :
    ∃ t, exec (.fitsu 0) (onEngine onBlock1) = .next t ∧ t.engine.status.err ≠ 0 := ⟨_, rfl, by decide⟩
theorem witness_StatusFieldWriters : (∃ t, exec .clrerr (onEngine onBlock1) = .next t) ∧
    ∃ t, hostAccess (.regWrite 0x05 1) (onEngine onBlock1) = .next t := ⟨⟨_, rfl⟩, ⟨_, rfl⟩⟩
theorem witness_WriteSetsAreComplete :
    (∃ t, exec .stcw (onEngine onBlock1) = .next t) ∧ Group.cwmRest ∉ writeSet .stcw ∧ Group.pix ∉ writeSet .stcw ∧
    ∃ t, exec .nop (onEngine onBlock1) = .next t ∧ Group.anyErr ∉ writeSet .nop ∧ t.engine.status.err = 0 := by
  exact ⟨⟨_, rfl⟩, by decide, by decide, ⟨_, rfl, by decide, by decide⟩⟩
theorem witness_ReadSetsAreComplete :
    (∀ g ∈ readSet (.getu 9 23), g.same (withWords 7 0) (withWords 7 1)) ∧
    (∃ t, exec (.getu 9 23) (onEngine (withWords 7 0)) = .next t) ∧
    ∃ t, exec (.getu 9 23) (onEngine (withWords 7 1)) = .next t := by
  refine ⟨?_, ⟨_, rfl⟩, ⟨_, rfl⟩⟩
  simp [readSet, Group.same, withWords]
theorem witness_StepKeepsInvariant : (pendingOne onBlock1 (.cmd 0x53000000#32)).Inv ∧
    (∃ t, step (pendingOne onBlock1 (.cmd 0x53000000#32)) = .next t) ∧
    ∃ t, step (pendingOne onBlock1 (.cmd 0xFFFFFFFF#32)) = .next t := by
  refine ⟨⟨by decide, rfl, rfl⟩, ⟨_, rfl⟩, ⟨_, rfl⟩⟩

end Sys2Proof.Tests
end

/-! PROOFS. Rounding half away from zero and clamping under `NUM_Q` (00_scope.md R13). -/

namespace Sys2Proof.Proofs

open Sys2Proof.Machine

/-! ### `rhaz` on the rationals -/

theorem rhazQ_of_nonneg {x : Rat} (h : 0 ≤ x) : rhazQ x = ⌊x + 1 / 2⌋ :=
  if_pos h

theorem rhazQ_of_neg {x : Rat} (h : x < 0) : rhazQ x = -⌊-x + 1 / 2⌋ :=
  if_neg (not_le.mpr h)

@[simp] theorem rhazQ_zero : rhazQ 0 = 0 := by
  rw [rhazQ_of_nonneg le_rfl, Int.floor_eq_iff]
  norm_num

/-- The two branches of `rhaz` mirror each other. -/
@[simp] theorem rhazQ_neg (x : Rat) : rhazQ (-x) = -rhazQ x := by
  obtain hneg | rfl | hpos := lt_trichotomy x 0
  · rw [rhazQ_of_nonneg (neg_nonneg.mpr hneg.le), rhazQ_of_neg hneg, neg_neg]
  · simp
  · rw [rhazQ_of_neg (neg_lt_zero.mpr hpos), rhazQ_of_nonneg hpos.le, neg_neg]

/-- On nonnegative values `rhaz` answers `n` exactly on the half-open interval of length 1 around `n`. -/
theorem rhazQ_eq_iff_of_nonneg {x : Rat} (h : 0 ≤ x) (n : Int) :
    rhazQ x = n ↔ (n : Rat) ≤ x + 1 / 2 ∧ x + 1 / 2 < n + 1 := by
  rw [rhazQ_of_nonneg h, Int.floor_eq_iff]

theorem rhazQ_nine_halves : rhazQ (9 / 2) = 5 := by
  rw [rhazQ_eq_iff_of_nonneg (by norm_num)]
  norm_num

theorem rhazQ_half : rhazQ (1 / 2) = 1 := by
  rw [rhazQ_eq_iff_of_nonneg (by norm_num)]
  norm_num

theorem rhazQ_below_half : rhazQ (49 / 100) = 0 := by
  rw [rhazQ_eq_iff_of_nonneg (by norm_num)]
  norm_num

/-! ### `clamp` on the rationals -/

/-- `clamp` under `NUM_Q` by the order of the rationals. -/
theorem numClamp_numQ (x lo hi : Rat) :
    numClamp numQ x lo hi = if x < lo then lo else if hi < x then hi else x := by
  simp only [numClamp, numLt_numQ, decide_eq_true_eq]

/-- Settles O29: the two branches of `rhaz`, its examples (the negative ones by `rhazQ_neg`), and `clamp`. -/
theorem roundingAndClamping : Obligations.RoundingAndClamping := by
  refine ⟨fun _ => rhazQ_of_nonneg, fun _ => rhazQ_of_neg, rhazQ_nine_halves, ?_, rhazQ_half, ?_, rhazQ_below_half,
    fun x lo hi _ => numClamp_numQ x lo hi⟩
  · rw [neg_div, rhazQ_neg, rhazQ_nine_halves]
  · rw [neg_div, rhazQ_neg, rhazQ_half]

end Sys2Proof.Proofs

/-! PROOFS. What a command can do, said once: the checks of each command in their order (60_exceptions.md R236),
what it leaves on success, and that `exec` ends in the one or the other. -/

namespace Sys2Proof.Proofs

open Sys2Proof.Machine

/-! ### Memories: what an element or byte holds after a store (20_memory.md R61, R63) -/

section Memories

variable {F : Type}

/-- What an element of `PIX` holds depends on its entry alone. -/
theorem pixel_congr (P : Params F) {e e' : Engine F} {p : Nat} (h : Memory.read e'.pix p = Memory.read e.pix p) :
    e'.pixel P p = e.pixel P p := by
  simp only [Engine.pixel, h]

/-- What a byte of `CWM` holds depends on its entry alone. -/
theorem byte_congr (P : Params F) {e e' : Engine F} {addr : Nat}
    (h : Memory.read e'.cwm addr = Memory.read e.cwm addr) : e'.byte P addr = e.byte P addr := by
  simp only [Engine.byte, h]

theorem read_storeBlock_outside (m : Memory (Pixel F)) (b : BlockPixels) (x : Samples F) {p : Nat}
    (h : p ∉ [b.p1, b.p2, b.p3, b.p4]) : Memory.read (storeBlock m b x) p = Memory.read m p := by
  simp only [List.mem_cons, List.not_mem_nil, or_false, not_or] at h
  obtain ⟨h1, h2, h3, h4⟩ := h
  rw [storeBlock, Memory.read_write_other _ _ h4, Memory.read_write_other _ _ h3, Memory.read_write_other _ _ h2,
    Memory.read_write_other _ _ h1]

/-- On the stored elements nothing of the old memory is left. -/
theorem read_storeBlock_inside (m m' : Memory (Pixel F)) (b : BlockPixels) (x : Samples F) {p : Nat}
    (h : p ∈ [b.p1, b.p2, b.p3, b.p4]) :
    Memory.read (storeBlock m' b x) p = Memory.read (storeBlock m b x) p := by
  simp only [storeBlock, Memory.read_write]
  split_ifs with h4 h3 h2 h1
  · rfl
  · rfl
  · rfl
  · rfl
  · simp [h1, h2, h3, h4] at h

/-- On the stored bytes nothing of the old memory is left. -/
theorem read_storeBytes_inside (m m' : Memory Byte) {addr c : Nat} {bytes : List Byte}
    (h : addr ≤ c ∧ c < addr + bytes.length) :
    Memory.read (storeBytes m' addr bytes) c = Memory.read (storeBytes m addr bytes) c := by
  rw [read_storeBytes, read_storeBytes, if_pos h, if_pos h]

theorem read_storeBytes_outside (m : Memory Byte) {addr c : Nat} {bytes : List Byte}
    (h : ¬(addr ≤ c ∧ c < addr + bytes.length)) :
    Memory.read (storeBytes m addr bytes) c = Memory.read m c := by
  rw [read_storeBytes, if_neg h]

theorem wf_storeBlock {m : Memory (Pixel F)} (h : Memory.wf m = true) (b : BlockPixels) (x : Samples F) :
    Memory.wf (storeBlock m b x) = true :=
  Memory.wf_write (Memory.wf_write (Memory.wf_write (Memory.wf_write h _ _) _ _) _ _) _ _

end Memories

/-! ### The checks and the effect of a command -/

/-- The error of one check: the kind where the condition fails. -/
def raiseUnless (legal : Bool) (kind : ErrorKind) : Option ErrorKind := if legal then none else some kind

/-- A command's result from its checks and from the engine it leaves where they pass. -/
def resultOf {F : Type} : Option ErrorKind → Engine F → CommandResult F
  | some kind, _ => .raise kind
  | none, e => .done e

/-- The error that `block_guard` raises, if any (44_memory_and_pipeline.md R200). -/
def guardCheck (e : Engine Config.F) : Option ErrorKind :=
  match e.blockGuard with
  | .error kind => some kind
  | .ok _ => none

/-- The codeword of the block in `BLK` as `CWM` holds it (44_memory_and_pipeline.md R203). -/
def blockCodeword (e : Engine Config.F) : Codeword := unbe4 (e.bytes configParams (4 * asU e.blk) 4)

/-- The codeword of a quantized block (43_codeword_packer.md R182). -/
def codewordOf (t : QuantTuple) : Codeword := BitVec.ofNat 32 (packWord t)

/-- The first error among a command's checks, in their order (60_exceptions.md R236). -/
def commandCheck (i : Instr) (e : Engine Config.F) : Option ErrorKind :=
  match i with
  | .nop | .clrerr | .btfwd | .btinv | .unpack => none
  | .fitsu width | .fitss width => raiseUnless (widthLegal width) .badDescriptor
  | .getu width lsb | .gets width lsb => raiseUnless (getDescriptorLegal width lsb) .badDescriptor
  | .setu width lsb =>
    (raiseUnless (setDescriptorLegal width lsb) .badDescriptor).or (raiseUnless (fitsU (asU e.val) width) .outOfRange)
  | .sets width lsb =>
    (raiseUnless (setDescriptorLegal width lsb) .badDescriptor).or (raiseUnless (fitsS (asS e.val) width) .outOfRange)
  | .s2u width =>
    (raiseUnless (widthLegal width) .badDescriptor).or (raiseUnless (fitsS (asS e.val) width) .outOfRange)
  | .u2s width =>
    (raiseUnless (widthLegal width) .badDescriptor).or (raiseUnless (fitsU (asU e.val) width) .outOfRange)
  | .quant => raiseUnless (quantDomain configParams e.coeffs) .domainViolation
  | .dequant | .pack => raiseUnless (quantsFit (quantsRead e.quants)) .outOfRange
  | .ldpx | .stpx | .ldcw | .stcw | .dblk => guardCheck e
  | .cblk =>
    (guardCheck e).or
      (raiseUnless (quantDomain configParams (blockForward configParams.num (blockSamples e))) .domainViolation)

/-- What a command leaves where its checks pass, before `STATUS.ERR` is written. -/
def commandEffect (i : Instr) (e : Engine Config.F) : Engine Config.F :=
  match i with
  | .nop => e
  | .clrerr => { e with status := statusClearAnyErr e.status }
  | .fitsu width => { e with status := statusSetFlag e.status (fitsU (asU e.val) width) }
  | .fitss width => { e with status := statusSetFlag e.status (fitsS (asS e.val) width) }
  | .getu width lsb => { e with val := pat64 (fieldGet (asU e.word) width lsb) }
  | .gets width lsb =>
    { e with val := pat64 (if width = 0 then 0 else sextField width (fieldGet (asU e.word) width lsb)) }
  | .setu width lsb => { e with word := pat64 (fieldInsert (asU e.word) width lsb (asU e.val)) }
  | .sets width lsb =>
    { e with word := pat64 (fieldInsert (asU e.word) width lsb (fieldPattern width (asS e.val))) }
  | .s2u width => { e with val := pat64 (asS e.val % 2 ^ width) }
  | .u2s width => { e with val := pat64 (sextField width (asU e.val)) }
  | .btfwd => { e with coeffs := blockForward configParams.num e.samples }
  | .btinv => { e with samples := blockInverse configParams.num e.coeffs }
  | .quant => { e with quants := quantsOf (quantize configParams e.coeffs) }
  | .dequant => { e with coeffs := dequantize configParams (quantsRead e.quants) }
  | .pack => { e with cw := codewordOf (quantsRead e.quants) }
  | .unpack => { e with quants := quantsOf (unpackWord e.cw.toNat) }
  | .ldpx => { e with samples := blockSamples e }
  | .stpx => { e with pix := storeBlock e.pix (blockPixels (asU e.imgW) (asU e.blk)) e.samples }
  | .ldcw => { e with cw := blockCodeword e }
  | .stcw => { e with cwm := storeBytes e.cwm (4 * asU e.blk) (be4 e.cw) }
  | .cblk =>
    let coeffs := blockForward configParams.num (blockSamples e)
    let tuple := quantize configParams coeffs
    { e with
      samples := blockSamples e, coeffs := coeffs, quants := quantsOf tuple, cw := codewordOf tuple
      cwm := storeBytes e.cwm (4 * asU e.blk) (be4 (codewordOf tuple)) }
  | .dblk =>
    let tuple := unpackWord (blockCodeword e).toNat
    let coeffs := dequantize configParams tuple
    { e with
      cw := blockCodeword e, quants := quantsOf tuple, coeffs := coeffs, samples := blockInverse configParams.num coeffs
      pix := storeBlock e.pix (blockPixels (asU e.imgW) (asU e.blk)) (blockInverse configParams.num coeffs) }

/-! ### The model's commands are their checks and their effect -/

@[simp] theorem raiseUnless_eq_some_iff (legal : Bool) (kind k : ErrorKind) :
    raiseUnless legal kind = some k ↔ legal = false ∧ kind = k := by
  cases legal <;> simp [raiseUnless]

@[simp] theorem resultOf_some {F : Type} (kind : ErrorKind) (e : Engine F) :
    resultOf (some kind) e = .raise kind := rfl

@[simp] theorem resultOf_none {F : Type} (e : Engine F) : resultOf none e = .done e := rfl

theorem resultOf_raiseUnless {F : Type} (legal : Bool) (kind : ErrorKind) (e : Engine F) :
    resultOf (raiseUnless legal kind) e = if legal then .done e else .raise kind := by
  cases legal <;> rfl

theorem resultOf_raiseUnless_or {F : Type} (legal : Bool) (kind : ErrorKind) (next : Option ErrorKind)
    (e : Engine F) :
    resultOf ((raiseUnless legal kind).or next) e = if legal then resultOf next e else .raise kind := by
  cases legal <;> rfl

/-! ### A block that passes the guard lies inside both memories (20_memory.md R68) -/

section BlockInside

/-- The last pixel of a block, which has the highest index, is below `IMG_W · IMG_H`. -/
theorem blockPixels_p4_lt {w h k : Nat} (hw : w % 2 = 0) (hh : h % 2 = 0) (hk : k < (w / 2) * (h / 2)) :
    (blockPixels w k).p4 < w * h := by
  obtain ⟨a, rfl⟩ := Nat.dvd_of_mod_eq_zero hw
  obtain ⟨b, rfl⟩ := Nat.dvd_of_mod_eq_zero hh
  rw [Nat.mul_div_cancel_left _ two_pos, Nat.mul_div_cancel_left _ two_pos] at hk
  have hcol : k % a < a := Nat.mod_lt _ (Nat.pos_of_mul_pos_right (by omega : 0 < a * b))
  have hrow : (k / a + 1) * a ≤ b * a := Nat.mul_le_mul_right a (Nat.div_lt_of_lt_mul hk)
  simp only [blockPixels, Nat.mul_div_cancel_left _ two_pos]
  nlinarith

variable {e : Engine Config.F} (h : BlockReady e)
include h

theorem blockPixels_inside :
    (blockPixels (asU e.imgW) (asU e.blk)).p1 < e.pixSize ∧ (blockPixels (asU e.imgW) (asU e.blk)).p2 < e.pixSize ∧
      (blockPixels (asU e.imgW) (asU e.blk)).p3 < e.pixSize ∧
      (blockPixels (asU e.imgW) (asU e.blk)).p4 < e.pixSize := by
  obtain ⟨hw, hh, hk⟩ := h
  have hlast := blockPixels_p4_lt hw hh hk
  simp only [blockPixels, Engine.pixSize] at hlast ⊢
  omega

theorem codeword_inside : 4 * asU e.blk + 4 ≤ e.cwmSize := by
  obtain ⟨-, -, hk⟩ := h
  simp only [Engine.cwmSize, cwBytes, blockCount]
  omega

theorem readBlock_ready : e.readBlock configParams (asU e.blk) = .ok (blockSamples e) :=
  (readBlock_ok_iff ..).mpr ⟨blockPixels_inside h, rfl⟩

theorem writeBlock_ready (x : Samples Config.F) : e.writeBlock (asU e.blk) x =
    .ok { e with pix := storeBlock e.pix (blockPixels (asU e.imgW) (asU e.blk)) x } :=
  (writeBlock_ok_iff ..).mpr ⟨blockPixels_inside h, rfl⟩

theorem readCodeword_ready : e.readCodeword configParams (asU e.blk) = .ok (blockCodeword e) :=
  (readCodeword_ok_iff ..).mpr ⟨codeword_inside h, rfl⟩

theorem writeCodeword_ready (cw : Codeword) : e.writeCodeword (asU e.blk) cw =
    .ok { e with cwm := storeBytes e.cwm (4 * asU e.blk) (be4 cw) } :=
  (writeCodeword_ok_iff ..).mpr ⟨codeword_inside h, rfl⟩

end BlockInside

/-- Both outcomes of `block_guard`. -/
theorem blockGuard_cases (e : Engine Config.F) :
    (∃ kind, e.blockGuard = .error kind ∧ guardCheck e = some kind) ∨
      (BlockReady e ∧ e.blockGuard = .ok (asU e.blk) ∧ guardCheck e = none) := by
  unfold guardCheck
  cases h : e.blockGuard with
  | error kind => exact .inl ⟨kind, rfl, rfl⟩
  | ok k =>
    obtain ⟨hw, hh, hk, rfl⟩ := (blockGuard_ok_iff e k).mp h
    exact .inr ⟨⟨hw, hh, hk⟩, rfl, rfl⟩

/-! ### The rule of a command is its checks and its effect -/

/-- The six commands on a block: the guard stops them, or their accesses are inside the memories. -/
theorem commandOf_block_eq {i : Instr} (hi : i ∈ [Instr.ldpx, .stpx, .ldcw, .stcw, .cblk, .dblk])
    (e : Engine Config.F) :
    commandOf configParams i e = .ok (resultOf (commandCheck i e) (commandEffect i e)) := by
  simp only [List.mem_cons, List.not_mem_nil, or_false] at hi
  obtain ⟨kind, hg, hc⟩ | ⟨hr, hg, hc⟩ := blockGuard_cases e
  · obtain rfl | rfl | rfl | rfl | rfl | rfl := hi <;>
      simp [commandOf, ldpxCommand, stpxCommand, ldcwCommand, stcwCommand, cblkCommand, dblkCommand, hg,
        commandCheck, hc]
  · obtain rfl | rfl | rfl | rfl | rfl | rfl := hi
    · simp [commandOf, ldpxCommand, hg, readBlock_ready hr, commandCheck, hc, commandEffect]
    · simp [commandOf, stpxCommand, hg, writeBlock_ready hr, commandCheck, hc, commandEffect]
    · simp [commandOf, ldcwCommand, hg, readCodeword_ready hr, commandCheck, hc, commandEffect]
    · simp [commandOf, stcwCommand, hg, writeCodeword_ready hr, commandCheck, hc, commandEffect]
    · simp only [commandOf, cblkCommand, hg, readBlock_ready hr, writeCodeword_ready hr, commandCheck, hc,
        Option.none_or, resultOf_raiseUnless]
      split <;> rfl
    · simp [commandOf, dblkCommand, hg, readCodeword_ready hr, writeBlock_ready hr, commandCheck, hc, commandEffect]

/-- Every command ends, as its checks and its effect say (70_reset_and_hazards.md R268). -/
theorem commandOf_eq (i : Instr) (e : Engine Config.F) :
    commandOf configParams i e = .ok (resultOf (commandCheck i e) (commandEffect i e)) := by
  cases i with
  | ldpx | stpx | ldcw | stcw | cblk | dblk => exact commandOf_block_eq (by simp) e
  | nop | clrerr | btfwd | btinv | unpack => rfl
  | fitsu width | fitss width | getu width lsb | gets width lsb | quant | dequant | pack =>
    rw [commandCheck, resultOf_raiseUnless]
    rfl
  | setu width lsb | sets width lsb | s2u width | u2s width =>
    rw [commandCheck, resultOf_raiseUnless_or, resultOf_raiseUnless]
    rfl

theorem exec_eq (i : Instr) (s : State) :
    exec i s = .next { s with
      engine := s.engine.finish (resultOf (commandCheck i s.engine) (commandEffect i s.engine)) } := by
  rw [exec_eq_runBlockCommand, runBlockCommand, commandOf_eq]

/-- All that a command can do: raise the first error of its checks, or leave its effect. -/
theorem exec_next_cases {i : Instr} {s t : State} (h : exec i s = .next t) :
    (∃ kind, commandCheck i s.engine = some kind ∧ t = { s with engine := s.engine.raiseError kind }) ∨
      (commandCheck i s.engine = none ∧ t = { s with engine := (commandEffect i s.engine).succeed }) := by
  rw [exec_eq] at h
  cases h
  cases commandCheck i s.engine with
  | some kind => exact .inl ⟨kind, rfl, rfl⟩
  | none => exact .inr ⟨rfl, rfl⟩

end Sys2Proof.Proofs

/-! PROOFS. What every step keeps: `STATUS.ERR` is never 7 and both memories stay in canonical form (10_state.md
R24, assumption log 5); who writes which field of `STATUS` (R25). -/

namespace Sys2Proof.Proofs

open Sys2Proof.Machine

/-! ### What a host transaction can do (45_control_and_host.md R222) -/

section HostWrites

variable {F : Type}

/-- A write of an integer register leaves everything outside the integer file alone, and `STATUS`. -/
theorem intRegWrite_frame {e e' : Engine F} {n : Nat} {data : Word64} (h : intRegWrite e n data = some e') :
    e'.status = e.status ∧ e'.samples = e.samples ∧ e'.coeffs = e.coeffs ∧ e'.pix = e.pix ∧ e'.cwm = e.cwm := by
  unfold intRegWrite at h
  split at h <;> cases h <;> exact ⟨rfl, rfl, rfl, rfl, rfl⟩

/-- A write of an `F`-typed register changes samples and coefficients alone. -/
theorem numRegWrite_frame {e e' : Engine F} {n : Nat} {v : F} (h : numRegWrite e n v = some e') :
    e' = { e with samples := e'.samples, coeffs := e'.coeffs } := by
  unfold numRegWrite at h
  split at h <;> cases h <;> rfl

/-- All that a write of the host can do to an engine. -/
theorem engineAccess_changed {P : Params F} {a : HostAccess F} {e e' : Engine F}
    (h : engineAccess P a e = .changed e') :
    (∃ n data, a = .regWrite n data ∧ intRegWrite e n data = some e') ∨
      (∃ n v, a = .fregWrite n v ∧ numRegWrite e n v = some e') ∨
      (∃ p x, a = .pixWrite p x ∧ e' = { e with pix := Memory.write e.pix p x }) ∨
      (∃ addr b, a = .byteWrite addr b ∧ e' = { e with cwm := Memory.write e.cwm addr b }) := by
  cases a with
  | regWrite n data =>
    simp only [engineAccess] at h
    split at h <;> cases h
    next hw => exact .inl ⟨n, data, rfl, hw⟩
  | fregWrite n v =>
    simp only [engineAccess] at h
    split at h <;> cases h
    next hw => exact .inr (.inl ⟨n, v, rfl, hw⟩)
  | pixWrite p x =>
    simp only [engineAccess] at h
    split at h <;> cases h
    next hw => exact .inr (.inr (.inl ⟨p, x, rfl, ((pixWrite_ok_iff ..).mp hw).2⟩))
  | byteWrite addr b =>
    simp only [engineAccess] at h
    split at h <;> cases h
    next hw => exact .inr (.inr (.inr ⟨addr, b, rfl, ((memWrite_ok_iff ..).mp hw).2⟩))
  | regRead n | fregRead n | pixRead p | byteRead addr =>
    simp only [engineAccess] at h
    split at h <;> cases h

/-- "A host transaction that is not a command ... writes no status field" (10_state.md R25). -/
theorem engineAccess_status {P : Params F} {a : HostAccess F} {e e' : Engine F}
    (h : engineAccess P a e = .changed e') : e'.status = e.status := by
  obtain ⟨n, data, -, hw⟩ | ⟨n, v, -, hw⟩ | ⟨p, x, -, rfl⟩ | ⟨addr, b, -, rfl⟩ := engineAccess_changed h
  · exact (intRegWrite_frame hw).1
  · rw [numRegWrite_frame hw]
  · rfl
  · rfl

end HostWrites

/-- A host transaction that is admitted has written the engine, or has read and left it as it was. -/
theorem hostAccess_next_cases {a : HostAccess Config.F} {s t : State} (h : hostAccess a s = .next t) :
    (∃ e, engineAccess configParams a s.engine = .changed e ∧ t = { s with engine := e }) ∨
      t.engine = s.engine := by
  unfold hostAccess at h
  split at h <;> cases h
  · next e he => exact .inl ⟨e, he, rfl⟩
  · exact .inr rfl

/-! ### The invariant -/

/-- "7 never written" (10_state.md R24). -/
theorem errorCode_ne_seven (kind : ErrorKind) : errorCode kind ≠ 7 := by cases kind <;> decide

theorem errorCode_ne_zero (kind : ErrorKind) : errorCode kind ≠ 0 := by cases kind <;> decide

section Invariant

variable {e e' : Engine Config.F} {s t : State}

theorem inv_raiseError (h : e.Inv) (kind : ErrorKind) : (e.raiseError kind).Inv :=
  ⟨errorCode_ne_seven kind, h.2⟩

theorem inv_succeed (hpix : Memory.wf e.pix = true) (hcwm : Memory.wf e.cwm = true) : e.succeed.Inv :=
  ⟨by simp, hpix, hcwm⟩

/-- Stated for every `cw`: the kernel would run `packWord` to compare the engines of `PACK`. -/
theorem wf_withCw_pix (h : Memory.wf e.pix = true) (cw : Codeword) : Memory.wf { e with cw := cw }.pix = true := h

theorem wf_withCw_cwm (h : Memory.wf e.cwm = true) (cw : Codeword) : Memory.wf { e with cw := cw }.cwm = true := h

/-- `PIX` is stored by `STPX` and `DBLK` only. -/
theorem commandEffect_wf_pix (i : Instr) (h : Memory.wf e.pix = true) :
    Memory.wf (commandEffect i e).pix = true := by
  cases i with
  | stpx | dblk => exact wf_storeBlock h _ _
  | pack => exact wf_withCw_pix h _
  | _ => exact h

/-- `CWM` is stored by `STCW` and `CBLK` only. -/
theorem commandEffect_wf_cwm (i : Instr) (h : Memory.wf e.cwm = true) :
    Memory.wf (commandEffect i e).cwm = true := by
  cases i with
  | stcw | cblk => exact wf_storeBytes h _ _
  | pack => exact wf_withCw_cwm h _
  | _ => exact h

theorem exec_keeps_inv {i : Instr} (hs : s.Inv) (h : exec i s = .next t) : t.Inv := by
  obtain ⟨kind, -, rfl⟩ | ⟨-, rfl⟩ := exec_next_cases h
  · exact inv_raiseError hs kind
  · obtain ⟨-, hpix, hcwm⟩ := hs
    exact inv_succeed (commandEffect_wf_pix i hpix) (commandEffect_wf_cwm i hcwm)

theorem engineAccess_keeps_inv {a : HostAccess Config.F} (he : e.Inv)
    (h : engineAccess configParams a e = .changed e') : e'.Inv := by
  have hstatus := engineAccess_status h
  obtain ⟨herr, hpix, hcwm⟩ := he
  refine ⟨hstatus ▸ herr, ?_⟩
  obtain ⟨n, data, -, hw⟩ | ⟨n, v, -, hw⟩ | ⟨p, x, -, rfl⟩ | ⟨addr, b, -, rfl⟩ := engineAccess_changed h
  · obtain ⟨-, -, -, hp, hc⟩ := intRegWrite_frame hw
    rw [hp, hc]
    exact ⟨hpix, hcwm⟩
  · rw [numRegWrite_frame hw]
    exact ⟨hpix, hcwm⟩
  · exact ⟨Memory.wf_write hpix p x, hcwm⟩
  · exact ⟨hpix, Memory.wf_write hcwm addr b⟩

theorem hostAccess_keeps_inv {a : HostAccess Config.F} (hs : s.Inv) (h : hostAccess a s = .next t) : t.Inv := by
  obtain ⟨e, he, rfl⟩ | heq := hostAccess_next_cases h
  · exact engineAccess_keeps_inv hs he
  · rw [State.Inv, heq]
    exact hs

theorem platformReset_inv (he : e.Inv) (drawn : UnspecifiedRegisters Config.F) : (e.platformReset drawn).Inv :=
  ⟨by simp, he.2⟩

end Invariant

/-- All that a step can do: nothing, or the host's next event on the state with that event taken. -/
theorem step_next_cases {s t : State} (h : step s = .next t) :
    (s.pending = [] ∧ t = s) ∨
      ∃ ev rest, s.pending = ev :: rest ∧
        ((∃ word i, ev = .cmd word ∧ decode word = .command i ∧ exec i { s with pending := rest } = .next t) ∨
          (∃ word why, ev = .cmd word ∧ decode word = .illegal why ∧ execIllegal { s with pending := rest } = .next t) ∨
          (∃ a, ev = .access a ∧ hostAccess a { s with pending := rest } = .next t) ∨
          (ev = .reset ∧ platformResetNow { s with pending := rest } = .next t)) := by
  unfold step at h
  cases hp : s.pending with
  | nil =>
    rw [fetch_nil s hp] at h
    cases h
    exact .inl ⟨rfl, rfl⟩
  | cons ev rest =>
    refine .inr ⟨ev, rest, rfl, ?_⟩
    cases ev with
    | cmd word =>
      simp only [fetch_cmd hp] at h
      cases hd : decode word with
      | command i => exact .inl ⟨word, i, rfl, hd, by simpa only [hd] using h⟩
      | illegal why => exact .inr (.inl ⟨word, why, rfl, hd, by simpa only [hd] using h⟩)
    | access a =>
      rw [fetch_access hp] at h
      exact .inr (.inr (.inl ⟨a, rfl, h⟩))
    | reset =>
      rw [fetch_reset hp] at h
      exact .inr (.inr (.inr ⟨rfl, h⟩))

/-- Settles O58: each kind of event keeps the invariant. -/
theorem stepKeepsInvariant : Obligations.StepKeepsInvariant := by
  intro s t hs h
  obtain ⟨-, rfl⟩ | ⟨ev, rest, -, ⟨word, i, -, -, hc⟩ | ⟨word, why, -, -, hc⟩ | ⟨a, -, ha⟩ | ⟨-, hr⟩⟩ :=
    step_next_cases h
  · exact hs
  · exact exec_keeps_inv (s := { s with pending := rest }) hs hc
  · cases hc
    exact inv_raiseError hs .illegalCommand
  · exact hostAccess_keeps_inv (s := { s with pending := rest }) hs ha
  · cases hr
    exact platformReset_inv hs _

/-- Settles O59: `ERR` is 0 and neither memory lists anything. -/
theorem resetHasInvariant : Obligations.ResetHasInvariant :=
  ⟨by decide, Memory.wf_nil, Memory.wf_nil⟩

end Sys2Proof.Proofs

/-! PROOFS. The read and write sets of the commands (10_state.md R29) and who writes `STATUS` (R25). -/

namespace Sys2Proof.Proofs

open Sys2Proof.Machine

/-! ### What a write leaves unchanged, group by group -/

section Frame

variable (e : Engine Config.F) {x : Engine Config.F} {g : Machine.Group}

theorem same_refl (g : Machine.Group) : g.same e e := by
  cases g with
  | dims => exact ⟨rfl, rfl, rfl⟩
  | pix | pixRest | cwm | cwmRest => exact fun _ _ => rfl
  | _ => rfl

theorem same_withWord (v : Word64) (hg : g ∉ [Machine.Group.word]) : g.same e { e with word := v } := by
  have hrefl := same_refl e g
  cases g with
  | word => exact absurd (List.mem_singleton_self _) hg
  | _ => exact hrefl

theorem same_withVal (v : Word64) (hg : g ∉ [Machine.Group.val]) : g.same e { e with val := v } := by
  have hrefl := same_refl e g
  cases g with
  | val => exact absurd (List.mem_singleton_self _) hg
  | _ => exact hrefl

theorem same_setFlag (b : Bool) (hg : g ∉ [Machine.Group.flag]) :
    g.same e { e with status := statusSetFlag e.status b } := by
  have hrefl := same_refl e g
  cases g with
  | flag => exact absurd (List.mem_singleton_self _) hg
  | _ => exact hrefl

theorem same_clearAnyErr (hg : g ∉ [Machine.Group.anyErr]) :
    g.same e { e with status := statusClearAnyErr e.status } := by
  have hrefl := same_refl e g
  cases g with
  | anyErr => exact absurd (List.mem_singleton_self _) hg
  | _ => exact hrefl

theorem same_withQuants (q : Quants) (hg : g ∉ [Machine.Group.quants]) : g.same e { e with quants := q } := by
  have hrefl := same_refl e g
  cases g with
  | quants => exact absurd (List.mem_singleton_self _) hg
  | _ => exact hrefl

theorem same_withCw (cw : Codeword) (hg : g ∉ [Machine.Group.cw]) : g.same e { e with cw := cw } := by
  have hrefl := same_refl e g
  cases g with
  | cw => exact absurd (List.mem_singleton_self _) hg
  | _ => exact hrefl

theorem same_withSamples (y : Samples Config.F) (hg : g ∉ [Machine.Group.samples]) :
    g.same e { e with samples := y } := by
  have hrefl := same_refl e g
  cases g with
  | samples => exact absurd (List.mem_singleton_self _) hg
  | _ => exact hrefl

theorem same_withCoeffs (t : Coeffs Config.F) (hg : g ∉ [Machine.Group.coeffs]) :
    g.same e { e with coeffs := t } := by
  have hrefl := same_refl e g
  cases g with
  | coeffs => exact absurd (List.mem_singleton_self _) hg
  | _ => exact hrefl

/-- Storing the block in `BLK` changes its four elements of `PIX` alone. -/
theorem same_storeBlock (y : Samples Config.F) (hg : g ∉ [Machine.Group.pix]) :
    g.same e { e with pix := storeBlock e.pix (blockPixels (asU e.imgW) (asU e.blk)) y } := by
  have hrefl := same_refl e g
  cases g with
  | pix => exact absurd (List.mem_singleton_self _) hg
  | pixRest => exact fun p hp => pixel_congr _ (read_storeBlock_outside _ _ _ hp)
  | _ => exact hrefl

theorem mem_blockBytes_iff (addr : Nat) :
    addr ∈ blockBytes e ↔ 4 * asU e.blk ≤ addr ∧ addr < 4 * asU e.blk + 4 := by
  simp only [blockBytes, List.mem_cons, List.not_mem_nil, or_false]
  omega

/-- Storing the codeword of the block in `BLK` changes its four bytes of `CWM` alone. -/
theorem same_storeCodeword (cw : Codeword) (hg : g ∉ [Machine.Group.cwm]) :
    g.same e { e with cwm := storeBytes e.cwm (4 * asU e.blk) (be4 cw) } := by
  have hrefl := same_refl e g
  cases g with
  | cwm => exact absurd (List.mem_singleton_self _) hg
  | cwmRest =>
    exact fun addr ha => byte_congr _ (read_storeBytes_outside _ fun hin => ha ((mem_blockBytes_iff e addr).mpr hin))
  | _ => exact hrefl

variable {e}

/-- The end of a successful command writes `ERR` alone, which is in no group. -/
theorem same_succeed (h : g.same e x) : g.same e x.succeed := by
  cases g <;> exact h

theorem same_succeed_both {x x' : Engine Config.F} (h : g.same x x') : g.same x.succeed x'.succeed := by
  cases g <;> exact h

theorem same_raiseError (kind : ErrorKind) (hg : g ≠ .anyErr) : g.same e (e.raiseError kind) := by
  have hrefl := same_refl e g
  cases g with
  | anyErr => exact absurd rfl hg
  | _ => exact hrefl

/-- The effect of a command is inside its row of the write sets. -/
theorem same_commandEffect (i : Instr) (hg : g ∉ writeSet i) : g.same e (commandEffect i e) := by
  cases i with
  | nop => exact same_refl e g
  | clrerr => exact same_clearAnyErr e hg
  | fitsu | fitss => exact same_setFlag e _ hg
  | getu | gets | s2u | u2s => exact same_withVal e _ hg
  | setu | sets => exact same_withWord e _ hg
  | btfwd | dequant => exact same_withCoeffs e _ hg
  | btinv | ldpx => exact same_withSamples e _ hg
  | quant | unpack => exact same_withQuants e _ hg
  | pack | ldcw => exact same_withCw e _ hg
  | stpx => exact same_storeBlock e _ hg
  | stcw => exact same_storeCodeword e _ hg
  | cblk =>
    have hrefl := same_refl e g
    cases g with
    | samples | coeffs | quants | cw | cwm => exact absurd (by decide) hg
    | cwmRest => exact same_storeCodeword (g := .cwmRest) e _ (by decide)
    | _ => exact hrefl
  | dblk =>
    have hrefl := same_refl e g
    cases g with
    | samples | coeffs | quants | cw | pix => exact absurd (by decide) hg
    | pixRest => exact same_storeBlock (g := .pixRest) e _ (by decide)
    | _ => exact hrefl

end Frame

/-- Settles O55: the effect stays in the row, and a failure changes nothing but `STATUS`. -/
theorem writeSetsAreComplete : Obligations.WriteSetsAreComplete := by
  intro i s t g h hg herr
  obtain ⟨kind, -, rfl⟩ | ⟨-, rfl⟩ := exec_next_cases h
  · exact same_raiseError kind fun hany => errorCode_ne_zero kind (herr hany)
  · exact same_succeed (same_commandEffect i hg)

/-! ### Who writes which field of `STATUS` -/

/-- `block_guard` raises two kinds (44_memory_and_pipeline.md R200). -/
theorem guardCheck_eq_some {e : Engine Config.F} {kind : ErrorKind} (h : guardCheck e = some kind) :
    kind = .dimensionMismatch ∨ kind = .badBlockIndex := by
  obtain ⟨k, hg, hc⟩ | ⟨-, -, hc⟩ := blockGuard_cases e
  · cases hc.symm.trans h
    obtain ⟨-, hk⟩ | ⟨-, -, -, hk⟩ := (blockGuard_error_iff e kind).mp hg
    · exact .inl hk
    · exact .inr hk
  · cases hc.symm.trans h

/-- A command raises the kinds of its row of 60_exceptions.md R230 only. -/
theorem commandCheck_raises {i : Instr} {e : Engine Config.F} {kind : ErrorKind}
    (h : commandCheck i e = some kind) : errorCode kind ∈ raisedCodes i := by
  cases i with
  | nop | clrerr | btfwd | btinv | unpack => cases h
  | fitsu | fitss | getu | gets | quant | dequant | pack =>
    obtain ⟨-, rfl⟩ := (raiseUnless_eq_some_iff ..).mp h
    simp [raisedCodes, errorCode]
  | setu | sets | s2u | u2s =>
    obtain h | ⟨-, h⟩ := Option.or_eq_some_iff.mp h <;> obtain ⟨-, rfl⟩ := (raiseUnless_eq_some_iff ..).mp h <;>
      simp [raisedCodes, errorCode]
  | ldpx | stpx | ldcw | stcw | dblk =>
    obtain rfl | rfl := guardCheck_eq_some h <;> simp [raisedCodes, errorCode]
  | cblk =>
    obtain h | ⟨-, h⟩ := Option.or_eq_some_iff.mp h
    · obtain rfl | rfl := guardCheck_eq_some h <;> simp [raisedCodes, errorCode]
    · obtain ⟨-, rfl⟩ := (raiseUnless_eq_some_iff ..).mp h
      simp [raisedCodes, errorCode]

theorem flag_notMem_writeSet {i : Instr} (hi : ∀ w, i ≠ .fitsu w ∧ i ≠ .fitss w) :
    Machine.Group.flag ∉ writeSet i := by
  cases i with
  | fitsu w => exact absurd rfl (hi w).1
  | fitss w => exact absurd rfl (hi w).2
  | _ => simp [writeSet]

theorem anyErr_notMem_writeSet {i : Instr} (hi : i ≠ .clrerr) : Machine.Group.anyErr ∉ writeSet i := by
  cases i with
  | clrerr => exact absurd rfl hi
  | _ => simp [writeSet]

/-- Settles O54: `FLAG` and `ANYERR` after a success by the write sets, the codes by the checks. -/
theorem statusFieldWriters : Obligations.StatusFieldWriters := by
  refine ⟨fun i s t h => ?_, fun a s t h => ?_⟩
  · obtain ⟨kind, hkind, rfl⟩ | ⟨-, rfl⟩ := exec_next_cases h
    · exact .inr ⟨commandCheck_raises hkind, rfl, rfl⟩
    · refine .inl ⟨rfl, ?_, fun hi => same_commandEffect (g := .flag) i (flag_notMem_writeSet hi)⟩
      split
      · next hi => rw [hi]; rfl
      · next hi => exact same_commandEffect (g := .anyErr) i (anyErr_notMem_writeSet hi)
  · obtain ⟨e, he, rfl⟩ | heq := hostAccess_next_cases h
    · exact engineAccess_status he
    · rw [heq]

/-! ### What a command reads -/

section Reads

variable {e e' : Engine Config.F}

theorem blockGuard_congr (hd : Machine.Group.dims.same e e') : e'.blockGuard = e.blockGuard := by
  obtain ⟨hw, hh, hb⟩ := hd
  simp only [Engine.blockGuard, hw, hh, hb]

theorem guardCheck_congr (hd : Machine.Group.dims.same e e') : guardCheck e' = guardCheck e := by
  rw [guardCheck, blockGuard_congr hd]
  rfl

theorem blockSamples_congr (hd : Machine.Group.dims.same e e') (hp : Machine.Group.pix.same e e') :
    blockSamples e' = blockSamples e := by
  obtain ⟨hw, -, hb⟩ := hd
  simp only [Machine.Group.same, blockElements, List.forall_mem_cons] at hp
  obtain ⟨h1, h2, h3, h4, -⟩ := hp
  simp only [blockSamples, hw, hb, h1, h2, h3, h4]

theorem blockCodeword_congr (hd : Machine.Group.dims.same e e') (hc : Machine.Group.cwm.same e e') :
    blockCodeword e' = blockCodeword e := by
  obtain ⟨-, -, hb⟩ := hd
  simp only [Machine.Group.same, blockBytes, List.forall_mem_cons] at hc
  obtain ⟨h1, h2, h3, h4, -⟩ := hc
  simp only [blockCodeword, Engine.bytes, hb, h1, h2, h3, h4]

/-- After the same block is stored at the same place, its elements are the same. -/
theorem same_pix_storeBlock (hd : Machine.Group.dims.same e e') (y : Samples Config.F) :
    ∀ p ∈ blockElements e,
      Engine.pixel configParams
          { e' with pix := storeBlock e'.pix (blockPixels (asU e'.imgW) (asU e'.blk)) y } p =
        Engine.pixel configParams { e with pix := storeBlock e.pix (blockPixels (asU e.imgW) (asU e.blk)) y } p := by
  obtain ⟨hw, -, hb⟩ := hd
  rw [hw, hb]
  exact fun p hp => pixel_congr _ (read_storeBlock_inside _ _ _ _ hp)

/-- After the same codeword is stored at the same place, its bytes are the same. -/
theorem same_cwm_storeCodeword (hd : Machine.Group.dims.same e e') (cw : Codeword) :
    ∀ addr ∈ blockBytes e,
      Engine.byte configParams { e' with cwm := storeBytes e'.cwm (4 * asU e'.blk) (be4 cw) } addr =
        Engine.byte configParams { e with cwm := storeBytes e.cwm (4 * asU e.blk) (be4 cw) } addr := by
  obtain ⟨-, -, hb⟩ := hd
  rw [hb]
  exact fun addr ha => byte_congr _ (read_storeBytes_inside _ _ ((mem_blockBytes_iff e addr).mp ha))

/-- The checks of a command depend on its row of the read sets alone. -/
theorem commandCheck_congr {i : Instr} (h : ∀ g ∈ readSet i, g.same e e') :
    commandCheck i e' = commandCheck i e := by
  cases i with
  | ldpx | stpx | ldcw | stcw | dblk => exact guardCheck_congr (h .dims (by decide))
  | cblk =>
    rw [commandCheck, commandCheck, guardCheck_congr (h .dims (by decide)),
      blockSamples_congr (h .dims (by decide)) (h .pix (by decide))]
  | setu | sets | s2u | u2s =>
    have hval : e'.val = e.val := h .val (by simp [readSet])
    rw [commandCheck, commandCheck, hval]
  | quant =>
    have hcoeffs : e'.coeffs = e.coeffs := h .coeffs (by decide)
    rw [commandCheck, commandCheck, hcoeffs]
  | dequant | pack =>
    have hquants : e'.quants = e.quants := h .quants (by decide)
    rw [commandCheck, commandCheck, hquants]
  | _ => rfl

/-- What a command leaves in its row of the write sets depends on its row of the read sets alone. -/
theorem commandEffect_congr {i : Instr} (h : ∀ g ∈ readSet i, g.same e e') :
    ∀ g ∈ writeSet i, g.same (commandEffect i e) (commandEffect i e') := by
  cases i with
  | stpx =>
    have hsamples : e'.samples = e.samples := h .samples (by decide)
    simp only [writeSet, List.forall_mem_singleton, commandEffect, Machine.Group.same, hsamples]
    exact same_pix_storeBlock (h .dims (by decide)) _
  | stcw =>
    have hcw : e'.cw = e.cw := h .cw (by decide)
    simp only [writeSet, List.forall_mem_singleton, commandEffect, Machine.Group.same, hcw]
    exact same_cwm_storeCodeword (h .dims (by decide)) _
  | ldpx =>
    simp only [writeSet, List.forall_mem_singleton, commandEffect, Machine.Group.same]
    exact blockSamples_congr (h .dims (by decide)) (h .pix (by decide))
  | ldcw =>
    simp only [writeSet, List.forall_mem_singleton, commandEffect, Machine.Group.same]
    exact blockCodeword_congr (h .dims (by decide)) (h .cwm (by decide))
  | cblk =>
    have hsamples := blockSamples_congr (h .dims (by decide)) (h .pix (by decide))
    simp only [writeSet, List.forall_mem_cons, List.not_mem_nil, commandEffect, Machine.Group.same, hsamples, true_and,
      IsEmpty.forall_iff, implies_true, and_true]
    exact same_cwm_storeCodeword (h .dims (by decide)) _
  | dblk =>
    have hcw := blockCodeword_congr (h .dims (by decide)) (h .cwm (by decide))
    simp only [writeSet, List.forall_mem_cons, List.not_mem_nil, commandEffect, Machine.Group.same, hcw, true_and,
      IsEmpty.forall_iff, implies_true, and_true]
    exact same_pix_storeBlock (h .dims (by decide)) _
  | _ => simp_all [readSet, writeSet, commandEffect, Machine.Group.same]

end Reads

/-- Settles O56: equal checks, and where they pass equal effects. -/
theorem readSetsAreComplete : Obligations.ReadSetsAreComplete := by
  intro i s s' t t' hread h h'
  have hcheck := commandCheck_congr hread
  obtain ⟨kind, hk, rfl⟩ | ⟨hn, rfl⟩ := exec_next_cases h <;>
    obtain ⟨kind', hk', rfl⟩ | ⟨hn', rfl⟩ := exec_next_cases h'
  · cases hk'.symm.trans (hcheck.trans hk)
    exact ⟨rfl, fun hz => absurd hz (errorCode_ne_zero kind)⟩
  · cases hn'.symm.trans (hcheck.trans hk)
  · cases hk'.symm.trans (hcheck.trans hn)
  · exact ⟨rfl, fun _ g hg => same_succeed_both (commandEffect_congr hread g hg)⟩

end Sys2Proof.Proofs

/-! PROOFS. The register files at the host's port (10_state.md R21, R22, R24, R27; 45_control_and_host.md R223): a
register reads as written, and a write changes no other one. -/

namespace Sys2Proof.Proofs

open Sys2Proof.Machine

section RegisterFiles

variable {F : Type} {e e' : Engine F}

/-! ### The integer file -/

theorem intRegWrite_isSome (e : Engine F) {n : Nat} (data : Word64)
    (hn : n ∈ [0x00, 0x01, 0x03, 0x04, 0x05, 0x08, 0x09, 0x0A, 0x0B, 0x0C, 0x0D, 0x0E]) :
    ∃ e', intRegWrite e n data = some e' := by
  rw [← Option.isSome_iff_exists]
  revert n
  simp [intRegWrite]

/-- `CW` keeps the low 32 bits (10_state.md R22). -/
theorem intRegRead_written {n : Nat} {data : Word64} (h : intRegWrite e n data = some e') :
    intRegRead e' n = some (if n = 0x0E then (data.setWidth 32).setWidth 64 else data) := by
  unfold intRegWrite at h
  split at h <;> cases h <;> rfl

/-- Each number names a field of its own: the number read is the one written, against `hm`, or the field read is not
the one written. -/
theorem intRegRead_other {n m : Nat} {data : Word64} (h : intRegWrite e n data = some e') (hm : m ≠ n) :
    intRegRead e' m = intRegRead e m := by
  unfold intRegWrite at h
  split at h <;> cases h
  all_goals
    unfold intRegRead
    split <;> simp_all only [ne_eq, not_true_eq_false]

/-! ### The `F`-typed file -/

theorem numRegWrite_isSome (e : Engine F) {n : Nat} (v : F)
    (hn : (0x20 ≤ n ∧ n ≤ 0x2B) ∨ (0x30 ≤ n ∧ n ≤ 0x35)) : ∃ e', numRegWrite e n v = some e' := by
  rw [← Option.isSome_iff_exists]
  obtain ⟨hlo, hhi⟩ | ⟨hlo, hhi⟩ := hn <;> interval_cases n <;> rfl

theorem numRegRead_written {n : Nat} {v : F} (h : numRegWrite e n v = some e') : numRegRead e' n = some v := by
  unfold numRegWrite at h
  split at h <;> cases h <;> rfl

/-- Each number names a field of its own. -/
theorem numRegRead_other {n m : Nat} {v : F} (h : numRegWrite e n v = some e') (hm : m ≠ n) :
    numRegRead e' m = numRegRead e m := by
  unfold numRegWrite at h
  split at h <;> cases h
  all_goals
    unfold numRegRead
    split <;> simp_all only [ne_eq, not_true_eq_false]

/-! ### Each file is untouched by writes of the other -/

theorem numRegRead_congr (hs : e'.samples = e.samples) (hc : e'.coeffs = e.coeffs) (m : Nat) :
    numRegRead e' m = numRegRead e m := by
  simp only [numRegRead, hs, hc]

end RegisterFiles

/-- Settles O7: the write-then-read law of the integer file, and the frame of its writes. -/
theorem intRegisterWriteThenRead : Obligations.IntRegisterWriteThenRead := by
  intro s n data hn
  obtain ⟨e', hw⟩ := intRegWrite_isSome s.engine data hn
  obtain ⟨-, hsamples, hcoeffs, hpix, hcwm⟩ := intRegWrite_frame hw
  refine ⟨e', ?_, intRegRead_written hw, fun m => intRegRead_other hw, numRegRead_congr hsamples hcoeffs, hpix, hcwm⟩
  simp only [hostAccess, engineAccess, hw]

/-- Settles O8: the write-then-read law of the `F`-typed file, and the frame of its writes. -/
theorem numRegisterWriteThenRead : Obligations.NumRegisterWriteThenRead := by
  intro s n v hn
  obtain ⟨e', hw⟩ := numRegWrite_isSome s.engine v hn
  have hframe := numRegWrite_frame hw
  refine ⟨e', ?_, numRegRead_written hw, fun m => numRegRead_other hw, fun m => ?_, ?_, ?_⟩
  · simp only [hostAccess, engineAccess, hw]
  · rw [hframe]; rfl
  · rw [hframe]
  · rw [hframe]

/-! ### `STATUS` and the control registers -/

theorem bit_le_one (b : Bool) : bit b ≤ 1 := by cases b <;> decide

/-- The three fields of `STATUS` stand side by side below bit 5. -/
theorem statusValue_toNat (st : Status) :
    (statusValue st).toNat = bit st.flag * 16 + bit st.anyErr * 8 + st.err.toNat ∧ (statusValue st).toNat < 32 := by
  have hflag := bit_le_one st.flag
  have hany := bit_le_one st.anyErr
  have herr := st.err.isLt
  simp only [statusValue, BitVec.toNat_ofNat]
  omega

/-- Settles O12: the value of the three fields, which a 64-bit register holds exactly. -/
theorem statusReadsItsFields : Obligations.StatusReadsItsFields := by
  intro e
  obtain ⟨hvalue, hlt⟩ := statusValue_toNat e.status
  exact ⟨statusValue e.status, rfl, hlt, hvalue⟩

/-- Settles O11: `STATUS` reads 0 where its three fields are 0. -/
theorem resetControlRegistersAreZero : Obligations.ResetControlRegistersAreZero :=
  ⟨by decide, rfl, rfl, rfl⟩

end Sys2Proof.Proofs

/-! PROOFS. The host's accesses to both memories, the byte order of a codeword, and that no access of a step falls
outside (20_memory.md R61, R63, R65, R68). -/

namespace Sys2Proof.Proofs

open Sys2Proof.Machine

/-! ### Both memories at the host's port (45_control_and_host.md R222) -/

section WrittenPlace

variable {F : Type} (P : Params F) (e : Engine F)

theorem pixel_write (p q : Nat) (t : Pixel F) :
    Engine.pixel P { e with pix := Memory.write e.pix p t } q = if q = p then t else e.pixel P q := by
  split
  · next h => simp only [Engine.pixel, h, Memory.read_write_same]
  · next h => exact pixel_congr P (Memory.read_write_other _ _ h)

theorem byte_write (addr c : Nat) (b : Byte) :
    Engine.byte P { e with cwm := Memory.write e.cwm addr b } c = if c = addr then b else e.byte P c := by
  split
  · next h => simp only [Engine.byte, h, Memory.read_write_same]
  · next h => exact byte_congr P (Memory.read_write_other _ _ h)

end WrittenPlace

theorem hostAccess_pixWrite {s : State} {p : Nat} (hp : p < s.engine.pixSize) (t : Pixel Config.F) :
    hostAccess (.pixWrite p t) s =
      .next { s with engine := { s.engine with pix := Memory.write s.engine.pix p t } } := by
  have hw := (pixWrite_ok_iff s.engine _ p t).mpr ⟨hp, rfl⟩
  simp only [hostAccess, engineAccess, hw]

theorem hostAccess_byteWrite {s : State} {addr : Nat} (ha : addr < s.engine.cwmSize) (b : Byte) :
    hostAccess (.byteWrite addr b) s =
      .next { s with engine := { s.engine with cwm := Memory.write s.engine.cwm addr b } } := by
  have hw := (memWrite_ok_iff s.engine _ addr [b]).mpr ⟨ha, rfl⟩
  simp only [hostAccess, engineAccess, hw, storeBytes]

/-- Settles O9: a write inside the memory is done, and the written place alone reads otherwise. -/
theorem hostMemoryWriteThenRead : Obligations.HostMemoryWriteThenRead := by
  refine ⟨fun s p t hp => ⟨_, hostAccess_pixWrite hp t, fun q => pixel_write ..⟩, fun s addr b ha => ?_⟩
  have hsize : addr < s.engine.cwmSize := by
    rwa [Engine.cwmSize, blockCount, cwBytes, ← Nat.mul_assoc]
  exact ⟨_, hostAccess_byteWrite hsize b, fun c => byte_write ..⟩

/-! ### The byte order of a codeword (20_memory.md R65) -/

theorem extractByte_eq_ofNat (cw : Codeword) (lsb : Nat) :
    cw.extractLsb' lsb 8 = BitVec.ofNat 8 (cw.toNat / 2 ^ lsb) := by
  rw [BitVec.extractLsb', Nat.shiftRight_eq_div_pow]

theorem be4_eq_ofNat (cw : Codeword) :
    be4 cw = [BitVec.ofNat 8 (cw.toNat / 2 ^ 24), BitVec.ofNat 8 (cw.toNat / 2 ^ 16),
      BitVec.ofNat 8 (cw.toNat / 2 ^ 8), BitVec.ofNat 8 cw.toNat] := by
  simp only [be4, extractByte_eq_ofNat, Nat.pow_zero, Nat.div_one]

/-- Four bytes fill the 32 bits exactly, so that nothing is cut off. -/
theorem unbe4_toNat (b0 b1 b2 b3 : Byte) :
    (unbe4 [b0, b1, b2, b3]).toNat = b0.toNat * 2 ^ 24 + b1.toNat * 2 ^ 16 + b2.toNat * 2 ^ 8 + b3.toNat := by
  have h0 := b0.isLt
  have h1 := b1.isLt
  have h2 := b2.isLt
  have h3 := b3.isLt
  simp only [unbe4, bigEndian, List.foldl_cons, List.foldl_nil, BitVec.toNat_ofNat]
  omega

theorem unbe4_be4 (cw : Codeword) : unbe4 (be4 cw) = cw := by
  have hcw := cw.isLt
  apply BitVec.eq_of_toNat_eq
  rw [be4_eq_ofNat, unbe4_toNat]
  simp only [BitVec.toNat_ofNat]
  omega

theorem be4_unbe4 (b0 b1 b2 b3 : Byte) : be4 (unbe4 [b0, b1, b2, b3]) = [b0, b1, b2, b3] := by
  have h1 := b1.isLt
  have h2 := b2.isLt
  have h3 := b3.isLt
  rw [be4_eq_ofNat, unbe4_toNat]
  simp only [List.cons.injEq, and_true, ← BitVec.toNat_inj, BitVec.toNat_ofNat]
  omega

/-- A stored codeword stands most significant byte first from its address on. -/
theorem read_storeCodeword (m : Memory Byte) (addr : Nat) (cw : Codeword) {j : Nat} (hj : j < 4) :
    Memory.read (storeBytes m addr (be4 cw)) (addr + j) = (be4 cw)[j]? := by
  have hlength : (be4 cw).length = 4 := rfl
  rw [read_storeBytes, if_pos (by omega), Nat.add_sub_cancel_left]

/-- Settles O39: by the value of each byte, and by `read_storeBytes` for the stored positions. -/
theorem byteOrder : Obligations.ByteOrder := by
  refine ⟨be4_eq_ofNat, unbe4_toNat, unbe4_be4, fun l hl => ?_, fun m k cw => ?_⟩
  · obtain ⟨b0, b1, b2, b3, rfl⟩ := List.length_eq_four.mp hl
    exact be4_unbe4 b0 b1 b2 b3
  · have hread := fun j => read_storeCodeword m (4 * k) cw (j := j)
    exact ⟨hread 0 (by decide), hread 1 (by decide), hread 2 (by decide), hread 3 (by decide)⟩

/-! ### No access outside (20_memory.md R68) -/

/-- Settles O52: a command ends in a next state (`exec_eq`, which rests on the guard's arithmetic), and a host
transaction outside its range is refused. -/
theorem noStepFaults : Obligations.NoStepFaults := by
  intro s f h
  unfold step at h
  split at h
  case h_1 | h_3 => cases h
  case h_2 t s' _ =>
    obtain ⟨e, ht⟩ | ⟨r, ht⟩ | ⟨r, ht⟩ := hostAccess_cases t s' <;> cases ht.symm.trans h
  case h_4 word s' _ =>
    split at h
    case h_1 i _ => cases (exec_eq i s').symm.trans h
    case h_2 => cases h

end Sys2Proof.Proofs

/-! PROOFS. Different blocks do not meet: neither in `PIX` nor in `CWM` (41_block_transform.md R147, 20_memory.md R64),
so that the order of two pipeline commands on one engine leaves no trace in the memories (R73). -/

namespace Sys2Proof.Proofs

open Sys2Proof.Machine

/-! ### Every pixel and byte belongs to one block -/

/-- The row and column of a pixel of a block give the block's own row and column. -/
theorem row_col_of_mem_blockPixels {w k p : Nat} (hw : w % 2 = 0) (hpos : 0 < w / 2)
    (hp : p ∈ [(blockPixels w k).p1, (blockPixels w k).p2, (blockPixels w k).p3, (blockPixels w k).p4]) :
    p / w / 2 = k / (w / 2) ∧ p % w / 2 = k % (w / 2) := by
  have hcol : k % (w / 2) < w / 2 := Nat.mod_lt _ hpos
  have hrow_col : ∃ row col, p = row * w + col ∧ col < w ∧ row / 2 = k / (w / 2) ∧ col / 2 = k % (w / 2) := by
    simp only [blockPixels, List.mem_cons, List.not_mem_nil, or_false] at hp
    obtain rfl | rfl | rfl | rfl := hp
    · exact ⟨2 * (k / (w / 2)), 2 * (k % (w / 2)), by ring, by omega, by omega, by omega⟩
    · exact ⟨2 * (k / (w / 2)), 2 * (k % (w / 2)) + 1, by ring, by omega, by omega, by omega⟩
    · exact ⟨2 * (k / (w / 2)) + 1, 2 * (k % (w / 2)), by ring, by omega, by omega, by omega⟩
    · exact ⟨2 * (k / (w / 2)) + 1, 2 * (k % (w / 2)) + 1, by ring, by omega, by omega, by omega⟩
  obtain ⟨row, col, rfl, hlt, hr, hc⟩ := hrow_col
  rw [Nat.mul_add_mod_of_lt hlt, Nat.mul_comm row w, Nat.mul_add_div (by omega), Nat.div_eq_of_lt hlt, Nat.add_zero]
  exact ⟨hr, hc⟩

/-- Two blocks that share a pixel are the same block. -/
theorem block_eq_of_mem_blockPixels {w k l p : Nat} (hw : w % 2 = 0) (hpos : 0 < w / 2)
    (hk : p ∈ [(blockPixels w k).p1, (blockPixels w k).p2, (blockPixels w k).p3, (blockPixels w k).p4])
    (hl : p ∈ [(blockPixels w l).p1, (blockPixels w l).p2, (blockPixels w l).p3, (blockPixels w l).p4]) : k = l := by
  obtain ⟨hrowk, hcolk⟩ := row_col_of_mem_blockPixels hw hpos hk
  obtain ⟨hrowl, hcoll⟩ := row_col_of_mem_blockPixels hw hpos hl
  rw [← Nat.div_add_mod k (w / 2), ← hrowk, ← hcolk, hrowl, hcoll, Nat.div_add_mod]

/-! ### One element of `PIX` or one byte of `CWM` -/

/-- A place of the two memories, so that what holds of both is proved once. -/
inductive Place where
  | element (p : Nat)
  | byte (addr : Nat)

/-- What a place reads as. -/
def Place.reads (e : Engine Config.F) : Place → Pixel Config.F ⊕ Byte
  | .element p => .inl (e.pixel configParams p)
  | .byte addr => .inr (e.byte configParams addr)

/-- The place belongs to the block in `BLK`. -/
def Place.InBlock (e : Engine Config.F) : Place → Prop
  | .element p => p ∈ blockElements e
  | .byte addr => addr ∈ blockBytes e

/-- The group of 10_state.md R29 that names the place when it belongs to the block. -/
def Place.blockGroup : Place → Machine.Group
  | .element _ => .pix
  | .byte _ => .cwm

/-- The group of the place when it does not. -/
def Place.restGroup : Place → Machine.Group
  | .element _ => .pixRest
  | .byte _ => .cwmRest

section Places

variable {e e' : Engine Config.F} {x : Place}

theorem reads_eq_of_blockGroup_same (h : x.blockGroup.same e e') (hx : x.InBlock e) : x.reads e' = x.reads e := by
  cases x with
  | element p => exact congrArg Sum.inl (h p hx)
  | byte addr => exact congrArg Sum.inr (h addr hx)

theorem reads_eq_of_restGroup_same (h : x.restGroup.same e e') (hx : ¬x.InBlock e) : x.reads e' = x.reads e := by
  cases x with
  | element p => exact congrArg Sum.inl (h p hx)
  | byte addr => exact congrArg Sum.inr (h addr hx)

theorem blockGroup_ne_anyErr (x : Place) : x.blockGroup ≠ .anyErr := by cases x <;> simp [Place.blockGroup]

theorem restGroup_ne_anyErr (x : Place) : x.restGroup ≠ .anyErr := by cases x <;> simp [Place.restGroup]

/-- `BLK` is no part of the memories. -/
theorem reads_atBlock (x : Place) (s : State) (k : Word64) : x.reads (s.atBlock k).engine = x.reads s.engine := by
  cases x <;> rfl

/-- No command writes outside the block in `BLK`. -/
theorem restGroup_notMem_writeSet (x : Place) (i : Instr) : x.restGroup ∉ writeSet i := by
  cases x <;> cases i <;> simp [Place.restGroup, writeSet]

theorem inBlock_congr (hd : Machine.Group.dims.same e e') : x.InBlock e' ↔ x.InBlock e := by
  obtain ⟨hw, -, hb⟩ := hd
  cases x with
  | element p => simp only [Place.InBlock, blockElements, hw, hb]
  | byte addr => simp only [Place.InBlock, blockBytes, hb]

/-- No place belongs to two blocks. -/
theorem not_inBlock_or {s : State} {k l : Word64} (hk : BlockReady (s.atBlock k).engine) (hkl : k ≠ l) (x : Place) :
    ¬x.InBlock (s.atBlock k).engine ∨ ¬x.InBlock (s.atBlock l).engine := by
  have hne : asU k ≠ asU l := fun h => hkl (BitVec.eq_of_toNat_eq h)
  obtain ⟨hw, -, hcount⟩ := hk
  have hpos := Nat.pos_of_mul_pos_right (Nat.zero_lt_of_lt hcount)
  cases x with
  | element p =>
    by_contra! h
    exact hne (block_eq_of_mem_blockPixels hw hpos h.1 h.2)
  | byte addr =>
    simp only [Place.InBlock, mem_blockBytes_iff, State.atBlock]
    omega

end Places

/-! ### One command, seen at one place -/

section OneCommand

variable {i : Instr} {s s' t t' : State} {x : Place}

theorem exec_keeps_dims (h : exec i s = .next t) : Machine.Group.dims.same s.engine t.engine := by
  refine writeSetsAreComplete i s t .dims h ?_ (by simp)
  cases i <;> simp [writeSet]

/-- A place keeps what it holds unless the command succeeds, writes that memory, and the place is in its block. -/
theorem exec_reads_unwritten (h : exec i s = .next t)
    (hx : t.engine.status.err = 0 → x.blockGroup ∈ writeSet i → ¬x.InBlock s.engine) :
    x.reads t.engine = x.reads s.engine := by
  by_cases hin : x.InBlock s.engine
  · by_cases hwrites : x.blockGroup ∈ writeSet i
    · obtain ⟨kind, -, rfl⟩ | ⟨-, rfl⟩ := exec_next_cases h
      · cases x <;> rfl
      · exact absurd hin (hx rfl hwrites)
    · exact reads_eq_of_blockGroup_same
        (writeSetsAreComplete i s t _ h hwrites fun hg => absurd hg (blockGroup_ne_anyErr x)) hin
  · exact reads_eq_of_restGroup_same (writeSetsAreComplete i s t _ h (restGroup_notMem_writeSet x i)
      fun hg => absurd hg (restGroup_ne_anyErr x)) hin

/-- From states that agree on the dimensions, on what the command reads and on a place, it leaves the same at that
place. -/
theorem exec_reads_congr (hd : Machine.Group.dims.same s.engine s'.engine)
    (hread : ∀ g ∈ readSet i, g.same s.engine s'.engine) (h : exec i s = .next t) (h' : exec i s' = .next t')
    (hx : x.reads s'.engine = x.reads s.engine) : x.reads t'.engine = x.reads t.engine := by
  obtain ⟨herr, hwrite⟩ := readSetsAreComplete i s s' t t' hread h h'
  by_cases hwritten : t.engine.status.err = 0 ∧ x.blockGroup ∈ writeSet i ∧ x.InBlock s.engine
  · obtain ⟨hz, hg, hin⟩ := hwritten
    exact reads_eq_of_blockGroup_same (hwrite hz _ hg) ((inBlock_congr (exec_keeps_dims h)).mpr hin)
  · have ht := exec_reads_unwritten (x := x) h fun hz hg hin => hwritten ⟨hz, hg, hin⟩
    have ht' := exec_reads_unwritten (x := x) h' fun hz hg hin =>
      hwritten ⟨herr ▸ hz, hg, (inBlock_congr hd).mp hin⟩
    exact ht'.trans (hx.trans ht.symm)

end OneCommand

/-! ### Two pipeline commands on different blocks (20_memory.md R73) -/

section TwoBlocks

variable {i : Instr} {s a b c d : State} {l : Word64} (k : Word64)

theorem dims_same_atBlock (h : exec i (s.atBlock l) = .next c) :
    Machine.Group.dims.same (s.atBlock k).engine (c.atBlock k).engine := by
  obtain ⟨hw, hh, -⟩ := exec_keeps_dims h
  exact ⟨hw, hh, rfl⟩

/-- A pipeline command writes the one memory and reads the other, so that it disturbs no later one. -/
theorem pipeline_keeps_reads (hi : i = .cblk ∨ i = .dblk) (h : exec i (s.atBlock l) = .next c) :
    ∀ g ∈ readSet i, g.same (s.atBlock k).engine (c.atBlock k).engine := by
  have hdims := dims_same_atBlock k h
  obtain rfl | rfl := hi <;>
    simp only [readSet, List.forall_mem_cons, List.not_mem_nil, IsEmpty.forall_iff, implies_true, and_true]
  · have hpix p := exec_reads_unwritten (x := .element p) h fun _ hg =>
      absurd hg (by simp [Place.blockGroup, writeSet])
    exact ⟨hdims, fun p _ => Sum.inl.inj (hpix p)⟩
  · have hcwm addr := exec_reads_unwritten (x := .byte addr) h fun _ hg =>
      absurd hg (by simp [Place.blockGroup, writeSet])
    exact ⟨hdims, fun addr _ => Sum.inr.inj (hcwm addr)⟩

variable {k}

/-- Outside block `l` both orders leave what the command on block `k` leaves. -/
theorem reads_order_eq_outside (hi : i = .cblk ∨ i = .dblk)
    (ha : exec i (s.atBlock k) = .next a) (hb : exec i (a.atBlock l) = .next b)
    (hc : exec i (s.atBlock l) = .next c) (hd : exec i (c.atBlock k) = .next d)
    {x : Place} (hx : ¬x.InBlock (s.atBlock l).engine) : x.reads b.engine = x.reads d.engine := by
  have hkept : x.reads (c.atBlock k).engine = x.reads (s.atBlock k).engine := by
    rw [reads_atBlock, reads_atBlock, exec_reads_unwritten hc fun _ _ => hx, reads_atBlock]
  calc x.reads b.engine
    _ = x.reads (a.atBlock l).engine :=
        exec_reads_unwritten hb fun _ _ => mt (inBlock_congr (dims_same_atBlock l ha)).mp hx
    _ = x.reads a.engine := reads_atBlock x a l
    _ = x.reads d.engine :=
        (exec_reads_congr (dims_same_atBlock k hc) (pipeline_keeps_reads k hi hc) ha hd hkept).symm

end TwoBlocks

/-- Settles O50: every place is outside one of the two blocks. -/
theorem blocksAreIndependent : Obligations.BlocksAreIndependent := by
  intro i s a b c d k l hi hk _ hkl ha hb hc hd
  have horder : ∀ x : Place, x.reads b.engine = x.reads d.engine := fun x => by
    obtain hx | hx := not_inBlock_or hk hkl x
    · exact (reads_order_eq_outside hi hc hd ha hb hx).symm
    · exact reads_order_eq_outside hi ha hb hc hd hx
  exact ⟨fun p => Sum.inl.inj (horder (.element p)), fun addr => Sum.inr.inj (horder (.byte addr))⟩

end Sys2Proof.Proofs

/-! PROOFS. The command word: a word's fixed bits and its operands together are the word, so that a word matches a row
of the opcode map exactly when the encoder writes it from that row (30_encoding.md R92, R94, R95). -/

namespace Sys2Proof.Proofs

/-! ### The fields of an assembled word (30_encoding.md R91) -/

theorem widthField_le (cmd : CommandWord) : widthField cmd ≤ 127 := by
  simp only [widthField, commandBits]
  omega

theorem lsbField_le (cmd : CommandWord) : lsbField cmd ≤ 63 := by
  simp only [lsbField, commandBits]
  omega

theorem widthField_assembleWord {op width lsb : Nat} (hw : width ≤ 127) (hl : lsb ≤ 63) :
    widthField (assembleWord op width lsb) = width := by
  simp only [widthField, commandBits, assembleWord, BitVec.toNat_ofNat]
  omega

theorem lsbField_assembleWord {op width lsb : Nat} (hl : lsb ≤ 63) :
    lsbField (assembleWord op width lsb) = lsb := by
  simp only [lsbField, commandBits, assembleWord, BitVec.toNat_ofNat]
  omega

/-! ### What the bits outside a format's mask hold (30_encoding.md R92) -/

/-- The `width` a format carries: a field that carries no operand is 0 (30_encoding.md R92). -/
def formatWidth : Format → Nat → Nat
  | .D, width | .W, width => width
  | .N, _ => 0

/-- The `lsb` a format carries: only the descriptor format has one (30_encoding.md R92). -/
def formatLsb : Format → Nat → Nat
  | .D, lsb => lsb
  | .W, _ | .N, _ => 0

theorem formatWidth_le {width : Nat} (f : Format) (h : width ≤ 127) : formatWidth f width ≤ 127 := by
  cases f <;> simp [formatWidth, h]

theorem formatLsb_le {lsb : Nat} (f : Format) (h : lsb ≤ 63) : formatLsb f lsb ≤ 63 := by
  cases f <;> simp [formatLsb, h]

theorem formatWidth_idem (f : Format) (width : Nat) :
    formatWidth f (formatWidth f width) = formatWidth f width := by
  cases f <;> rfl

theorem formatLsb_idem (f : Format) (lsb : Nat) : formatLsb f (formatLsb f lsb) = formatLsb f lsb := by
  cases f <;> rfl

/-- Bits selected by two masks without a common bit add up. -/
theorem and_add_and_of_disjoint {w : Nat} (x : BitVec w) {a b : BitVec w} (h : a &&& b = 0#w) :
    (x &&& a) + (x &&& b) = x &&& (a ||| b) := by
  have hdisj : (x &&& a) &&& (x &&& b) = 0#w := by
    rw [← BitVec.zero_and (x := x), ← h]
    ac_rfl
  rw [BitVec.add_eq_or_of_and_eq_zero _ _ hdisj]
  ext i
  simp [Bool.and_or_distrib_left]

/-- A mask of `len` ones from bit `lo` up selects a field in its place. -/
theorem and_fieldMask (x lo len : Nat) : x &&& (2 ^ len - 1) <<< lo = x / 2 ^ lo % 2 ^ len * 2 ^ lo := by
  rw [← Nat.shiftLeft_eq, ← Nat.shiftRight_eq_div_pow]
  refine Nat.eq_of_testBit_eq fun i => ?_
  simp only [Nat.testBit_and, Nat.testBit_shiftLeft, Nat.testBit_two_pow_sub_one, Nat.testBit_mod_two_pow,
    Nat.testBit_shiftRight]
  grind

theorem and_commandMask (cmd : CommandWord) (hi lo : Nat) :
    cmd &&& BitVec.ofNat 32 ((2 ^ (hi - lo + 1) - 1) <<< lo) = BitVec.ofNat 32 (commandBits cmd hi lo * 2 ^ lo) := by
  rw [commandBits, ← and_fieldMask, BitVec.ofNat_and, BitVec.ofNat_toNat, BitVec.setWidth_eq]

/-- The bits a format leaves free are its operands. -/
theorem freeBits_eq (f : Format) (cmd : CommandWord) : cmd &&& ~~~formatMask f =
    BitVec.ofNat 32 (formatWidth f (widthField cmd) * 2 ^ 8 + formatLsb f (lsbField cmd)) := by
  have hwidth : cmd &&& 0x7F00#32 = BitVec.ofNat 32 (widthField cmd * 2 ^ 8) := and_commandMask cmd 14 8
  have hlsb : cmd &&& 0x3F#32 = BitVec.ofNat 32 (lsbField cmd * 2 ^ 0) := and_commandMask cmd 5 0
  rw [BitVec.ofNat_add]
  cases f with
  | D =>
    calc cmd &&& (0x7F00#32 ||| 0x3F#32)
      _ = (cmd &&& 0x7F00#32) + (cmd &&& 0x3F#32) := (and_add_and_of_disjoint cmd (by decide)).symm
      _ = _ := by rw [hwidth, hlsb, Nat.pow_zero, Nat.mul_one]; rfl
  | W => simpa [formatMask, formatWidth, formatLsb] using hwidth
  | N => simp [formatMask, formatWidth, formatLsb]

/-- A word is its fixed bits and its operands. -/
theorem fixedBits_add_operands (f : Format) (cmd : CommandWord) :
    (cmd &&& formatMask f) +
      BitVec.ofNat 32 (formatWidth f (widthField cmd) * 2 ^ 8 + formatLsb f (lsbField cmd)) = cmd := by
  rw [← freeBits_eq, and_add_and_of_disjoint cmd (BitVec.and_not_self _), BitVec.or_not_self, BitVec.and_allOnes]

/-- R92's match of the fixed bits says that the word is the assembled one. -/
theorem fixedBits_eq_iff (f : Format) (op : Nat) (cmd : CommandWord) :
    cmd &&& formatMask f = BitVec.ofNat 32 (op * 2 ^ 24) ↔
      cmd = assembleWord op (formatWidth f (widthField cmd)) (formatLsb f (lsbField cmd)) := by
  rw [assembleWord, Nat.add_assoc, BitVec.ofNat_add]
  nth_rw 2 [← fixedBits_add_operands f cmd]
  exact (BitVec.add_left_inj _).symm

/-! ### The rows of the opcode map (30_encoding.md R94) -/

theorem opcode_lt : ∀ row ∈ opcodeMap, row.opcode < 256 := by decide

/-- No two rows share an opcode (30_encoding.md R95). -/
theorem find_opcode : ∀ row ∈ opcodeMap, opcodeMap.find? (fun r => r.opcode == row.opcode) = some row := by
  simp [opcodeMap]

theorem build_formatOperands (width lsb : Nat) : ∀ row ∈ opcodeMap,
    row.build (formatWidth row.format width) (formatLsb row.format lsb) = row.build width lsb := by
  simp [opcodeMap, formatWidth, formatLsb]

theorem encode_build (width lsb : Nat) : ∀ row ∈ opcodeMap, encode (row.build width lsb) =
    assembleWord row.opcode (formatWidth row.format width) (formatLsb row.format lsb) := by
  simp [opcodeMap, encode, formatWidth, formatLsb]

theorem wellFormed_build_iff (width lsb : Nat) : ∀ row ∈ opcodeMap, (row.build width lsb).wellFormed = true ↔
    formatWidth row.format width ≤ 127 ∧ formatLsb row.format lsb ≤ 63 := by
  simp [opcodeMap, Instr.wellFormed, widthEncodable, lsbEncodable, formatWidth, formatLsb]

theorem exists_row (i : Instr) : ∃ row ∈ opcodeMap, ∃ width lsb, row.build width lsb = i := by
  cases i <;> simp [opcodeMap]

/-- The well-formed commands are those a row builds from operands that fit their fields. -/
theorem wellFormed_iff_exists_row (i : Instr) : i.wellFormed = true ↔
    ∃ row ∈ opcodeMap, ∃ width ≤ 127, ∃ lsb ≤ 63, row.build width lsb = i := by
  constructor
  · intro hwf
    obtain ⟨row, hrow, width, lsb, rfl⟩ := exists_row i
    obtain ⟨hw, hl⟩ := (wellFormed_build_iff width lsb row hrow).mp hwf
    exact ⟨row, hrow, _, hw, _, hl, build_formatOperands width lsb row hrow⟩
  · rintro ⟨row, hrow, width, hw, lsb, hl, rfl⟩
    exact (wellFormed_build_iff width lsb row hrow).mpr ⟨formatWidth_le _ hw, formatLsb_le _ hl⟩

/-! ### Decode and encode agree -/

/-- The decoder on a word that carries the opcode of a row. -/
theorem decode_of_opcode {row : OpcodeRow} {cmd : CommandWord} (hrow : row ∈ opcodeMap)
    (hop : opcodeField cmd = row.opcode) : decode cmd =
      if cmd = assembleWord row.opcode (formatWidth row.format (widthField cmd)) (formatLsb row.format (lsbField cmd))
      then .command (row.build (widthField cmd) (lsbField cmd)) else .illegal (.nonzeroReserved row.opcode) := by
  simp only [decode, hop, find_opcode row hrow, OpcodeRow.matchBits, fixedBits_eq_iff]

/-- A word that decodes carries the opcode of the row it decodes by. -/
theorem exists_row_of_decode {cmd : CommandWord} {i : Instr} (h : decode cmd = .command i) :
    ∃ row ∈ opcodeMap, opcodeField cmd = row.opcode := by
  cases hfind : opcodeMap.find? (fun row => row.opcode == opcodeField cmd) with
  | none => simp [decode, hfind] at h
  | some row =>
    exact ⟨row, List.mem_of_find?_eq_some hfind, (by simpa using List.find?_some hfind : row.opcode = _).symm⟩

theorem decode_encode_build {row : OpcodeRow} {width lsb : Nat} (hrow : row ∈ opcodeMap) (hw : width ≤ 127)
    (hl : lsb ≤ 63) : decode (encode (row.build width lsb)) = .command (row.build width lsb) := by
  have hw' := formatWidth_le row.format hw
  have hl' := formatLsb_le row.format hl
  rw [encode_build _ _ row hrow,
    decode_of_opcode hrow (Laws.opcodeField_assembleWord (opcode_lt row hrow) hw' hl'),
    widthField_assembleWord hw' hl', lsbField_assembleWord hl', formatWidth_idem, formatLsb_idem, if_pos rfl,
    build_formatOperands _ _ row hrow]

/-- Settles O2: a row builds the command, and the word of that row carries the row's opcode and operands. -/
theorem decodeOfEncode : Obligations.DecodeOfEncode := by
  intro i hwf
  obtain ⟨row, hrow, width, hw, lsb, hl, rfl⟩ := (wellFormed_iff_exists_row i).mp hwf
  exact decode_encode_build hrow hw hl

/-- Settles O3: a word whose fixed bits match a row is that row's word of its own two fields. -/
theorem encodeOfDecode : Obligations.EncodeOfDecode := by
  intro word i h
  obtain ⟨row, hrow, hop⟩ := exists_row_of_decode h
  rw [decode_of_opcode hrow hop] at h
  split at h
  case isTrue hword =>
    obtain rfl := Decoded.command.inj h
    exact ⟨(encode_build _ _ row hrow).trans hword.symm,
      (wellFormed_iff_exists_row _).mpr ⟨row, hrow, _, widthField_le word, _, lsbField_le word, rfl⟩⟩
  case isFalse => cases h

/-- Settles O1: the ten words, by evaluating the decoder. -/
theorem specWordsDecode : Obligations.SpecWordsDecode := by
  unfold Obligations.SpecWordsDecode
  decide

end Sys2Proof.Proofs

/-! PROOFS. The field functions and conversions of the BitField Codec, bit by bit (40_bitfield_codec.md R110, R122). -/

namespace Sys2Proof.Proofs

open Sys2Proof.Machine

/-! ### `field` and `insert`, bit by bit (40_bitfield_codec.md R110) -/

section Fields

variable {word w l u i : Nat}

theorem testBit_fieldGet (word w l i : Nat) :
    (fieldGet word w l).testBit i = (decide (i < w) && word.testBit (i + l)) := by
  rw [fieldGet, Nat.testBit_mod_two_pow, Nat.testBit_div_two_pow]

/-- `insert` as the three parts of the new Word: above the field, the field, below the field. -/
theorem fieldInsert_eq_parts (word w l u : Nat) :
    fieldInsert word w l u = 2 ^ l * (2 ^ w * (word / 2 ^ l / 2 ^ w) + u) + word % 2 ^ l := by
  have hlow : 2 ^ l * (word / 2 ^ l) + word % 2 ^ l = word := Nat.div_add_mod _ _
  have hfield : 2 ^ w * (word / 2 ^ l / 2 ^ w) + fieldGet word w l = word / 2 ^ l := Nat.div_add_mod _ _
  rw [← hfield, Nat.mul_add, Nat.mul_comm _ (fieldGet word w l)] at hlow
  rw [fieldInsert, Nat.mul_add, Nat.mul_comm _ u]
  omega

theorem testBit_fieldInsert (hu : u < 2 ^ w) (word l i : Nat) : (fieldInsert word w l u).testBit i =
    if l ≤ i ∧ i < l + w then u.testBit (i - l) else word.testBit i := by
  rw [fieldInsert_eq_parts, Nat.testBit_two_pow_mul_add _ (Nat.mod_lt _ (Nat.two_pow_pos l)),
    Nat.testBit_two_pow_mul_add _ hu, Nat.testBit_mod_two_pow]
  by_cases hlow : i < l
  · simp [hlow, show ¬l ≤ i by omega]
  · by_cases hin : i - l < w
    · simp [hlow, hin, show l ≤ i ∧ i < l + w by omega]
    · simp [hlow, hin, Nat.testBit_div_two_pow, show ¬i < l + w by omega, show i - l - w + w + l = i by omega]

/-- A Word stays a Word: the bits above bit 63 are those of the old one. -/
theorem fieldInsert_lt (hword : word < 2 ^ 64) (hwl : w + l ≤ 64) (hu : u < 2 ^ w) :
    fieldInsert word w l u < 2 ^ 64 := by
  refine Nat.lt_pow_two_of_testBit _ fun i hi => ?_
  rw [testBit_fieldInsert hu, if_neg (by omega)]
  exact Nat.testBit_lt_two_pow (hword.trans_le (Nat.pow_le_pow_right two_pos hi))

/-- The formula of 40_bitfield_codec.md R110 with a subtraction that could be negative. -/
theorem fieldInsert_int (word w l u : Nat) :
    (fieldInsert word w l u : Int) = (word : Int) - fieldGet word w l * 2 ^ l + u * 2 ^ l := by
  rw [fieldInsert, Nat.cast_add, Nat.cast_sub (fieldGet_mul_le word w l)]
  push_cast
  rfl

/-- Set then get (40_bitfield_codec.md R122). -/
theorem fieldGet_fieldInsert_same (hu : u < 2 ^ w) (word l : Nat) : fieldGet (fieldInsert word w l u) w l = u := by
  refine Nat.eq_of_testBit_eq fun i => ?_
  rw [testBit_fieldGet, testBit_fieldInsert hu]
  by_cases hi : i < w
  · simp [hi, show i + l < l + w by omega]
  · simp [hi, Nat.testBit_lt_two_pow (hu.trans_le (Nat.pow_le_pow_right two_pos (not_lt.mp hi)))]

/-- A field apart from the one set reads as before (40_bitfield_codec.md R122). -/
theorem fieldGet_fieldInsert_disjoint {w' l' : Nat} (hu : u < 2 ^ w) (hdisjoint : l' + w' ≤ l ∨ l + w ≤ l')
    (word : Nat) : fieldGet (fieldInsert word w l u) w' l' = fieldGet word w' l' := by
  refine Nat.eq_of_testBit_eq fun i => ?_
  rw [testBit_fieldGet, testBit_fieldGet]
  by_cases hi : i < w'
  · rw [testBit_fieldInsert hu, if_neg (by omega)]
  · simp [hi]

end Fields

/-- Settles O15: the formulas, the range and the bits of `insert`. -/
theorem fieldArithmetic : Obligations.FieldArithmetic := fun word w l u hword hwl hu =>
  ⟨rfl, fieldGet_lt word w l, fieldGet_width_zero word l, fieldInsert_int word w l u, fieldInsert_lt hword hwl hu,
    testBit_fieldInsert hu word l⟩

/-! ### The conversions (40_bitfield_codec.md R120 to R122) -/

/-- `sext_w` is the two's complement reading of `w` bits. -/
theorem sextField_toNat {w : Nat} (x : BitVec w) : sextField w x.toNat = x.toInt := by
  rw [BitVec.toInt_eq_toNat_cond, sextField]
  have hx := x.isLt
  cases w with
  | zero => simp [BitVec.eq_nil x]
  | succ n =>
    rw [Nat.add_sub_cancel]
    push_cast
    split <;> split <;> omega

theorem sextField_eq_toInt {w u : Nat} (hu : u < 2 ^ w) : sextField w u = (BitVec.ofNat w u).toInt := by
  rw [← sextField_toNat, BitVec.toNat_ofNat, Nat.mod_eq_of_lt hu]

/-- A fitting signed value survives its field (40_bitfield_codec.md R122). -/
theorem sextField_fieldPattern {w : Nat} {v : Int} (hw : 1 ≤ w) (hlo : -(2 ^ (w - 1)) ≤ v)
    (hhi : v ≤ 2 ^ (w - 1) - 1) : sextField w (fieldPattern w v) = v := by
  have hpattern : fieldPattern w v = (BitVec.ofInt w v).toNat := by simp [fieldPattern, BitVec.toNat_ofInt]
  rw [hpattern, sextField_toNat, BitVec.toInt_ofInt_eq_self hw hlo (by omega)]

/-- The pattern of the signed reading of a field is the field (40_bitfield_codec.md R122). -/
theorem sextField_emod {w u : Nat} (hu : u < 2 ^ w) : sextField w u % 2 ^ w = u := by
  have hpow : (u : Int) < 2 ^ w := by exact_mod_cast hu
  have hu' : (u : Int) % 2 ^ w = u := Int.emod_eq_of_lt (Int.natCast_nonneg u) hpow
  unfold sextField
  split
  · exact hu'
  · rw [Int.sub_emod_right, hu']

/-- Settles O16: `insert` bit by bit, and the conversions as Lean's two's complement reading. -/
theorem setThenGetAndConversionLaws : Obligations.SetThenGetAndConversionLaws :=
  ⟨fun word _ l _ _ _ _ hu => ⟨fieldGet_fieldInsert_same hu word l,
      fun _ _ _ hdisjoint => fieldGet_fieldInsert_disjoint hu hdisjoint word⟩,
    fun _ _ hw _ hlo hhi => sextField_fieldPattern hw hlo hhi,
    fun _ _ _ _ hu => sextField_emod hu⟩

end Sys2Proof.Proofs

/-! PROOFS. The eight commands of the BitField Codec: each is its descriptor check, its value check and one write
(40_bitfield_codec.md R113 to R121), and what they do one after another (R123). -/

namespace Sys2Proof.Proofs

open Sys2Proof.Machine

/-! ### The three outcomes of a checked command (40_bitfield_codec.md R113, 60_exceptions.md R236) -/

/-- The state after a command with a descriptor check and a value check, `BadDescriptor` before `OutOfRange`, that
leaves the engine `e` where both pass. -/
def checkedOutcome (legal fits : Bool) (e : Engine Config.F) (s : State) : State :=
  if legal then if fits then s.succeedsAs e else s.failsWith 1 else s.failsWith 4

section Outcomes

variable {legal fits : Bool} {i : Instr} {e : Engine Config.F} {s a : State}

theorem exec_of_checks (h : commandCheck i s.engine =
      (raiseUnless legal .badDescriptor).or (raiseUnless fits .outOfRange)) :
    exec i s = .next (checkedOutcome legal fits (commandEffect i s.engine) s) := by
  rw [exec_eq, h]
  cases legal <;> cases fits <;> rfl

/-- A command without a value check. -/
theorem exec_of_descriptorCheck (h : commandCheck i s.engine = raiseUnless legal .badDescriptor) :
    exec i s = .next (checkedOutcome legal true (commandEffect i s.engine) s) :=
  exec_of_checks (h.trans (Option.or_none).symm)

theorem exec_done (h : exec i s = .next (checkedOutcome legal fits e s)) (hl : legal = true) (hf : fits = true) :
    exec i s = .next (s.succeedsAs e) := by
  rw [h, checkedOutcome, if_pos hl, if_pos hf]

theorem exec_outOfRange (h : exec i s = .next (checkedOutcome legal fits e s)) (hl : legal = true)
    (hf : ¬fits = true) : exec i s = .next (s.failsWith 1) := by
  rw [h, checkedOutcome, if_pos hl, if_neg hf]

theorem exec_badDescriptor (h : exec i s = .next (checkedOutcome legal fits e s)) (hl : ¬legal = true) :
    exec i s = .next (s.failsWith 4) := by
  rw [h, checkedOutcome, if_neg hl]

theorem eq_of_exec_done (h : exec i s = .next (checkedOutcome legal fits e s)) (hl : legal = true)
    (hf : fits = true) (ha : exec i s = .next a) : a = s.succeedsAs e :=
  Host.Outcome.next.inj (ha.symm.trans (exec_done h hl hf))

/-- The code tells the outcomes apart. -/
theorem checkedOutcome_err : (checkedOutcome legal fits e s).engine.status.err =
    if legal then if fits then 0 else 1 else 4 := by
  cases legal <;> cases fits <;> rfl

theorem exec_err (h : exec i s = .next (checkedOutcome legal fits e s)) (ha : exec i s = .next a) :
    a.engine.status.err = if legal then if fits then 0 else 1 else 4 := by
  obtain rfl := Host.Outcome.next.inj (h.symm.trans ha)
  exact checkedOutcome_err

/-- Where the command ends without an error, its checks passed and it left its effect. -/
theorem of_exec_err_eq_zero (h : exec i s = .next (checkedOutcome legal fits e s)) (ha : exec i s = .next a)
    (herr : a.engine.status.err = 0) : legal = true ∧ fits = true ∧ a = s.succeedsAs e := by
  have hchecks : legal = true ∧ fits = true := by
    rw [exec_err h ha] at herr
    cases legal <;> cases fits <;> simp_all
  obtain ⟨hl, hf⟩ := hchecks
  exact ⟨hl, hf, eq_of_exec_done h hl hf ha⟩

theorem exec_err_eq_one_iff (h : exec i s = .next (checkedOutcome legal fits e s)) (hl : legal = true)
    (ha : exec i s = .next a) : a.engine.status.err = 1 ↔ ¬fits = true := by
  rw [exec_err h ha, if_pos hl]
  cases fits <;> decide

end Outcomes

/-! ### Each command's outcome -/

section Commands

variable (w l : Nat) (s : State)

theorem exec_fitsu : exec (.fitsu w) s = .next (checkedOutcome (widthLegal w) true
    { s.engine with status := statusSetFlag s.engine.status (fitsU (asU s.engine.val) w) } s) :=
  exec_of_descriptorCheck rfl

theorem exec_fitss : exec (.fitss w) s = .next (checkedOutcome (widthLegal w) true
    { s.engine with status := statusSetFlag s.engine.status (fitsS (asS s.engine.val) w) } s) :=
  exec_of_descriptorCheck rfl

theorem exec_getu : exec (.getu w l) s = .next (checkedOutcome (getDescriptorLegal w l) true
    { s.engine with val := pat64 (fieldGet (asU s.engine.word) w l) } s) :=
  exec_of_descriptorCheck rfl

theorem exec_gets : exec (.gets w l) s = .next (checkedOutcome (getDescriptorLegal w l) true
    { s.engine with val := pat64 (if w = 0 then 0 else sextField w (fieldGet (asU s.engine.word) w l)) } s) :=
  exec_of_descriptorCheck rfl

theorem exec_setu : exec (.setu w l) s = .next (checkedOutcome (setDescriptorLegal w l)
    (fitsU (asU s.engine.val) w)
    { s.engine with word := pat64 (fieldInsert (asU s.engine.word) w l (asU s.engine.val)) } s) :=
  exec_of_checks rfl

theorem exec_sets : exec (.sets w l) s = .next (checkedOutcome (setDescriptorLegal w l)
    (fitsS (asS s.engine.val) w)
    { s.engine with word := pat64 (fieldInsert (asU s.engine.word) w l (fieldPattern w (asS s.engine.val))) } s) :=
  exec_of_checks rfl

theorem exec_s2u : exec (.s2u w) s = .next (checkedOutcome (widthLegal w) (fitsS (asS s.engine.val) w)
    { s.engine with val := pat64 (asS s.engine.val % 2 ^ w) } s) :=
  exec_of_checks rfl

theorem exec_u2s : exec (.u2s w) s = .next (checkedOutcome (widthLegal w) (fitsU (asU s.engine.val) w)
    { s.engine with val := pat64 (sextField w (asU s.engine.val)) } s) :=
  exec_of_checks rfl

end Commands

/-! ### The checks on registers (40_bitfield_codec.md R111 to R113) -/

section Checks

variable {w l : Nat}

theorem getDescriptorLegal_iff_add_le : getDescriptorLegal w l = true ↔ w + l ≤ 64 := by
  rw [getDescriptorLegal_iff]
  omega

theorem setDescriptorLegal_iff_add_le : setDescriptorLegal w l = true ↔ 1 ≤ w ∧ w + l ≤ 64 := by
  rw [setDescriptorLegal_iff]
  omega

theorem fitsU_natCast_iff (n w : Nat) : fitsU n w = true ↔ n < 2 ^ w := by
  rw [fitsU_iff]
  zify
  omega

theorem fitsS_asS_iff (r : Word64) (w : Nat) :
    fitsS (asS r) w = true ↔ -(2 ^ (w - 1)) ≤ r.toInt ∧ r.toInt ≤ 2 ^ (w - 1) - 1 := by
  rw [fitsS_iff, asS_eq_toInt]

theorem not_widthLegal (hbad : w = 0 ∨ 64 < w) : ¬widthLegal w = true := by
  rw [widthLegal_iff]
  omega

theorem not_setDescriptorLegal (hbad : w = 0 ∨ 64 < w + l) : ¬setDescriptorLegal w l = true := by
  rw [setDescriptorLegal_iff_add_le]
  omega

theorem not_fitsS_asS {r : Word64} (hout : r.toInt < -(2 ^ (w - 1)) ∨ 2 ^ (w - 1) - 1 < r.toInt) :
    ¬fitsS (asS r) w = true := by
  rw [fitsS_asS_iff]
  omega

end Checks

/-! ### What a register holds after a write -/

section Registers

variable {w l u i : Nat}

theorem getLsbD_pat64_natCast (hi : i < 64) (n : Nat) : (pat64 n).getLsbD i = n.testBit i := by
  rw [pat64, BitVec.ofInt_natCast, BitVec.getLsbD_ofNat, decide_eq_true hi, Bool.true_and]

theorem asU_pat64_natCast {n : Nat} (hn : n < 2 ^ 64) : asU (pat64 n) = n := by
  have h := asU_pat64_of_range (Int.natCast_nonneg n) (by exact_mod_cast hn)
  exact_mod_cast h

theorem lt_of_lt_two_pow_width (hw : w ≤ 64) (hu : u < 2 ^ w) : u < 2 ^ 64 :=
  hu.trans_le (Nat.pow_le_pow_right two_pos hw)

theorem fieldPattern_cast (w : Nat) (v : Int) : (fieldPattern w v : Int) = v % 2 ^ w :=
  Int.toNat_of_nonneg (Int.emod_nonneg v (by positivity))

theorem asU_pat64_emod (hw : w ≤ 64) (v : Int) : asU (pat64 (v % 2 ^ w)) = fieldPattern w v := by
  rw [← fieldPattern_cast, asU_pat64_natCast (lt_of_lt_two_pow_width hw (fieldPattern_lt w v))]

/-- The low bits of a pattern do not depend on how it is read. -/
theorem fieldPattern_asS (hw : w ≤ 64) (r : Word64) : fieldPattern w (asS r) = asU r % 2 ^ w := by
  have hread : (asU r : Int) = asS r % 2 ^ 64 := by rw [← asU_pat64, pat64_asS]
  zify
  rw [fieldPattern_cast, hread, Int.emod_emod_of_dvd _ (pow_dvd_pow 2 hw)]

theorem testBit_fieldPattern_asS (hw : w ≤ 64) (r : Word64) (hi : i < w) :
    (fieldPattern w (asS r)).testBit i = r.getLsbD i := by
  rw [fieldPattern_asS hw, Nat.testBit_mod_two_pow, decide_eq_true hi, Bool.true_and]
  rfl

theorem getLsbD_pat64_fieldInsert (hi : i < 64) (hu : u < 2 ^ w) (word : Word64) (l : Nat) :
    (pat64 (fieldInsert (asU word) w l u)).getLsbD i =
      if l ≤ i ∧ i < l + w then u.testBit (i - l) else word.getLsbD i := by
  rw [getLsbD_pat64_natCast hi, testBit_fieldInsert hu]
  rfl

theorem asU_pat64_fieldInsert (hwl : w + l ≤ 64) (hu : u < 2 ^ w) (word : Word64) :
    asU (pat64 (fieldInsert (asU word) w l u)) = fieldInsert (asU word) w l u :=
  asU_pat64_natCast (fieldInsert_lt (asU_lt word) hwl hu)

/-- Storing a sign-extended field is sign extension of its bits. -/
theorem pat64_sextField (hu : u < 2 ^ w) : pat64 (sextField w u) = (BitVec.ofNat w u).signExtend 64 := by
  rw [sextField_eq_toInt hu]
  rfl

/-- A sign-extended field, bit by bit (40_bitfield_codec.md R117). -/
theorem getLsbD_pat64_sextField (hi : i < 64) (hw : w ≠ 0) (hu : u < 2 ^ w) :
    (pat64 (sextField w u)).getLsbD i = if i < w then u.testBit i else u.testBit (w - 1) := by
  have hbit : ∀ j < w, (BitVec.ofNat w u).getLsbD j = u.testBit j := fun j hj => by
    rw [BitVec.getLsbD_ofNat, decide_eq_true hj, Bool.true_and]
  rw [pat64_sextField hu, BitVec.getLsbD_signExtend, decide_eq_true hi, Bool.true_and, BitVec.msb_eq_getLsbD_last,
    hbit (w - 1) (by omega)]
  split
  · next hiw => exact hbit i hiw
  · rfl

/-- Inserts in disjoint fields commute (40_bitfield_codec.md R123). -/
theorem pat64_fieldInsert_comm {w' l' u' : Nat} (hdisjoint : l + w ≤ l' ∨ l' + w' ≤ l) (hu : u < 2 ^ w)
    (hu' : u' < 2 ^ w') (word : Word64) :
    pat64 (fieldInsert (asU (pat64 (fieldInsert (asU word) w l u))) w' l' u') =
      pat64 (fieldInsert (asU (pat64 (fieldInsert (asU word) w' l' u'))) w l u) := by
  refine BitVec.eq_of_getLsbD_eq fun i hi => ?_
  simp only [getLsbD_pat64_fieldInsert hi hu, getLsbD_pat64_fieldInsert hi hu']
  split_ifs with hin' hin
  · omega
  · rfl
  · rfl
  · rfl

end Registers

/-! ### `FITSU`, `FITSS`, `GETU`, `GETS` -/

/-- Settles O17: one descriptor check, and the flag is the model's range test. -/
theorem fitsuResult : Obligations.FitsuResult := by
  refine fun w s => ⟨fun h1 hw => ?_,
    fun hbad => exec_badDescriptor (exec_fitsu w s) (not_widthLegal hbad)⟩
  have hflag : fitsU (asU s.engine.val) w = decide (s.engine.val.toNat ≤ 2 ^ w - 1) := by
    rw [Bool.eq_iff_iff, fitsU_natCast_iff, decide_eq_true_iff, Nat.le_sub_one_iff_lt (Nat.two_pow_pos w)]
    rfl
  rw [← hflag]
  exact exec_done (exec_fitsu w s) ((widthLegal_iff w).mpr ⟨h1, hw⟩) rfl

/-- Settles O18: one descriptor check, and the flag is the model's range test. -/
theorem fitssResult : Obligations.FitssResult := by
  refine fun w s => ⟨fun h1 hw => ?_,
    fun hbad => exec_badDescriptor (exec_fitss w s) (not_widthLegal hbad)⟩
  rw [← asS_eq_toInt]
  exact exec_done (exec_fitss w s) ((widthLegal_iff w).mpr ⟨h1, hw⟩) rfl

/-- Settles O19: `field` is the formula. -/
theorem getuResult : Obligations.GetuResult := by
  refine fun w l s => ⟨fun hwl => ?_,
    fun hbad => exec_badDescriptor (exec_getu w l s) (mt getDescriptorLegal_iff_add_le.mp (not_le.mpr hbad))⟩
  rw [← BitVec.ofInt_natCast]
  exact exec_done (exec_getu w l s) (getDescriptorLegal_iff_add_le.mpr hwl) rfl

/-- Settles O20: a field of width 0 is 0, and any other is sign-extended from its top bit. -/
theorem getsResult : Obligations.GetsResult := by
  refine fun w l s => ⟨fun hwl =>
      ⟨_, exec_done (exec_gets w l s) (getDescriptorLegal_iff_add_le.mpr hwl) rfl, fun i hi => ?_⟩,
    fun hbad => exec_badDescriptor (exec_gets w l s) (mt getDescriptorLegal_iff_add_le.mp (not_le.mpr hbad))⟩
  by_cases hw : w = 0
  · rw [if_pos hw, if_pos hw]
    exact (getLsbD_pat64_natCast hi 0).trans (Nat.zero_testBit i)
  · have hfield : ∀ j < w, (fieldGet (asU s.engine.word) w l).testBit j = s.engine.word.getLsbD (l + j) :=
      fun j hj => by
        rw [testBit_fieldGet, decide_eq_true hj, Bool.true_and, Nat.add_comm]
        rfl
    rw [if_neg hw, if_neg hw, getLsbD_pat64_sextField hi hw (fieldGet_lt _ _ _), hfield (w - 1) (by omega),
      Nat.add_sub_assoc (by omega)]
    split
    · next hiw => exact hfield i hiw
    · rfl

/-! ### `SETU`, `SETS`, `S2U`, `U2S` -/

/-- Settles O21: the three outcomes, and `insert` bit by bit. -/
theorem setuResult : Obligations.SetuResult := fun w l s =>
  ⟨fun h1 hwl hv =>
      ⟨_, exec_done (exec_setu w l s) (setDescriptorLegal_iff_add_le.mpr ⟨h1, hwl⟩) ((fitsU_natCast_iff _ w).mpr hv),
        fun _ hi => getLsbD_pat64_fieldInsert hi hv s.engine.word l⟩,
    fun h1 hwl hv => exec_outOfRange (exec_setu w l s) (setDescriptorLegal_iff_add_le.mpr ⟨h1, hwl⟩)
      (mt (fitsU_natCast_iff _ w).mp (not_lt.mpr hv)),
    fun hbad => exec_badDescriptor (exec_setu w l s) (not_setDescriptorLegal hbad)⟩

/-- Settles O22: the three outcomes, and `insert` of the low bits of `VAL` bit by bit. -/
theorem setsResult : Obligations.SetsResult := by
  refine fun w l s => ⟨fun h1 hwl hlo hhi =>
      ⟨_, exec_done (exec_sets w l s) (setDescriptorLegal_iff_add_le.mpr ⟨h1, hwl⟩)
        ((fitsS_asS_iff _ w).mpr ⟨hlo, hhi⟩), fun i hi => ?_⟩,
    fun h1 hwl hout => exec_outOfRange (exec_sets w l s) (setDescriptorLegal_iff_add_le.mpr ⟨h1, hwl⟩)
      (not_fitsS_asS hout),
    fun hbad => exec_badDescriptor (exec_sets w l s) (not_setDescriptorLegal hbad)⟩
  rw [getLsbD_pat64_fieldInsert hi (fieldPattern_lt w _)]
  split
  · next hin => exact testBit_fieldPattern_asS (by omega) _ (by omega)
  · rfl

/-- Settles O23: the three outcomes, and a remainder below `2^width` is stored as it is. -/
theorem signedToUnsignedResult : Obligations.SignedToUnsignedResult := by
  refine fun w s => ⟨fun h1 hw hlo hhi => ?_,
    fun h1 hw hout => exec_outOfRange (exec_s2u w s) ((widthLegal_iff w).mpr ⟨h1, hw⟩) (not_fitsS_asS hout),
    fun hbad => exec_badDescriptor (exec_s2u w s) (not_widthLegal hbad)⟩
  have hval : (pat64 (asS s.engine.val % 2 ^ w)).toNat = fieldPattern w (asS s.engine.val) :=
    asU_pat64_emod hw (asS s.engine.val)
  refine ⟨_, exec_done (exec_s2u w s) ((widthLegal_iff w).mpr ⟨h1, hw⟩) ((fitsS_asS_iff _ w).mpr ⟨hlo, hhi⟩), ?_, ?_⟩
  · rw [hval, fieldPattern_cast, asS_eq_toInt]
  · rw [hval]
    exact fieldPattern_lt w _

/-- Settles O24: the three outcomes, and a sign-extended field reads signed as the field does. -/
theorem unsignedToSignedResult : Obligations.UnsignedToSignedResult := by
  refine fun w s => ⟨fun h1 hw hv =>
      ⟨_, exec_done (exec_u2s w s) ((widthLegal_iff w).mpr ⟨h1, hw⟩) ((fitsU_natCast_iff _ w).mpr hv), ?_⟩,
    fun h1 hw hv => exec_outOfRange (exec_u2s w s) ((widthLegal_iff w).mpr ⟨h1, hw⟩)
      (mt (fitsU_natCast_iff _ w).mp (not_lt.mpr hv)),
    fun hbad => exec_badDescriptor (exec_u2s w s) (not_widthLegal hbad)⟩
  have hlt : asU s.engine.val < 2 ^ w := hv
  rw [pat64_sextField hlt, BitVec.toInt_signExtend_of_le hw, ← sextField_eq_toInt hlt]
  rfl

/-! ### Two commands one after another (40_bitfield_codec.md R123) -/

section Sequences

variable {w l : Nat} {s a b : State}

/-- `GETU` leaves the field in `VAL`, which `U2S` finds in range. -/
theorem getu_then_u2s (h1 : 1 ≤ w) (hwl : w + l ≤ 64) :
    ∃ a b, exec (.getu w l) s = .next a ∧ exec (.u2s w) a = .next b ∧ exec (.gets w l) s = .next b := by
  have hw : w ≤ 64 := by omega
  have hlt := fieldGet_lt (asU s.engine.word) w l
  have hval := asU_pat64_natCast (lt_of_lt_two_pow_width hw hlt)
  have hgetu := exec_done (exec_getu w l s) (getDescriptorLegal_iff_add_le.mpr hwl) rfl
  have hgets := exec_done (exec_gets w l s) (getDescriptorLegal_iff_add_le.mpr hwl) rfl
  refine ⟨_, _, hgetu, exec_done (exec_u2s w _) ((widthLegal_iff w).mpr ⟨h1, hw⟩)
    ((fitsU_natCast_iff _ w).mpr (hval.trans_lt hlt)), hgets.trans ?_⟩
  rw [if_neg (by omega)]
  simp only [State.succeedsAs, hval]

/-- `S2U` leaves in `VAL` the pattern that `SETS` inserts. -/
theorem s2u_then_setu (h1 : 1 ≤ w) (hwl : w + l ≤ 64) (hfits : fitsS (asS s.engine.val) w = true) :
    ∃ a b c, exec (.s2u w) s = .next a ∧ exec (.setu w l) a = .next b ∧ exec (.sets w l) s = .next c ∧
      b.engine.word = c.engine.word := by
  have hw : w ≤ 64 := by omega
  have hlegal := setDescriptorLegal_iff_add_le.mpr ⟨h1, hwl⟩
  have hval := asU_pat64_emod hw (asS s.engine.val)
  refine ⟨_, _, _, exec_done (exec_s2u w s) ((widthLegal_iff w).mpr ⟨h1, hw⟩) hfits,
    exec_done (exec_setu w l _) hlegal ((fitsU_natCast_iff _ w).mpr (hval.trans_lt (fieldPattern_lt w _))),
    exec_done (exec_sets w l s) hlegal hfits, ?_⟩
  simp only [State.succeedsAs, hval]

/-- Both commands raise `OutOfRange` on the same check of `VAL`. -/
theorem sets_err_iff_s2u_err (h1 : 1 ≤ w) (hwl : w + l ≤ 64) (ha : exec (.sets w l) s = .next a)
    (hb : exec (.s2u w) s = .next b) : a.engine.status.err = 1 ↔ b.engine.status.err = 1 := by
  have hw : w ≤ 64 := by omega
  rw [exec_err_eq_one_iff (exec_sets w l s) (setDescriptorLegal_iff_add_le.mpr ⟨h1, hwl⟩) ha,
    exec_err_eq_one_iff (exec_s2u w s) ((widthLegal_iff w).mpr ⟨h1, hw⟩) hb]

theorem getu_after_setu (ha : exec (.setu w l) s = .next a) (herr : a.engine.status.err = 0)
    (hb : exec (.getu w l) a = .next b) : b.engine.val = s.engine.val := by
  obtain ⟨hlegal, hfits, rfl⟩ := of_exec_err_eq_zero (exec_setu w l s) ha herr
  obtain ⟨-, hwl⟩ := setDescriptorLegal_iff_add_le.mp hlegal
  have hv := (fitsU_natCast_iff _ w).mp hfits
  obtain rfl := eq_of_exec_done (exec_getu w l _) (getDescriptorLegal_iff_add_le.mpr hwl) rfl hb
  simp only [State.succeedsAs, asU_pat64_fieldInsert hwl hv, fieldGet_fieldInsert_same hv, pat64_asU]

theorem gets_after_sets (ha : exec (.sets w l) s = .next a) (herr : a.engine.status.err = 0)
    (hb : exec (.gets w l) a = .next b) : b.engine.val = s.engine.val := by
  obtain ⟨hlegal, hfits, rfl⟩ := of_exec_err_eq_zero (exec_sets w l s) ha herr
  obtain ⟨h1, hwl⟩ := setDescriptorLegal_iff_add_le.mp hlegal
  obtain ⟨hlo, hhi⟩ := (fitsS_iff _ w).mp hfits
  have hlt := fieldPattern_lt w (asS s.engine.val)
  obtain rfl := eq_of_exec_done (exec_gets w l _) (getDescriptorLegal_iff_add_le.mpr hwl) rfl hb
  simp only [State.succeedsAs, if_neg (by omega : w ≠ 0), asU_pat64_fieldInsert hwl hlt,
    fieldGet_fieldInsert_same hlt, sextField_fieldPattern h1 hlo hhi, pat64_asS]

end Sequences

/-! ### Two set commands on disjoint fields (40_bitfield_codec.md R123) -/

/-- What the two set commands have in common: `VAL` alone decides whether it fits and which pattern is inserted. -/
structure SetsField (i : Instr) (w l : Nat) (fits : Word64 → Bool) (pattern : Word64 → Nat) : Prop where
  pattern_lt : ∀ v, fits v = true → pattern v < 2 ^ w
  outcome : ∀ (s : State) (v : Word64), exec i (s.withVal v) = .next (checkedOutcome (setDescriptorLegal w l) (fits v)
    { (s.withVal v).engine with word := pat64 (fieldInsert (asU s.engine.word) w l (pattern v)) } (s.withVal v))

theorem setsField_setu (w l : Nat) : SetsField (.setu w l) w l (fun v => fitsU (asU v) w) asU where
  pattern_lt v hv := (fitsU_natCast_iff (asU v) w).mp hv
  outcome s v := exec_setu w l (s.withVal v)

theorem setsField_sets (w l : Nat) :
    SetsField (.sets w l) w l (fun v => fitsS (asS v) w) (fun v => fieldPattern w (asS v)) where
  pattern_lt _ _ := fieldPattern_lt w _
  outcome s v := exec_sets w l (s.withVal v)

theorem exists_setsField {i : Instr} {w l : Nat} (hi : i ∈ [Instr.setu w l, .sets w l]) :
    ∃ fits pattern, SetsField i w l fits pattern := by
  simp only [List.mem_cons, List.not_mem_nil, or_false] at hi
  obtain rfl | rfl := hi
  · exact ⟨_, _, setsField_setu w l⟩
  · exact ⟨_, _, setsField_sets w l⟩

/-- In the other order both checks see the values they saw before, and the inserts commute. -/
theorem set_then_set_comm {w l w' l' : Nat} {i j : Instr} {v v' : Word64} {s a b c d : State}
    (hdisjoint : l + w ≤ l' ∨ l' + w' ≤ l) (hi : i ∈ [Instr.setu w l, .sets w l])
    (hj : j ∈ [Instr.setu w' l', .sets w' l']) (ha : exec i (s.withVal v) = .next a)
    (hb : exec j (a.withVal v') = .next b) (herra : a.engine.status.err = 0) (herrb : b.engine.status.err = 0)
    (hc : exec j (s.withVal v') = .next c) (hd : exec i (c.withVal v) = .next d) :
    c.engine.status.err = 0 ∧ d.engine.status.err = 0 ∧ d.engine.word = b.engine.word := by
  obtain ⟨fits, pattern, hset⟩ := exists_setsField hi
  obtain ⟨fits', pattern', hset'⟩ := exists_setsField hj
  obtain ⟨hlegal, hfits, rfl⟩ := of_exec_err_eq_zero (hset.outcome s v) ha herra
  obtain ⟨hlegal', hfits', rfl⟩ := of_exec_err_eq_zero (hset'.outcome _ v') hb herrb
  obtain rfl := eq_of_exec_done (hset'.outcome s v') hlegal' hfits' hc
  obtain rfl := eq_of_exec_done (hset.outcome _ v) hlegal hfits hd
  exact ⟨rfl, rfl, (pat64_fieldInsert_comm hdisjoint (hset.pattern_lt v hfits) (hset'.pattern_lt v' hfits') _).symm⟩

/-- Settles O25: the six laws, one lemma each. -/
theorem fieldCommandLaws : Obligations.FieldCommandLaws :=
  ⟨fun _ _ _ => getu_then_u2s,
    fun w _ _ h1 hwl hlo hhi => s2u_then_setu h1 hwl ((fitsS_asS_iff _ w).mpr ⟨hlo, hhi⟩),
    fun _ _ _ _ _ => sets_err_iff_s2u_err,
    fun _ _ _ _ _ => getu_after_setu,
    fun _ _ _ _ _ => gets_after_sets,
    fun _ _ _ _ _ _ _ _ _ _ _ _ _ => set_then_set_comm⟩

end Sys2Proof.Proofs

/-! PROOFS. The Block Transform: the two commands under `NUM_Q` and their round trips (41_block_transform.md R140 to
R142), and the blocks of an image partition its pixels (R147). -/

namespace Sys2Proof.Proofs

open Sys2Proof.Machine

/-! ### The two transforms over the rationals (41_block_transform.md R140, R141) -/

theorem average4_numQ (x1 x2 x3 x4 : Rat) : average4 numQ x1 x2 x3 x4 = (x1 + x2 + x3 + x4) / 4 := by
  simp only [average4, numQ_add, numQ_divConst, Nat.cast_ofNat]

theorem blockForward_numQ (x : Samples Rat) : blockForward numQ x =
    { a := (x.y1 + x.y2 + x.y3 + x.y4) / 4
      b := (x.y4 + x.y3 - x.y2 - x.y1) / 4
      c := (x.y4 - x.y3 + x.y2 - x.y1) / 4
      d := (x.y4 - x.y3 - x.y2 + x.y1) / 4
      apb := (x.pb1 + x.pb2 + x.pb3 + x.pb4) / 4
      apr := (x.pr1 + x.pr2 + x.pr3 + x.pr4) / 4 } := by
  simp only [blockForward, average4_numQ, numQ_add, numQ_sub, numQ_divConst, Nat.cast_ofNat]

theorem blockInverse_numQ (t : Coeffs Rat) : blockInverse numQ t =
    { y1 := t.a - t.b - t.c + t.d, y2 := t.a - t.b + t.c - t.d
      y3 := t.a + t.b - t.c - t.d, y4 := t.a + t.b + t.c + t.d
      pb1 := t.apb, pb2 := t.apb, pb3 := t.apb, pb4 := t.apb
      pr1 := t.apr, pr2 := t.apr, pr3 := t.apr, pr4 := t.apr } := rfl

/-! ### The round trips of the transforms (41_block_transform.md R142) -/

/-- Forward then inverse: the lumas come back, each chroma becomes its average over the block. -/
theorem blockInverse_blockForward (x : Samples Rat) : blockInverse numQ (blockForward numQ x) =
    { x with
      pb1 := (x.pb1 + x.pb2 + x.pb3 + x.pb4) / 4, pb2 := (x.pb1 + x.pb2 + x.pb3 + x.pb4) / 4
      pb3 := (x.pb1 + x.pb2 + x.pb3 + x.pb4) / 4, pb4 := (x.pb1 + x.pb2 + x.pb3 + x.pb4) / 4
      pr1 := (x.pr1 + x.pr2 + x.pr3 + x.pr4) / 4, pr2 := (x.pr1 + x.pr2 + x.pr3 + x.pr4) / 4
      pr3 := (x.pr1 + x.pr2 + x.pr3 + x.pr4) / 4, pr4 := (x.pr1 + x.pr2 + x.pr3 + x.pr4) / 4 } := by
  rw [blockForward_numQ, blockInverse_numQ]
  congr 1 <;> ring

/-- Inverse then forward: nothing is lost, since the four pixels hold one chroma. -/
theorem blockForward_blockInverse (t : Coeffs Rat) : blockForward numQ (blockInverse numQ t) = t := by
  rw [blockInverse_numQ, blockForward_numQ]
  obtain ⟨a, b, c, d, apb, apr⟩ := t
  congr 1 <;> ring

/-! ### `BTFWD` and `BTINV` -/

/-- A command without checks always succeeds with its effect. -/
theorem exec_of_unchecked {i : Instr} {s : State} (h : commandCheck i s.engine = none) :
    exec i s = .next (s.succeedsAs (commandEffect i s.engine)) := by
  rw [exec_eq, h]
  rfl

theorem exec_btfwd (s : State) : exec .btfwd s =
    .next (s.succeedsAs { s.engine with coeffs := blockForward numQ s.engine.samples }) :=
  exec_of_unchecked rfl

theorem exec_btinv (s : State) : exec .btinv s =
    .next (s.succeedsAs { s.engine with samples := blockInverse numQ s.engine.coeffs }) :=
  exec_of_unchecked rfl

/-- Settles O26. -/
theorem forwardTransformResult : Obligations.ForwardTransformResult := by
  rintro s _ rfl
  rw [exec_btfwd, blockForward_numQ]

/-- Settles O27. -/
theorem inverseTransformResult : Obligations.InverseTransformResult := by
  rintro s _ rfl
  rw [exec_btinv, blockInverse_numQ]

/-- Settles O28: the second command reads what the first one wrote, and the transforms undo each other up to the
chroma averages. -/
theorem transformRoundTrips : Obligations.TransformRoundTrips := by
  constructor
  · rintro s _ rfl
    refine ⟨_, _, exec_btfwd s, exec_btinv _, ?_⟩
    simp [State.succeedsAs, blockInverse_blockForward]
  · exact fun s => ⟨_, _, exec_btinv s, exec_btfwd _, blockForward_blockInverse s.engine.coeffs⟩

/-! ### The blocks cover the image (41_block_transform.md R147) -/

/-- A pixel whose row and column halve to the block's row and column is one of the block's four pixels: the parities
of its row and column say which. -/
theorem mem_blockPixels_of_row_col {w k p : Nat} (hrow : p / w / 2 = k / (w / 2)) (hcol : p % w / 2 = k % (w / 2)) :
    p ∈ [(blockPixels w k).p1, (blockPixels w k).p2, (blockPixels w k).p3, (blockPixels w k).p4] := by
  have hp : p = p / w * w + p % w := (Nat.div_add_mod' p w).symm
  have hrow' : p / w = 2 * (k / (w / 2)) ∨ p / w = 2 * (k / (w / 2)) + 1 := by omega
  have hcol' : p % w = 2 * (k % (w / 2)) ∨ p % w = 2 * (k % (w / 2)) + 1 := by omega
  simp only [blockPixels, List.mem_cons, List.not_mem_nil, or_false]
  obtain hr | hr := hrow' <;> obtain hc | hc := hcol' <;> rw [hr, hc] at hp
  · exact .inl hp
  · exact .inr (.inl hp)
  · exact .inr (.inr (.inl (hp.trans (by ring))))
  · exact .inr (.inr (.inr (hp.trans (by ring))))

/-- Every pixel of the image is in the block at half its row and half its column. -/
theorem exists_block_of_pixel {w h p : Nat} (hw : w % 2 = 0) (hh : h % 2 = 0) (hp : p < w * h) :
    ∃ k < (w / 2) * (h / 2),
      p ∈ [(blockPixels w k).p1, (blockPixels w k).p2, (blockPixels w k).p3, (blockPixels w k).p4] := by
  have hrow : p / w < h := Nat.div_lt_of_lt_mul hp
  have hcol : p % w < w := Nat.mod_lt _ (Nat.pos_of_mul_pos_right (by omega : 0 < w * h))
  have hcol' : p % w / 2 < w / 2 := by omega
  have hdiv : (w / 2 * (p / w / 2) + p % w / 2) / (w / 2) = p / w / 2 := by
    rw [Nat.mul_add_div (by omega), Nat.div_eq_of_lt hcol', Nat.add_zero]
  have hmod : (w / 2 * (p / w / 2) + p % w / 2) % (w / 2) = p % w / 2 := by
    rw [Nat.mul_add_mod, Nat.mod_eq_of_lt hcol']
  have hcount : w / 2 * (p / w / 2) + p % w / 2 < w / 2 * (h / 2) :=
    calc w / 2 * (p / w / 2) + p % w / 2 < w / 2 * (p / w / 2 + 1) := by rw [Nat.mul_succ]; omega
      _ ≤ w / 2 * (h / 2) := Nat.mul_le_mul_left _ (by omega)
  exact ⟨_, hcount, mem_blockPixels_of_row_col hdiv.symm hmod.symm⟩

/-- Settles O41: the formulas are the model's, the last pixel bounds the others, and each pixel has a block, which
its row and column determine. -/
theorem blocksPartitionTheImage : Obligations.BlocksPartitionTheImage := by
  refine fun w h hw hh => ⟨fun k hk => ⟨rfl, rfl, rfl, rfl, blockPixels_p4_lt hw hh hk⟩, fun p hp => ?_⟩
  obtain ⟨k, hk, hmem⟩ := exists_block_of_pixel hw hh hp
  have hpos : 0 < w / 2 := Nat.pos_of_mul_pos_right (by omega : 0 < w / 2 * (h / 2))
  exact ⟨k, ⟨hk, hmem⟩, fun _ ⟨_, hmem'⟩ => block_eq_of_mem_blockPixels hw hpos hmem' hmem⟩

end Sys2Proof.Proofs

/-! PROOFS. The Quantizer: the forward and the inverse quantizers under `NUM_Q` in closed form, their reachable values
and error bounds (42_quantizer.md R160 to R168), and the commands `QUANT` and `DEQUANT` (R165, R169). -/

namespace Sys2Proof.Proofs

open Sys2Proof.Machine

/-! ### Rounding moves a value by at most one half -/

theorem rhazQ_sub_abs_le (x : Rat) : |(rhazQ x : Rat) - x| ≤ 1 / 2 := by
  have nonneg_case : ∀ y : Rat, 0 ≤ y → |(rhazQ y : Rat) - y| ≤ 1 / 2 := fun y hy => by
    obtain ⟨hlo, hhi⟩ := (rhazQ_eq_iff_of_nonneg hy (rhazQ y)).mp rfl
    rw [abs_le]
    constructor <;> linarith
  obtain hx | hx := le_total 0 x
  · exact nonneg_case x hx
  · calc |(rhazQ x : Rat) - x| = |(rhazQ (-x) : Rat) - -x| := by
          rw [rhazQ_neg, Int.cast_neg, neg_sub_neg, abs_sub_comm]
      _ ≤ 1 / 2 := nonneg_case (-x) (neg_nonneg.mpr hx)

/-- Rounding a value in an interval with play of less than one half stays in the integers around it. -/
theorem rhazQ_mem_of_mem {x : Rat} {lo hi : Int} (hlo : (lo : Rat) - 1 / 2 < x) (hhi : x < hi + 1 / 2) :
    lo ≤ rhazQ x ∧ rhazQ x ≤ hi := by
  obtain ⟨h1, h2⟩ := abs_le.mp (rhazQ_sub_abs_le x)
  constructor
  · have : (lo : Rat) < rhazQ x + 1 := by linarith
    exact Int.lt_add_one_iff.mp (by exact_mod_cast this)
  · have : (rhazQ x : Rat) < hi + 1 := by linarith
    exact Int.lt_add_one_iff.mp (by exact_mod_cast this)

/-- An integer is its own rounding. -/
@[simp] theorem rhazQ_intCast (n : Int) : rhazQ n = n := by
  obtain ⟨hlo, hhi⟩ := rhazQ_mem_of_mem (x := n) (lo := n) (hi := n) (by linarith) (by linarith)
  exact le_antisymm hhi hlo

/-- Scaling, rounding and scaling back moves a value by at most half a step. -/
theorem rhazQ_scaled_sub_abs_le {k : Rat} (hk : 0 < k) (x : Rat) : |(rhazQ (x * k) : Rat) / k - x| ≤ 1 / 2 / k := by
  have h : (rhazQ (x * k) : Rat) / k - x = (rhazQ (x * k) - x * k) / k := by
    rw [sub_div, mul_div_cancel_right₀ x hk.ne']
  rw [h, abs_div, abs_of_pos hk]
  exact div_le_div_of_nonneg_right (rhazQ_sub_abs_le (x * k)) hk.le

/-! ### Clamping as a maximum of a minimum -/

theorem numClamp_numQ_eq_max_min (x : Rat) {lo hi : Rat} (h : lo ≤ hi) :
    numClamp numQ x lo hi = max lo (min x hi) := by
  rw [numClamp_numQ]
  split
  · next hlo => rw [min_eq_left (hlo.le.trans h), max_eq_left hlo.le]
  · next hlo =>
    split
    · next hhi => rw [min_eq_right hhi.le, max_eq_right h]
    · next hhi => rw [min_eq_left (not_lt.mp hhi), max_eq_right (not_lt.mp hlo)]

/-- Scaling by a positive number goes through the clamp. -/
theorem numClamp_numQ_mul (x : Rat) {lo hi k : Rat} (h : lo ≤ hi) (hk : 0 ≤ k) :
    numClamp numQ x lo hi * k = numClamp numQ (k * x) (lo * k) (hi * k) := by
  rw [numClamp_numQ_eq_max_min x h, numClamp_numQ_eq_max_min _ (mul_le_mul_of_nonneg_right h hk),
    max_mul_of_nonneg _ _ hk, min_mul_of_nonneg _ _ hk, mul_comm x k]

/-! ### The quantizers over the rationals (42_quantizer.md R160, R161, R163) -/

theorem quantA_numQ (a : Rat) : quantA numQ a = rhazQ (a * 511) := by
  simp only [quantA, numQ_rhaz, numQ_mulConst, aScale, Nat.cast_ofNat]

theorem quantDiff_numQ (x : Rat) : quantDiff numQ x = rhazQ (max (-(3 / 10)) (min x (3 / 10)) * 15) := by
  simp only [quantDiff, numQ_rhaz, numQ_mulConst, numQ_clampLo, numQ_clampHi, diffClamp, diffScale, Nat.cast_ofNat]
  rw [numClamp_numQ_eq_max_min x (by norm_num)]

theorem dequantA_numQ (q : Int) : dequantA numQ q = q / 511 := by
  simp only [dequantA, numQ_divConst, numQ_ofInt, aScale, Nat.cast_ofNat]

theorem dequantDiff_numQ (q : Int) : dequantDiff numQ q = q / 15 := by
  simp only [dequantDiff, numQ_divConst, numQ_ofInt, diffScale, Nat.cast_ofNat]

/-! The three stretches of the difference quantizer: below, inside and above the clamp (R167, R168). -/

theorem quantDiff_of_mem {x : Rat} (hlo : -(3 / 10) ≤ x) (hhi : x ≤ 3 / 10) : quantDiff numQ x = rhazQ (x * 15) := by
  rw [quantDiff_numQ, min_eq_left hhi, max_eq_right hlo]

theorem quantDiff_of_ge {x : Rat} (h : 3 / 10 ≤ x) : quantDiff numQ x = 5 := by
  rw [quantDiff_numQ, min_eq_right h, max_eq_right (by norm_num), ← rhazQ_nine_halves]
  norm_num

theorem quantDiff_of_le {x : Rat} (h : x ≤ -(3 / 10)) : quantDiff numQ x = -5 := by
  have hmin : min x (3 / 10) ≤ -(3 / 10) := (min_le_left _ _).trans h
  rw [quantDiff_numQ, max_eq_left hmin, ← rhazQ_nine_halves, ← rhazQ_neg]
  norm_num

/-- Settles O34: the clamp scales, and outside the open clamp interval the quantizer is constant. -/
theorem clampOrdersAgree : Obligations.ClampOrdersAgree := by
  refine ⟨fun x => ?_, fun _ => quantDiff_of_ge, fun _ => quantDiff_of_le⟩
  rw [numClamp_numQ_mul x (by norm_num) (by norm_num)]
  norm_num

/-! ### Reachable values (42_quantizer.md R166) -/

theorem quantA_range {a : Rat} (h0 : 0 ≤ a) (h1 : a ≤ 1) : 0 ≤ quantA numQ a ∧ quantA numQ a ≤ 511 := by
  rw [quantA_numQ]
  exact rhazQ_mem_of_mem (by norm_num; linarith) (by norm_num; linarith)

theorem quantDiff_range (x : Rat) : -5 ≤ quantDiff numQ x ∧ quantDiff numQ x ≤ 5 := by
  have hlo : (-(3 / 10) : Rat) ≤ max (-(3 / 10)) (min x (3 / 10)) := le_max_left _ _
  have hhi : max (-(3 / 10)) (min x (3 / 10)) ≤ (3 / 10 : Rat) := max_le (by norm_num) (min_le_right _ _)
  rw [quantDiff_numQ]
  exact rhazQ_mem_of_mem (by norm_num; linarith) (by norm_num; linarith)

theorem quantA_intCast_div (n : Int) : quantA numQ (n / 511) = n := by
  rw [quantA_numQ, div_mul_cancel₀ _ (by norm_num), rhazQ_intCast]

/-- 5 and -5 are reached only because the clamp bound scales to a tie, which rounds away from zero. -/
theorem exists_quantDiff_eq {n : Int} (hlo : -5 ≤ n) (hhi : n ≤ 5) : ∃ x : Rat, quantDiff numQ x = n := by
  obtain rfl | rfl | ⟨hlo', hhi'⟩ : n = -5 ∨ n = 5 ∨ -4 ≤ n ∧ n ≤ 4 := by omega
  · exact ⟨-(3 / 10), quantDiff_of_le le_rfl⟩
  · exact ⟨3 / 10, quantDiff_of_ge le_rfl⟩
  · have h1 : (-4 : Rat) ≤ n := by exact_mod_cast hlo'
    have h2 : (n : Rat) ≤ 4 := by exact_mod_cast hhi'
    refine ⟨n / 15, ?_⟩
    rw [quantDiff_of_mem (by linarith) (by linarith), div_mul_cancel₀ _ (by norm_num), rhazQ_intCast]

/-- Settles O32. -/
theorem quantReachableValues : Obligations.QuantReachableValues := by
  refine ⟨fun n => ⟨?_, fun ⟨h0, h1⟩ => ?_⟩, fun n => ⟨?_, fun ⟨hlo, hhi⟩ => exists_quantDiff_eq hlo hhi⟩⟩
  · rintro ⟨a, h0, h1, rfl⟩
    exact quantA_range h0 h1
  · have h0' : (0 : Rat) ≤ n := by exact_mod_cast h0
    have h1' : (n : Rat) ≤ 511 := by exact_mod_cast h1
    exact ⟨n / 511, by linarith, by linarith, quantA_intCast_div n⟩
  · rintro ⟨x, rfl⟩
    exact quantDiff_range x

/-! ### The chroma table (00_scope.md R8) -/

/-- Among sixteen levels one is nearest. -/
theorem exists_nearestLevel (level : Fin 16 → Rat) (x : Rat) : ∃ i, isNearestLevel numQ level x i = true := by
  obtain ⟨i, hi⟩ := Finite.exists_min fun j => |level j - x|
  exact ⟨i, (isNearestLevel_iff ..).mpr fun j => by simpa using hi j⟩

theorem nearestLookup_nearest (level : Fin 16 → Rat) (choice : Rat → Fin 16) (x : Rat) :
    isNearestLevel numQ level x (nearestLookup numQ level choice x) = true := by
  unfold nearestLookup
  split
  · assumption
  · cases hfind : chromaIndices.find? (isNearestLevel numQ level x) with
    | some i => exact List.find?_some hfind
    | none =>
      obtain ⟨i, hi⟩ := exists_nearestLevel level x
      have hall : ∀ j : Fin 16, j ∈ chromaIndices := by decide
      exact absurd hi (List.find?_eq_none.mp hfind i (hall i))

/-- The machine's table obeys the one law of a chroma table. -/
theorem configChroma_nearestLevelLaw : nearestLevelLaw numQ configChroma := fun x _ =>
  nearestLookup_nearest Config.chromaLevel Config.chromaChoice x

/-- Settles O33: half a step on the quantized stretches, the constant value beyond the clamp, and the law of the
table. -/
theorem lossyBound : Obligations.LossyBound := by
  refine ⟨fun a _ _ => ?_, fun x hlo hhi => ?_, fun x h => ?_, fun x h => ?_, fun x hx j => ?_⟩
  · rw [dequantA_numQ, quantA_numQ]
    exact (rhazQ_scaled_sub_abs_le (by norm_num) a).trans (by norm_num)
  · rw [dequantDiff_numQ, quantDiff_of_mem hlo hhi]
    exact (rhazQ_scaled_sub_abs_le (by norm_num) x).trans (by norm_num)
  · rw [dequantDiff_numQ, quantDiff_of_ge h.le]
    norm_num
  · rw [dequantDiff_numQ, quantDiff_of_le h.le]
    norm_num
  · simpa using (isNearestLevel_iff ..).mp (configChroma_nearestLevelLaw x hx) j

/-! ### A command that a check stops -/

theorem exec_of_checkFails {i : Instr} {s : State} {kind : ErrorKind} (h : commandCheck i s.engine = some kind) :
    exec i s = .next (s.failsWith (errorCode kind)) := by
  rw [exec_eq, h]
  rfl

/-- A command with one check succeeds with its effect where the check passes and fails with its code where not. -/
theorem exec_of_oneCheck {i : Instr} {s : State} {legal : Bool} {kind : ErrorKind} {P : Prop}
    (h : commandCheck i s.engine = raiseUnless legal kind) (hP : legal = true ↔ P) :
    (P → exec i s = .next (s.succeedsAs (commandEffect i s.engine))) ∧
      (¬P → exec i s = .next (s.failsWith (errorCode kind))) := by
  cases legal with
  | true => exact ⟨fun _ => exec_of_unchecked h, fun hn => absurd (hP.mp rfl) hn⟩
  | false => exact ⟨fun hp => absurd (hP.mpr hp) Bool.false_ne_true, fun _ => exec_of_checkFails h⟩

/-! ### `QUANT` (42_quantizer.md R164, R165) -/

theorem quantDomain_iff (t : Coeffs Config.F) : quantDomain configParams t = true ↔ CoeffsInDomain t := by
  simp [quantDomain, CoeffsInDomain, configParams, and_assoc]

theorem exec_quant (s : State) :
    (CoeffsInDomain s.engine.coeffs → exec .quant s = .next (s.succeedsAs
      { s.engine with quants := quantsOf (quantize configParams s.engine.coeffs) })) ∧
    (¬CoeffsInDomain s.engine.coeffs → exec .quant s = .next (s.failsWith 6)) :=
  exec_of_oneCheck (i := .quant) (kind := .domainViolation) rfl (quantDomain_iff _)

theorem quantsOf_quantize (t : Coeffs Config.F) : quantsOf (quantize configParams t) =
    { qa := BitVec.ofInt 64 (rhazQ (t.a * 511))
      qb := BitVec.ofInt 64 (rhazQ (max (-(3 / 10)) (min t.b (3 / 10)) * 15))
      qc := BitVec.ofInt 64 (rhazQ (max (-(3 / 10)) (min t.c (3 / 10)) * 15))
      qd := BitVec.ofInt 64 (rhazQ (max (-(3 / 10)) (min t.d (3 / 10)) * 15))
      qpb := BitVec.ofNat 64 (configChroma.indexOf t.apb).val
      qpr := BitVec.ofNat 64 (configChroma.indexOf t.apr).val } := by
  simp only [quantsOf, quantize, configParams, quantA_numQ, quantDiff_numQ, quantChroma, pat64, BitVec.ofInt_natCast]

/-- Settles O30. -/
theorem quantResult : Obligations.QuantResult := by
  rintro s _ rfl
  rw [← quantsOf_quantize]
  exact exec_quant s

/-! ### `QUANT` then `PACK` (42_quantizer.md R166) -/

/-- The ranges the forward quantizers reach, inside the field ranges of 43_codeword_packer.md R180. -/
structure ReachableTuple (t : QuantTuple) : Prop where
  qa : 0 ≤ t.qa ∧ t.qa ≤ 511
  qb : -5 ≤ t.qb ∧ t.qb ≤ 5
  qc : -5 ≤ t.qc ∧ t.qc ≤ 5
  qd : -5 ≤ t.qd ∧ t.qd ≤ 5
  qpb : 0 ≤ t.qpb ∧ t.qpb ≤ 15
  qpr : 0 ≤ t.qpr ∧ t.qpr ≤ 15

theorem quantChroma_range (C : ChromaTable Config.F) (x : Config.F) : 0 ≤ quantChroma C x ∧ quantChroma C x ≤ 15 := by
  have h := (C.indexOf x).isLt
  unfold quantChroma
  omega

theorem quantize_reachable {t : Coeffs Config.F} (h : CoeffsInDomain t) :
    ReachableTuple (quantize configParams t) := by
  obtain ⟨h0, h1, -, -⟩ := h
  exact ⟨quantA_range h0 h1, quantDiff_range _, quantDiff_range _, quantDiff_range _, quantChroma_range _ _,
    quantChroma_range _ _⟩

theorem ReachableTuple.inRange {t : QuantTuple} (h : ReachableTuple t) : TupleInRange t := by
  obtain ⟨hqa, hqb, hqc, hqd, hqpb, hqpr⟩ := h
  unfold TupleInRange
  omega

/-- A tuple in the field ranges survives storing in the quantized registers and reading back. -/
theorem quantsRead_quantsOf {t : QuantTuple} (h : TupleInRange t) : quantsRead (quantsOf t) = t := by
  obtain ⟨hqa, hqb, hqc, hqd, hqpb, hqpr⟩ := h
  simp only [quantsRead, quantsOf]
  congr 1
  · exact asU_pat64_of_range (by omega) (by omega)
  · exact asS_pat64_of_range (by omega) (by omega)
  · exact asS_pat64_of_range (by omega) (by omega)
  · exact asS_pat64_of_range (by omega) (by omega)
  · exact asU_pat64_of_range (by omega) (by omega)
  · exact asU_pat64_of_range (by omega) (by omega)

/-- The check of `PACK` and `DEQUANT` on the registers. -/
theorem quantsFit_quantsRead_iff (q : Quants) : quantsFit (quantsRead q) = true ↔ QuantsInRange q := by
  rw [quantsFit_iff]
  simp only [quantsRead, QuantsInRange]
  omega

theorem exec_pack (s : State) :
    (QuantsInRange s.engine.quants → exec .pack s = .next (s.succeedsAs
      { s.engine with cw := codewordOf (quantsRead s.engine.quants) })) ∧
    (¬QuantsInRange s.engine.quants → exec .pack s = .next (s.failsWith 1)) :=
  exec_of_oneCheck (i := .pack) (kind := .outOfRange) rfl (quantsFit_quantsRead_iff _)

/-- Settles O31: what `QUANT` stores reads back as the reachable tuple, which fits the fields that `PACK` checks. -/
theorem quantThenPackSucceeds : Obligations.QuantThenPackSucceeds := by
  intro s hdomain
  have hreach := quantize_reachable hdomain
  have hread := quantsRead_quantsOf hreach.inRange
  have hrange := (quantsFit_quantsRead_iff _).mp (hread.symm ▸ (quantsFit_iff _).mpr hreach.inRange)
  rw [← hread] at hreach
  obtain ⟨⟨-, hqa⟩, hqb, hqc, hqd, ⟨-, hqpb⟩, ⟨-, hqpr⟩⟩ := hreach
  exact ⟨_, _, (exec_quant s).1 hdomain, (exec_pack _).1 hrange, rfl, Int.ofNat_le.mp hqa, hqb, hqc, hqd,
    Int.ofNat_le.mp hqpb, Int.ofNat_le.mp hqpr⟩

/-! ### `DEQUANT` (42_quantizer.md R169) -/

theorem exec_dequant (s : State) :
    (QuantsInRange s.engine.quants → exec .dequant s = .next (s.succeedsAs
      { s.engine with coeffs := dequantize configParams (quantsRead s.engine.quants) })) ∧
    (¬QuantsInRange s.engine.quants → exec .dequant s = .next (s.failsWith 1)) :=
  exec_of_oneCheck (i := .dequant) (kind := .outOfRange) rfl (quantsFit_quantsRead_iff _)

theorem dequantize_quantsRead (q : Quants) : dequantize configParams (quantsRead q) =
    { a := (asU q.qa : Rat) / 511, b := (asS q.qb : Rat) / 15, c := (asS q.qc : Rat) / 15
      d := (asS q.qd : Rat) / 15
      apb := configChroma.chromaOf (Fin.ofNat 16 (asU q.qpb))
      apr := configChroma.chromaOf (Fin.ofNat 16 (asU q.qpr)) } := by
  simp only [dequantize, quantsRead, configParams, dequantA_numQ, dequantDiff_numQ, dequantChroma, Int.cast_natCast,
    Int.toNat_natCast]

/-- Settles O35. -/
theorem dequantResult : Obligations.DequantResult := by
  rintro s _ rfl
  rw [← dequantize_quantsRead]
  exact exec_dequant s

end Sys2Proof.Proofs

/-! PROOFS. The Codeword Serializer: the closed form of `pack_word`, the six fields of a codeword, the commands `PACK`
and `UNPACK` (43_codeword_packer.md R181 to R183), and that packing is a bijection (R184). -/

namespace Sys2Proof.Proofs

open Sys2Proof.Machine

/-! ### The pattern of a value in a field (43_codeword_packer.md R181) -/

section Patterns

variable {w u : Nat} {v : Int}

/-- An unsigned value in range is its own pattern. -/
theorem fieldPattern_of_range (h0 : 0 ≤ v) (h1 : v < 2 ^ w) : (fieldPattern w v : Int) = v := by
  rw [fieldPattern_cast, Int.emod_eq_of_lt h0 h1]

theorem fieldPattern_natCast (hu : u < 2 ^ w) : fieldPattern w u = u := by
  have h := fieldPattern_of_range (Int.natCast_nonneg u) (by exact_mod_cast hu : (u : Int) < 2 ^ w)
  exact_mod_cast h

/-- The pattern of the signed reading of a field is the field. -/
theorem fieldPattern_sextField (hu : u < 2 ^ w) : fieldPattern w (sextField w u) = u := by
  rw [fieldPattern, sextField_emod hu, Int.toNat_natCast]

theorem sextField_range (hu : u < 2 ^ w) : -(2 ^ (w - 1)) ≤ sextField w u ∧ sextField w u < 2 ^ (w - 1) := by
  rw [sextField_eq_toInt hu]
  exact ⟨BitVec.le_toInt _, BitVec.toInt_lt⟩

end Patterns

/-! ### The closed form of `pack_word` (43_codeword_packer.md R181) -/

/-- `insert` in a word that is empty up to the field's highest bit adds the value in the field's place. -/
theorem fieldInsert_of_dvd {word w l u : Nat} (h : 2 ^ (l + w) ∣ word) :
    fieldInsert word w l u = word + u * 2 ^ l := by
  obtain ⟨k, rfl⟩ := h
  have hfield : fieldGet (2 ^ (l + w) * k) w l = 0 := by
    rw [fieldGet, pow_add, mul_assoc, Nat.mul_div_cancel_left _ (Nat.two_pow_pos l), Nat.mul_mod_right]
  rw [fieldInsert, hfield, Nat.zero_mul, Nat.sub_zero]

/-- The fields are inserted from the top down, so that each finds the word empty up to its highest bit. -/
theorem packWord_eq_sum (t : QuantTuple) : packWord t =
    fieldPattern 9 t.qa * 2 ^ 23 + fieldPattern 5 t.qb * 2 ^ 18 + fieldPattern 5 t.qc * 2 ^ 13 +
      fieldPattern 5 t.qd * 2 ^ 8 + fieldPattern 4 t.qpb * 2 ^ 4 + fieldPattern 4 t.qpr := by
  simp only [packWord, insertField, fieldQA, fieldQB, fieldQC, fieldQD, fieldQPB, fieldQPR]
  rw [fieldInsert_of_dvd (l := 23) (by omega), fieldInsert_of_dvd (l := 18) (by omega),
    fieldInsert_of_dvd (l := 13) (by omega), fieldInsert_of_dvd (l := 8) (by omega),
    fieldInsert_of_dvd (l := 4) (by omega), fieldInsert_of_dvd (l := 0) (by omega)]
  omega

theorem packWord_lt (t : QuantTuple) : packWord t < 2 ^ 32 := by
  have ha := fieldPattern_lt 9 t.qa
  have hb := fieldPattern_lt 5 t.qb
  have hc := fieldPattern_lt 5 t.qc
  have hd := fieldPattern_lt 5 t.qd
  have hpb := fieldPattern_lt 4 t.qpb
  have hpr := fieldPattern_lt 4 t.qpr
  rw [packWord_eq_sum]
  omega

/-! ### The fields of a codeword (43_codeword_packer.md R180, 40_bitfield_codec.md R122) -/

theorem getField_lt (word : Nat) (f : FieldSpec) : getField word f < 2 ^ f.width := fieldGet_lt word f.width f.lsb

theorem getField_insertField_same (word : Nat) (f : FieldSpec) (v : Int) :
    getField (insertField word f v) f = fieldPattern f.width v :=
  fieldGet_fieldInsert_same (fieldPattern_lt f.width v) word f.lsb

theorem getField_insertField_disjoint {f g : FieldSpec}
    (h : g.lsb + g.width ≤ f.lsb ∨ f.lsb + f.width ≤ g.lsb) (word : Nat) (v : Int) :
    getField (insertField word f v) g = getField word g :=
  fieldGet_fieldInsert_disjoint (fieldPattern_lt f.width v) h word

/-- Each field reads back what was inserted in it, since no later insert meets it. -/
theorem unpackWord_packWord_eq (t : QuantTuple) : unpackWord (packWord t) =
    { qa := fieldPattern 9 t.qa
      qb := sextField 5 (fieldPattern 5 t.qb)
      qc := sextField 5 (fieldPattern 5 t.qc)
      qd := sextField 5 (fieldPattern 5 t.qd)
      qpb := fieldPattern 4 t.qpb
      qpr := fieldPattern 4 t.qpr } := by
  simp (disch := decide) only [unpackWord, packWord, getField_insertField_same, getField_insertField_disjoint]
  rfl

theorem unpackWord_packWord {t : QuantTuple} (h : TupleInRange t) : unpackWord (packWord t) = t := by
  obtain ⟨⟨hqa0, hqa⟩, ⟨hqb0, hqb⟩, ⟨hqc0, hqc⟩, ⟨hqd0, hqd⟩, ⟨hqpb0, hqpb⟩, ⟨hqpr0, hqpr⟩⟩ := h
  rw [unpackWord_packWord_eq, fieldPattern_of_range hqa0 (by omega), sextField_fieldPattern (by decide) hqb0 hqb,
    sextField_fieldPattern (by decide) hqc0 hqc, sextField_fieldPattern (by decide) hqd0 hqd,
    fieldPattern_of_range hqpb0 (by omega), fieldPattern_of_range hqpr0 (by omega)]

theorem unpackWord_inRange (word : Nat) : TupleInRange (unpackWord word) := by
  have hqa := fieldGet_lt word 9 23
  have hqb := sextField_range (fieldGet_lt word 5 18)
  have hqc := sextField_range (fieldGet_lt word 5 13)
  have hqd := sextField_range (fieldGet_lt word 5 8)
  have hqpb := fieldGet_lt word 4 4
  have hqpr := fieldGet_lt word 4 0
  simp only [TupleInRange, unpackWord, getField, fieldQA, fieldQB, fieldQC, fieldQD, fieldQPB, fieldQPR]
  omega

/-- The six fields cover the 32 bits. -/
theorem packWord_unpackWord {word : Nat} (hword : word < 2 ^ 32) : packWord (unpackWord word) = word := by
  have hqa := fieldPattern_natCast (getField_lt word fieldQA)
  have hqb := fieldPattern_sextField (getField_lt word fieldQB)
  have hqc := fieldPattern_sextField (getField_lt word fieldQC)
  have hqd := fieldPattern_sextField (getField_lt word fieldQD)
  have hqpb := fieldPattern_natCast (getField_lt word fieldQPB)
  have hqpr := fieldPattern_natCast (getField_lt word fieldQPR)
  calc packWord (unpackWord word)
    _ = getField word fieldQA * 2 ^ 23 + getField word fieldQB * 2 ^ 18 + getField word fieldQC * 2 ^ 13 +
          getField word fieldQD * 2 ^ 8 + getField word fieldQPB * 2 ^ 4 + getField word fieldQPR := by
        rw [packWord_eq_sum, ← hqa, ← hqb, ← hqc, ← hqd, ← hqpb, ← hqpr]
        rfl
    _ = word := by
        simp only [getField, fieldGet, fieldQA, fieldQB, fieldQC, fieldQD, fieldQPB, fieldQPR]
        omega

/-! ### `PACK` (43_codeword_packer.md R182) -/

theorem codewordOf_toNat (t : QuantTuple) : (codewordOf t).toNat = packWord t := by
  rw [codewordOf, BitVec.toNat_ofNat, Nat.mod_eq_of_lt (packWord_lt t)]

/-- The closed form of R181 on registers in range: only the three signed fields are reduced. -/
theorem codewordOf_quantsRead {q : Quants} (h : QuantsInRange q) : ((codewordOf (quantsRead q)).toNat : Int) =
    asU q.qa * 2 ^ 23 + asS q.qb % 32 * 2 ^ 18 + asS q.qc % 32 * 2 ^ 13 + asS q.qd % 32 * 2 ^ 8 +
      asU q.qpb * 2 ^ 4 + asU q.qpr := by
  obtain ⟨hqa, -, -, -, hqpb, hqpr⟩ := h
  rw [codewordOf_toNat, packWord_eq_sum]
  simp only [quantsRead, fieldPattern_natCast (by omega : asU q.qa < 2 ^ 9),
    fieldPattern_natCast (by omega : asU q.qpb < 2 ^ 4), fieldPattern_natCast (by omega : asU q.qpr < 2 ^ 4)]
  push_cast [fieldPattern_cast]
  rfl

/-- Settles O36. -/
theorem packResult : Obligations.PackResult := by
  rintro s _ rfl
  obtain ⟨hdone, hfail⟩ := exec_pack s
  exact ⟨fun hrange => ⟨_, hdone hrange, codewordOf_quantsRead hrange⟩, hfail⟩

/-! ### `UNPACK` (43_codeword_packer.md R183) -/

theorem exec_unpack (s : State) : exec .unpack s =
    .next (s.succeedsAs { s.engine with quants := quantsOf (unpackWord s.engine.cw.toNat) }) :=
  exec_of_unchecked rfl

theorem extractLsb'_eq_fieldGet {n : Nat} (x : BitVec n) (w l : Nat) :
    x.extractLsb' l w = BitVec.ofNat w (fieldGet x.toNat w l) := by
  apply BitVec.eq_of_toNat_eq
  rw [BitVec.extractLsb'_toNat, BitVec.toNat_ofNat, Nat.shiftRight_eq_div_pow, fieldGet, Nat.mod_mod]

/-- Storing a zero-extended field is zero extension of its bits. -/
theorem pat64_fieldGet {n : Nat} (x : BitVec n) (w l : Nat) :
    pat64 (fieldGet x.toNat w l) = (x.extractLsb' l w).setWidth 64 := by
  rw [pat64, BitVec.ofInt_natCast, extractLsb'_eq_fieldGet, ← BitVec.ofNat_toNat, BitVec.toNat_ofNat,
    Nat.mod_eq_of_lt (fieldGet_lt _ w l)]

theorem pat64_sextField_fieldGet {n : Nat} (x : BitVec n) (w l : Nat) :
    pat64 (sextField w (fieldGet x.toNat w l)) = (x.extractLsb' l w).signExtend 64 := by
  rw [pat64_sextField (fieldGet_lt _ w l), extractLsb'_eq_fieldGet]

theorem quantsOf_unpackWord (cw : Codeword) : quantsOf (unpackWord cw.toNat) =
    { qa := (cw.extractLsb' 23 9).setWidth 64
      qb := (cw.extractLsb' 18 5).signExtend 64
      qc := (cw.extractLsb' 13 5).signExtend 64
      qd := (cw.extractLsb' 8 5).signExtend 64
      qpb := (cw.extractLsb' 4 4).setWidth 64
      qpr := (cw.extractLsb' 0 4).setWidth 64 } := by
  simp only [quantsOf, unpackWord, getField, pat64_fieldGet, pat64_sextField_fieldGet, fieldQA, fieldQB, fieldQC,
    fieldQD, fieldQPB, fieldQPR]

/-- Settles O37. -/
theorem unpackResult : Obligations.UnpackResult := by
  rintro s _ rfl
  rw [← quantsOf_unpackWord]
  exact exec_unpack s

/-! ### The bijection (43_codeword_packer.md R184) -/

/-- Storing what the quantized registers read as gives the registers. -/
theorem quantsOf_quantsRead (q : Quants) : quantsOf (quantsRead q) = q := by
  simp only [quantsOf, quantsRead, pat64_asU, pat64_asS]

theorem tupleInRange_quantsRead {q : Quants} (h : QuantsInRange q) : TupleInRange (quantsRead q) :=
  (quantsFit_iff _).mp ((quantsFit_quantsRead_iff q).mpr h)

theorem quantsInRange_quantsOf {t : QuantTuple} (h : TupleInRange t) : QuantsInRange (quantsOf t) :=
  (quantsFit_quantsRead_iff _).mp ((quantsRead_quantsOf h).symm ▸ (quantsFit_iff t).mpr h)

theorem quantsOf_unpackWord_codewordOf {q : Quants} (h : QuantsInRange q) :
    quantsOf (unpackWord (codewordOf (quantsRead q)).toNat) = q := by
  rw [codewordOf_toNat, unpackWord_packWord (tupleInRange_quantsRead h), quantsOf_quantsRead]

theorem codewordOf_quantsOf_unpackWord (cw : Codeword) :
    codewordOf (quantsRead (quantsOf (unpackWord cw.toNat))) = cw := by
  apply BitVec.eq_of_toNat_eq
  rw [quantsRead_quantsOf (unpackWord_inRange _), codewordOf_toNat, packWord_unpackWord cw.isLt]

/-- Settles O38: the two functions are inverse to each other, and storing and reading the registers loses nothing. -/
theorem packUnpackBijection : Obligations.PackUnpackBijection := by
  refine ⟨fun t ht => ⟨packWord_lt t, unpackWord_packWord ht⟩,
    fun w hw => ⟨unpackWord_inRange w, packWord_unpackWord hw⟩, fun s hrange => ?_, fun s => ?_⟩
  · exact ⟨_, _, (exec_pack s).1 hrange, exec_unpack _, quantsOf_unpackWord_codewordOf hrange⟩
  · exact ⟨_, _, exec_unpack s, (exec_pack _).1 (quantsInRange_quantsOf (unpackWord_inRange _)),
      codewordOf_quantsOf_unpackWord s.engine.cw, rfl⟩

end Sys2Proof.Proofs

/-! PROOFS. The six commands on a block: the loads and stores (44_memory_and_pipeline.md R201 to R204) and the pipeline
commands under `NUM_Q` (R205, R206), each with what it leaves and the code it fails with. -/

namespace Sys2Proof.Proofs

open Sys2Proof.Machine

/-! ### `block_guard` passes on a ready block, and raises its code on any other (44_memory_and_pipeline.md R200) -/

section Guard

variable {e : Engine Config.F}

theorem guardCheck_eq_none_iff : guardCheck e = none ↔ BlockReady e := by
  obtain ⟨kind, hg, hc⟩ | ⟨hr, -, hc⟩ := blockGuard_cases e
  · refine iff_of_false (by simp [hc]) fun ⟨hw, hh, hk⟩ => ?_
    cases hg.symm.trans ((blockGuard_ok_iff e (asU e.blk)).mpr ⟨hw, hh, hk, rfl⟩)
  · exact iff_of_true hc hr

theorem errorCode_of_guardCheck {kind : ErrorKind} (h : guardCheck e = some kind) : errorCode kind = guardCode e := by
  obtain ⟨k, hg, hc⟩ | ⟨-, -, hc⟩ := blockGuard_cases e
  · cases hc.symm.trans h
    obtain ⟨hodd, rfl⟩ | ⟨hw, hh, -, rfl⟩ := (blockGuard_error_iff e kind).mp hg
    · rw [guardCode, if_pos hodd]
      rfl
    · rw [guardCode, if_neg (by omega)]
      rfl
  · cases hc.symm.trans h

/-- A command that the guard stops fails with the guard's code. -/
theorem exec_of_guardFails {i : Instr} {s : State} (h : ∀ kind, guardCheck s.engine = some kind →
    commandCheck i s.engine = some kind) (hn : ¬BlockReady s.engine) :
    exec i s = .next (s.failsWith (guardCode s.engine)) := by
  obtain ⟨kind, hkind⟩ := Option.ne_none_iff_exists'.mp (mt guardCheck_eq_none_iff.mp hn)
  rw [← errorCode_of_guardCheck hkind]
  exact exec_of_checkFails (h kind hkind)

/-- A command whose one check is the guard succeeds with its effect on a ready block and fails with the guard's code
on any other. -/
theorem exec_of_guardOnly {i : Instr} {s : State} (h : commandCheck i s.engine = guardCheck s.engine) :
    (BlockReady s.engine → exec i s = .next (s.succeedsAs (commandEffect i s.engine))) ∧
      (¬BlockReady s.engine → exec i s = .next (s.failsWith (guardCode s.engine))) :=
  ⟨fun hr => exec_of_unchecked (h.trans (guardCheck_eq_none_iff.mpr hr)),
    exec_of_guardFails fun _ hkind => h.trans hkind⟩

end Guard

/-! ### What the elements and bytes of a block hold after it is stored -/

/-- The four elements of a block of a ready engine are four different ones: a row has at least two pixels. -/
theorem blockElements_nodup {e : Engine Config.F} (h : BlockReady e) : (blockElements e).Nodup := by
  obtain ⟨hw, -, hk⟩ := h
  have hpos : 0 < asU e.imgW / 2 := Nat.pos_of_mul_pos_right (by omega : 0 < asU e.imgW / 2 * (asU e.imgH / 2))
  simp only [blockElements, blockPixels, List.nodup_cons, List.mem_cons, List.not_mem_nil, or_false, List.nodup_nil,
    not_false_iff, and_true]
  omega

/-- Where the four elements are different, each holds its pixel of the samples. -/
theorem pixel_storeBlock {F : Type} (P : Params F) (e : Engine F) {b : BlockPixels} (h : [b.p1, b.p2, b.p3, b.p4].Nodup)
    (x : Samples F) (p : Nat) :
    Engine.pixel P { e with pix := storeBlock e.pix b x } p =
      if p = b.p1 then ⟨x.y1, x.pb1, x.pr1⟩ else if p = b.p2 then ⟨x.y2, x.pb2, x.pr2⟩
      else if p = b.p3 then ⟨x.y3, x.pb3, x.pr3⟩ else if p = b.p4 then ⟨x.y4, x.pb4, x.pr4⟩
      else e.pixel P p := by
  simp only [List.nodup_cons, List.mem_cons, List.not_mem_nil, or_false, not_or] at h
  obtain ⟨⟨h12, h13, h14⟩, ⟨h23, h24⟩, h34, -⟩ := h
  split_ifs with h1 h2 h3 h4
  · simp [Engine.pixel, storeBlock, samplePixels, Memory.read_write, h1, h12, h13, h14]
  · simp [Engine.pixel, storeBlock, samplePixels, Memory.read_write, h2, h23, h24]
  · simp [Engine.pixel, storeBlock, samplePixels, Memory.read_write, h3, h34]
  · simp [Engine.pixel, storeBlock, samplePixels, h4]
  · exact pixel_congr P (read_storeBlock_outside e.pix b x (by simp [h1, h2, h3, h4]))

theorem byte_of_read {F : Type} (P : Params F) {e : Engine F} {addr : Nat} {v : Byte}
    (h : Memory.read e.cwm addr = some v) : e.byte P addr = v := by
  simp only [Engine.byte, h]

/-- The four bytes from the address on hold the codeword, most significant byte first. -/
theorem byte_storeCodeword {F : Type} (P : Params F) (e : Engine F) (addr : Nat) (cw : Codeword) (c : Nat) :
    Engine.byte P { e with cwm := storeBytes e.cwm addr (be4 cw) } c =
      if c = addr then cw.extractLsb' 24 8 else if c = addr + 1 then cw.extractLsb' 16 8
      else if c = addr + 2 then cw.extractLsb' 8 8 else if c = addr + 3 then cw.extractLsb' 0 8
      else e.byte P c := by
  have stored := fun j => read_storeCodeword e.cwm addr cw (j := j)
  split_ifs with h0 h1 h2 h3
  · rw [h0]
    exact byte_of_read P (stored 0 (by decide))
  · rw [h1]
    exact byte_of_read P (stored 1 (by decide))
  · rw [h2]
    exact byte_of_read P (stored 2 (by decide))
  · rw [h3]
    exact byte_of_read P (stored 3 (by decide))
  · have hlength : (be4 cw).length = 4 := rfl
    exact byte_congr P (read_storeBytes_outside e.cwm (by omega))

theorem blockCodeword_eq_unbe4 (e : Engine Config.F) : blockCodeword e =
    unbe4 [e.byte configParams (4 * asU e.blk), e.byte configParams (4 * asU e.blk + 1),
      e.byte configParams (4 * asU e.blk + 2), e.byte configParams (4 * asU e.blk + 3)] := rfl

/-! ### `LDPX`, `STPX`, `LDCW`, `STCW` (44_memory_and_pipeline.md R201 to R204) -/

theorem exec_ldpx (s : State) :
    (BlockReady s.engine → exec .ldpx s = .next (s.succeedsAs { s.engine with samples := blockSamples s.engine })) ∧
    (¬BlockReady s.engine → exec .ldpx s = .next (s.failsWith (guardCode s.engine))) :=
  exec_of_guardOnly rfl

theorem exec_stpx (s : State) :
    (BlockReady s.engine → exec .stpx s = .next (s.succeedsAs { s.engine with
      pix := storeBlock s.engine.pix (blockPixels (asU s.engine.imgW) (asU s.engine.blk)) s.engine.samples })) ∧
    (¬BlockReady s.engine → exec .stpx s = .next (s.failsWith (guardCode s.engine))) :=
  exec_of_guardOnly rfl

theorem exec_ldcw (s : State) :
    (BlockReady s.engine → exec .ldcw s = .next (s.succeedsAs { s.engine with cw := blockCodeword s.engine })) ∧
    (¬BlockReady s.engine → exec .ldcw s = .next (s.failsWith (guardCode s.engine))) :=
  exec_of_guardOnly rfl

theorem exec_stcw (s : State) :
    (BlockReady s.engine → exec .stcw s = .next (s.succeedsAs { s.engine with
      cwm := storeBytes s.engine.cwm (4 * asU s.engine.blk) (be4 s.engine.cw) })) ∧
    (¬BlockReady s.engine → exec .stcw s = .next (s.failsWith (guardCode s.engine))) :=
  exec_of_guardOnly rfl

/-- Settles O42: `blockSamples` holds the parts of the four elements. -/
theorem loadPixelsResult : Obligations.LoadPixelsResult := by
  rintro s _ rfl
  exact exec_ldpx s

/-- Settles O43: the four elements are different, so that each keeps the pixel stored in it. -/
theorem storePixelsResult : Obligations.StorePixelsResult := by
  rintro s _ _ rfl rfl
  obtain ⟨hdone, hfail⟩ := exec_stpx s
  exact ⟨fun hr => ⟨_, hdone hr, pixel_storeBlock configParams s.engine (blockElements_nodup hr) s.engine.samples⟩,
    hfail⟩

/-- Settles O44. -/
theorem loadCodewordResult : Obligations.LoadCodewordResult := by
  rintro s _ rfl
  obtain ⟨hdone, hfail⟩ := exec_ldcw s
  refine ⟨fun hr => ⟨_, hdone hr, ?_⟩, hfail⟩
  rw [blockCodeword_eq_unbe4, unbe4_toNat]

/-- Settles O45. -/
theorem storeCodewordResult : Obligations.StoreCodewordResult := by
  rintro s _ rfl
  obtain ⟨hdone, hfail⟩ := exec_stcw s
  exact ⟨fun hr => ⟨_, hdone hr, byte_storeCodeword configParams s.engine _ s.engine.cw⟩, hfail⟩

/-! ### `CBLK` (44_memory_and_pipeline.md R205) -/

/-- The coefficients of the block in `BLK`, which `CBLK` checks and quantizes. -/
def blockCoeffs (e : Engine Config.F) : Coeffs Config.F := blockForward numQ (blockSamples e)

/-- The quantized values of the block in `BLK`, which `CBLK` packs. -/
def blockTuple (e : Engine Config.F) : QuantTuple := quantize configParams (blockCoeffs e)

theorem commandCheck_cblk (e : Engine Config.F) : commandCheck .cblk e =
    (guardCheck e).or (raiseUnless (quantDomain configParams (blockCoeffs e)) .domainViolation) := rfl

/-- On a ready block the domain check is the one that is left. -/
theorem commandCheck_cblk_of_ready {e : Engine Config.F} (h : BlockReady e) : commandCheck .cblk e =
    raiseUnless (quantDomain configParams (blockCoeffs e)) .domainViolation := by
  rw [commandCheck_cblk, guardCheck_eq_none_iff.mpr h, Option.none_or]

/-- The three outcomes of `CBLK`. -/
theorem exec_cblk (s : State) :
    (BlockReady s.engine → CoeffsInDomain (blockCoeffs s.engine) → exec .cblk s = .next (s.succeedsAs { s.engine with
      samples := blockSamples s.engine, coeffs := blockCoeffs s.engine, quants := quantsOf (blockTuple s.engine)
      cw := codewordOf (blockTuple s.engine)
      cwm := storeBytes s.engine.cwm (4 * asU s.engine.blk) (be4 (codewordOf (blockTuple s.engine))) })) ∧
    (BlockReady s.engine → ¬CoeffsInDomain (blockCoeffs s.engine) → exec .cblk s = .next (s.failsWith 6)) ∧
    (¬BlockReady s.engine → exec .cblk s = .next (s.failsWith (guardCode s.engine))) := by
  have hready := fun hr => exec_of_oneCheck (commandCheck_cblk_of_ready (e := s.engine) hr) (quantDomain_iff _)
  exact ⟨fun hr => (hready hr).1, fun hr => (hready hr).2,
    exec_of_guardFails fun kind hkind => by rw [commandCheck_cblk, hkind, Option.some_or]⟩

/-- Settles O46. -/
theorem compressBlockResult : Obligations.CompressBlockResult := by
  rintro s _ _ _ _ _ rfl rfl rfl rfl rfl
  obtain ⟨hdone, hdomain, hguard⟩ := exec_cblk s
  exact ⟨fun hr hd => ⟨_, hdone hr hd, byte_storeCodeword configParams s.engine _ (codewordOf (blockTuple s.engine))⟩,
    hdomain, hguard⟩

/-! ### `DBLK` (44_memory_and_pipeline.md R206) -/

/-- The coefficients that a codeword stands for. -/
def codewordCoeffs (cw : Codeword) : Coeffs Config.F := dequantize configParams (unpackWord cw.toNat)

theorem exec_dblk (s : State) :
    (BlockReady s.engine → exec .dblk s = .next (s.succeedsAs { s.engine with
      cw := blockCodeword s.engine, quants := quantsOf (unpackWord (blockCodeword s.engine).toNat)
      coeffs := codewordCoeffs (blockCodeword s.engine)
      samples := blockInverse numQ (codewordCoeffs (blockCodeword s.engine))
      pix := storeBlock s.engine.pix (blockPixels (asU s.engine.imgW) (asU s.engine.blk))
        (blockInverse numQ (codewordCoeffs (blockCodeword s.engine))) })) ∧
    (¬BlockReady s.engine → exec .dblk s = .next (s.failsWith (guardCode s.engine))) :=
  exec_of_guardOnly rfl

/-- Settles O47: the four pixels stored share the chroma averages. -/
theorem decompressBlockResult : Obligations.DecompressBlockResult := by
  rintro s _ _ _ _ _ _ rfl rfl rfl rfl rfl rfl
  obtain ⟨hdone, hfail⟩ := exec_dblk s
  exact ⟨fun hr => ⟨_, hdone hr, pixel_storeBlock configParams s.engine (blockElements_nodup hr)
    (blockInverse numQ (codewordCoeffs (blockCodeword s.engine)))⟩, hfail⟩

end Sys2Proof.Proofs

/-! PROOFS. The laws of the pipeline: `CBLK` and `DBLK` leave what their five single-unit commands leave
(44_memory_and_pipeline.md R207), and a uniform block of full luma comes back with its nearest chroma levels (R209). -/

namespace Sys2Proof.Proofs

open Sys2Proof.Machine

/-! ### What `ERR` says about the block -/

theorem guardCode_eq_or (e : Engine Config.F) : guardCode e = 2 ∨ guardCode e = 5 := by
  unfold guardCode
  split
  · exact .inl rfl
  · exact .inr rfl

/-- `ERR` after `CBLK` tells its three outcomes apart. -/
theorem exec_cblk_err_cases {s t : State} (h : exec .cblk s = .next t) :
    (BlockReady s.engine ∧ CoeffsInDomain (blockCoeffs s.engine) ∧ t.engine.status.err = 0) ∨
      (BlockReady s.engine ∧ ¬CoeffsInDomain (blockCoeffs s.engine) ∧ t.engine.status.err = 6) ∨
      (t.engine.status.err = 2 ∨ t.engine.status.err = 5) := by
  obtain ⟨hdone, hdomain, hguard⟩ := exec_cblk s
  by_cases hr : BlockReady s.engine
  · by_cases hd : CoeffsInDomain (blockCoeffs s.engine)
    · cases h.symm.trans (hdone hr hd)
      exact .inl ⟨hr, hd, rfl⟩
    · cases h.symm.trans (hdomain hr hd)
      exact .inr (.inl ⟨hr, hd, rfl⟩)
  · cases h.symm.trans (hguard hr)
    exact .inr (.inr (guardCode_eq_or s.engine))

theorem ready_of_exec_dblk_err {s t : State} (h : exec .dblk s = .next t) (herr : t.engine.status.err = 0) :
    BlockReady s.engine := by
  by_contra hn
  cases h.symm.trans ((exec_dblk s).2 hn)
  obtain hcode | hcode := guardCode_eq_or s.engine <;> cases hcode.symm.trans herr

/-! ### The pipeline commands as sequences (44_memory_and_pipeline.md R207) -/

theorem execAll_cons {i : Instr} {is : List Instr} {s t : State} (h : exec i s = .next t) :
    execAll (i :: is) s = execAll is t := by
  simp only [execAll, h]

/-- Loading and transforming a ready block leaves its samples and its coefficients in the registers. -/
theorem execAll_ldpx_btfwd {s : State} (hr : BlockReady s.engine) (is : List Instr) :
    execAll (.ldpx :: .btfwd :: is) s = execAll is (s.succeedsAs
      { s.engine with samples := blockSamples s.engine, coeffs := blockCoeffs s.engine }) := by
  rw [execAll_cons ((exec_ldpx s).1 hr), execAll_cons (exec_btfwd _)]
  rfl

/-- `PACK` reads back the tuple that `QUANT` has stored. -/
theorem execAll_quant_pack {s : State} (hd : CoeffsInDomain s.engine.coeffs) (is : List Instr) :
    execAll (.quant :: .pack :: is) s = execAll is (s.succeedsAs
      { s.engine with
        quants := quantsOf (quantize configParams s.engine.coeffs)
        cw := codewordOf (quantize configParams s.engine.coeffs) }) := by
  have hrange := (quantize_reachable hd).inRange
  rw [execAll_cons ((exec_quant s).1 hd), execAll_cons ((exec_pack _).1 (quantsInRange_quantsOf hrange))]
  simp only [State.succeedsAs, quantsRead_quantsOf hrange]

/-- `DEQUANT` reads back the tuple that `UNPACK` has stored. -/
theorem execAll_unpack_dequant (s : State) (is : List Instr) :
    execAll (.unpack :: .dequant :: is) s = execAll is (s.succeedsAs
      { s.engine with
        quants := quantsOf (unpackWord s.engine.cw.toNat), coeffs := codewordCoeffs s.engine.cw }) := by
  have hrange := unpackWord_inRange s.engine.cw.toNat
  rw [execAll_cons (exec_unpack s), execAll_cons ((exec_dequant _).1 (quantsInRange_quantsOf hrange))]
  simp only [State.succeedsAs, quantsRead_quantsOf hrange, codewordCoeffs]

theorem execAll_eq_exec_cblk {s : State} (hr : BlockReady s.engine) (hd : CoeffsInDomain (blockCoeffs s.engine)) :
    execAll [.ldpx, .btfwd, .quant, .pack, .stcw] s = exec .cblk s := by
  rw [execAll_ldpx_btfwd hr, execAll_quant_pack, (exec_cblk s).1 hr hd]
  · exact execAll_cons ((exec_stcw _).1 hr)
  · exact hd

theorem execAll_eq_exec_dblk {s : State} (hr : BlockReady s.engine) :
    execAll [.ldcw, .unpack, .dequant, .btinv, .stpx] s = exec .dblk s := by
  rw [execAll_cons ((exec_ldcw s).1 hr), execAll_unpack_dequant, execAll_cons (exec_btinv _), (exec_dblk s).1 hr]
  exact execAll_cons ((exec_stpx _).1 hr)

/-- Settles O48: `ERR` says which checks have passed, and behind them each command of the sequence succeeds on what the
one before it left; `QUANT` stops where `CBLK` fails its domain check. -/
theorem pipelineIsTheFiveCommands : Obligations.PipelineIsTheFiveCommands := by
  refine ⟨fun s t h herr => ?_, fun s t h herr => ?_, fun s h => ?_⟩
  · obtain ⟨hr, hd, -⟩ | ⟨-, -, h6⟩ | h2 | h5 := exec_cblk_err_cases h
    · rw [execAll_eq_exec_cblk hr hd, h]
    · cases h6.symm.trans herr
    · cases h2.symm.trans herr
    · cases h5.symm.trans herr
  · rw [execAll_eq_exec_dblk (ready_of_exec_dblk_err h herr), h]
  · obtain ⟨-, -, h0⟩ | ⟨hr, hd, -⟩ | h2 | h5 := exec_cblk_err_cases h
    · cases h0
    · exact ⟨_, (execAll_ldpx_btfwd hr _).trans (execAll_cons ((exec_quant _).2 hd)), rfl, rfl, rfl⟩
    · cases h2
    · cases h5

/-! ### `CBLK` then `DBLK` (44_memory_and_pipeline.md R209) -/

/-- The codeword that `CBLK` stores is the one that `DBLK` loads. -/
theorem blockCodeword_storeCodeword (e : Engine Config.F) (cw : Codeword) :
    blockCodeword { e with cwm := storeBytes e.cwm (4 * asU e.blk) (be4 cw) } = cw := by
  rw [blockCodeword_eq_unbe4]
  simp only [byte_storeCodeword]
  simpa [be4] using unbe4_be4 cw

/-- `CBLK` then `DBLK` on a ready block in the domain stores what the block's tuple dequantizes to. -/
theorem cblk_then_dblk {s : State} (hr : BlockReady s.engine) (hd : CoeffsInDomain (blockCoeffs s.engine)) :
    ∃ t u, exec .cblk s = .next t ∧ exec .dblk t = .next u ∧ t.engine.cw = codewordOf (blockTuple s.engine) ∧
      u.engine.pix = storeBlock s.engine.pix (blockPixels (asU s.engine.imgW) (asU s.engine.blk))
        (blockInverse numQ (dequantize configParams (blockTuple s.engine))) := by
  refine ⟨_, _, (exec_cblk s).1 hr hd, (exec_dblk _).1 hr, rfl, ?_⟩
  have htuple := unpackWord_packWord (quantize_reachable hd).inRange
  have hcoeffs : codewordCoeffs (codewordOf (blockTuple s.engine)) = dequantize configParams (blockTuple s.engine) := by
    rw [codewordCoeffs, codewordOf_toNat, blockTuple, htuple]
  calc _ = storeBlock s.engine.pix (blockPixels (asU s.engine.imgW) (asU s.engine.blk))
        (blockInverse numQ (codewordCoeffs (codewordOf (blockTuple s.engine)))) :=
      congrArg (fun cw => storeBlock _ _ (blockInverse numQ (codewordCoeffs cw)))
        (blockCodeword_storeCodeword s.engine _)
    _ = _ := by rw [hcoeffs]

/-! ### A uniform block: every difference is 0 -/

theorem blockSamples_of_uniform {e : Engine Config.F} {t : Pixel Config.F}
    (h : ∀ p ∈ blockElements e, e.pixel configParams p = t) : blockSamples e = samplesOfPixels t t t t := by
  simp only [blockElements, List.forall_mem_cons] at h
  obtain ⟨h1, h2, h3, h4, -⟩ := h
  simp only [blockSamples, samplesOfPixels, h1, h2, h3, h4]

theorem blockForward_uniform (t : Pixel Rat) : blockForward numQ (samplesOfPixels t t t t) =
    { a := t.y, b := 0, c := 0, d := 0, apb := t.pb, apr := t.pr } := by
  rw [blockForward_numQ, samplesOfPixels]
  congr 1 <;> ring

theorem blockInverse_uniform (t : Pixel Rat) :
    blockInverse numQ { a := t.y, b := 0, c := 0, d := 0, apb := t.pb, apr := t.pr } = samplesOfPixels t t t t := by
  rw [blockInverse_numQ, samplesOfPixels]
  congr 1 <;> ring

/-- Stored samples of one pixel put that pixel in all four elements. -/
theorem pixel_storeBlock_uniform {F : Type} (P : Params F) (e : Engine F) {b : BlockPixels} (t : Pixel F) {p : Nat}
    (h : [b.p1, b.p2, b.p3, b.p4].Nodup) (hp : p ∈ [b.p1, b.p2, b.p3, b.p4]) :
    Engine.pixel P { e with pix := storeBlock e.pix b (samplesOfPixels t t t t) } p = t := by
  rw [pixel_storeBlock P e h]
  split_ifs with h1 h2 h3 h4
  · rfl
  · rfl
  · rfl
  · rfl
  · simp [h1, h2, h3, h4] at hp

/-! ### Full luma quantizes to 511 and back without loss -/

/-- The quantized values of a uniform block of luma 1 with the given chroma indices. -/
def fullLumaTuple (i j : Fin 16) : QuantTuple := { qa := 511, qb := 0, qc := 0, qd := 0, qpb := i.val, qpr := j.val }

theorem quantize_fullLuma (x z : Config.F) :
    quantize configParams { a := 1, b := 0, c := 0, d := 0, apb := x, apr := z } =
      fullLumaTuple (configChroma.indexOf x) (configChroma.indexOf z) := by
  have ha : quantA numQ 1 = 511 := by rw [quantA_numQ, one_mul]; exact rhazQ_intCast 511
  have hdiff : quantDiff numQ 0 = 0 := by rw [quantDiff_of_mem (by norm_num) (by norm_num), zero_mul, rhazQ_zero]
  simp only [quantize, configParams, ha, hdiff, quantChroma, fullLumaTuple]

theorem dequantize_fullLuma (i j : Fin 16) : dequantize configParams (fullLumaTuple i j) =
    { a := 1, b := 0, c := 0, d := 0, apb := configChroma.chromaOf i, apr := configChroma.chromaOf j } := by
  simp [dequantize, configParams, fullLumaTuple, dequantA_numQ, dequantDiff_numQ, dequantChroma]

theorem codewordOf_fullLuma (i j : Fin 16) :
    (codewordOf (fullLumaTuple i j)).toNat = 0xFF800000 + 16 * i.val + j.val := by
  rw [codewordOf_toNat, packWord_eq_sum, fullLumaTuple, fieldPattern_natCast i.isLt, fieldPattern_natCast j.isLt]
  have h511 : fieldPattern 9 511 = 511 := by decide
  have h0 : fieldPattern 5 0 = 0 := by decide
  simp only [h511, h0]
  omega

/-- Settles O49: the block's tuple is the one of full luma, which dequantizes to luma 1, the differences 0 and the two
levels. -/
theorem uniformBlockRoundTrip : Obligations.UniformBlockRoundTrip := by
  rintro s x z _ hr rfl huniform hx hz
  have hcoeffs : blockCoeffs s.engine = { a := 1, b := 0, c := 0, d := 0, apb := x, apr := z } := by
    rw [blockCoeffs, blockSamples_of_uniform huniform, blockForward_uniform]
  have hdomain : CoeffsInDomain (blockCoeffs s.engine) := by
    rw [hcoeffs]
    exact ⟨zero_le_one, le_rfl, hx, hz⟩
  have htuple : blockTuple s.engine = fullLumaTuple (configChroma.indexOf x) (configChroma.indexOf z) := by
    rw [blockTuple, hcoeffs, quantize_fullLuma]
  obtain ⟨t, u, ht, hu, hcw, hpix⟩ := cblk_then_dblk hr hdomain
  refine ⟨t, u, ht, hu, by rw [hcw, htuple, codewordOf_fullLuma], fun p hp => ?_⟩
  rw [htuple, dequantize_fullLuma, blockInverse_uniform ⟨1, _, _⟩] at hpix
  exact (pixel_congr configParams (congrArg (Memory.read · p) hpix)).trans
    (pixel_storeBlock_uniform configParams s.engine _ (blockElements_nodup hr) hp)

end Sys2Proof.Proofs

/-! PROOFS. The host's port and the control commands: the register files as tables, which transactions are admitted and
what a read returns (45_control_and_host.md R220 to R224), and what a step takes from the pending list. -/

namespace Sys2Proof.Proofs

open Sys2Proof.Machine

/-! ### The register files as tables (10_state.md R21, R27) -/

section RegisterTables

variable {F : Type}

/-- The integer registers by their numbers, with the values the host reads (10_state.md R21, R22, R24). -/
def intRegisters (e : Engine F) : List (Nat × Word64) :=
  [(0x00, e.word), (0x01, e.val), (0x02, statusValue e.status), (0x03, e.imgW), (0x04, e.imgH), (0x05, e.blk),
    (0x08, e.quants.qa), (0x09, e.quants.qb), (0x0A, e.quants.qc), (0x0B, e.quants.qd), (0x0C, e.quants.qpb),
    (0x0D, e.quants.qpr), (0x0E, e.cw.setWidth 64)]

/-- The `F`-typed registers by their numbers (10_state.md R27). -/
def numRegisters (e : Engine F) : List (Nat × F) :=
  [(0x20, e.samples.y1), (0x21, e.samples.y2), (0x22, e.samples.y3), (0x23, e.samples.y4),
    (0x24, e.samples.pb1), (0x25, e.samples.pb2), (0x26, e.samples.pb3), (0x27, e.samples.pb4),
    (0x28, e.samples.pr1), (0x29, e.samples.pr2), (0x2A, e.samples.pr3), (0x2B, e.samples.pr4),
    (0x30, e.coeffs.a), (0x31, e.coeffs.b), (0x32, e.coeffs.c), (0x33, e.coeffs.d), (0x34, e.coeffs.apb),
    (0x35, e.coeffs.apr)]

/-- A read answers the one entry with its number, and nothing where the table has none. -/
theorem intRegRead_eq_some_iff (e : Engine F) (n : Nat) (v : Word64) :
    intRegRead e n = some v ↔ (n, v) ∈ intRegisters e := by
  unfold intRegRead intRegisters
  split <;> simp_all [eq_comm]

theorem numRegRead_eq_some_iff (e : Engine F) (n : Nat) (v : F) :
    numRegRead e n = some v ↔ (n, v) ∈ numRegisters e := by
  unfold numRegRead numRegisters
  split <;> simp_all [eq_comm]

end RegisterTables

/-! ### What R223 admits: the transactions for which the engine has the register, the element or the byte -/

section AdmittedTransactions

variable (e : Engine Config.F) (n : Nat)

theorem admitted_regRead_iff : Admitted e (.regRead n) ↔ ∃ v, intRegRead e n = some v := by
  simp [Admitted, intRegRead_eq_some_iff, intRegisters, exists_or]

theorem admitted_fregRead_iff : Admitted e (.fregRead n) ↔ ∃ v, numRegRead e n = some v := by
  simp only [Admitted, numRegRead_eq_some_iff, numRegisters, List.mem_cons, Prod.mk.injEq, List.not_mem_nil, or_false,
    exists_or, exists_and_left, exists_eq, and_true]
  omega

theorem admitted_regWrite_iff (data : Word64) :
    Admitted e (.regWrite n data) ↔ ∃ e', intRegWrite e n data = some e' := by
  refine ⟨intRegWrite_isSome e data, fun ⟨e', h⟩ => ?_⟩
  unfold intRegWrite at h
  split at h <;> cases h <;> simp [Admitted]

/-- A written register reads as written, so that its number is one of the readable ones, which R223 admits. -/
theorem admitted_fregWrite_iff (v : Config.F) :
    Admitted e (.fregWrite n v) ↔ ∃ e', numRegWrite e n v = some e' :=
  ⟨numRegWrite_isSome e v, fun ⟨e', h⟩ => (admitted_fregRead_iff e' n).mpr ⟨v, numRegRead_written h⟩⟩

theorem admitted_pixRead_iff : Admitted e (.pixRead n) ↔ n < e.pixSize := Iff.rfl

theorem admitted_pixWrite_iff (t : Pixel Config.F) : Admitted e (.pixWrite n t) ↔ n < e.pixSize := Iff.rfl

theorem admitted_byteRead_iff : Admitted e (.byteRead n) ↔ n < e.cwmSize := by
  rw [Admitted, Engine.cwmSize, blockCount, cwBytes, Nat.mul_assoc]

theorem admitted_byteWrite_iff (b : Byte) : Admitted e (.byteWrite n b) ↔ n < e.cwmSize := admitted_byteRead_iff e n

end AdmittedTransactions

/-! ### Refusals and replies of the host's transactions (45_control_and_host.md R222 to R224) -/

section Transactions

variable {s : State}

/-- "A model refuses" what R224 does not admit, and nothing else. -/
theorem hostAccess_refused_iff (t : HostAccess Config.F) (s : State) :
    (∃ r, hostAccess t s = .refused r) ↔ ¬Admitted s.engine t := by
  cases t with
  | regWrite n data =>
    rw [admitted_regWrite_iff]
    cases h : intRegWrite s.engine n data <;> simp [hostAccess, engineAccess, h]
  | regRead n =>
    rw [admitted_regRead_iff]
    cases h : intRegRead s.engine n <;> simp [hostAccess, engineAccess, h]
  | fregWrite n v =>
    rw [admitted_fregWrite_iff]
    cases h : numRegWrite s.engine n v <;> simp [hostAccess, engineAccess, h]
  | fregRead n =>
    rw [admitted_fregRead_iff]
    cases h : numRegRead s.engine n <;> simp [hostAccess, engineAccess, h]
  | pixWrite p t =>
    rw [admitted_pixWrite_iff]
    by_cases h : p < s.engine.pixSize <;> simp [hostAccess, engineAccess, Engine.pixWrite, h]
  | pixRead p =>
    rw [admitted_pixRead_iff]
    by_cases h : p < s.engine.pixSize <;> simp [hostAccess, engineAccess, Engine.pixRead, h]
  | byteWrite addr b =>
    rw [admitted_byteWrite_iff]
    by_cases h : addr < s.engine.cwmSize <;> simp [hostAccess, engineAccess, Engine.memWrite, h]
  | byteRead addr =>
    rw [admitted_byteRead_iff]
    by_cases h : addr < s.engine.cwmSize <;> simp [hostAccess, engineAccess, h]

theorem hostAccess_goesOn {t : HostAccess Config.F} (h : Admitted s.engine t) : GoesOn (hostAccess t s) := by
  obtain ⟨e, he⟩ | ⟨r, hr⟩ | hrefused := hostAccess_cases t s
  · exact ⟨_, he⟩
  · exact ⟨_, hr⟩
  · exact absurd h ((hostAccess_refused_iff t s).mp hrefused)

theorem hostAccess_regRead {n : Nat} {v : Word64} (h : intRegRead s.engine n = some v) :
    hostAccess (.regRead n) s = .next { s with replies := .register v :: s.replies } := by
  simp only [hostAccess, engineAccess, h]

theorem hostAccess_fregRead {n : Nat} {v : Config.F} (h : numRegRead s.engine n = some v) :
    hostAccess (.fregRead n) s = .next { s with replies := .number v :: s.replies } := by
  simp only [hostAccess, engineAccess, h]

theorem hostAccess_pixRead {p : Nat} (h : p < s.engine.pixSize) : hostAccess (.pixRead p) s =
    .next { s with replies := .pixel (s.engine.pixel configParams p) :: s.replies } := by
  have hread := (pixRead_ok_iff configParams s.engine p _).mpr ⟨h, rfl⟩
  simp only [hostAccess, engineAccess, hread]

theorem hostAccess_byteRead {addr : Nat} (h : addr < s.engine.cwmSize) : hostAccess (.byteRead addr) s =
    .next { s with replies := .byte (s.engine.byte configParams addr) :: s.replies } := by
  simp only [hostAccess, engineAccess, if_pos h]

end Transactions

/-- Settles O60: an entry of a table, an element or a byte is what the read answers. -/
theorem readsReturnAndChangeNothing : Obligations.ReadsReturnAndChangeNothing := by
  rintro s _ rfl
  refine ⟨fun r hr => ?_, fun r hr => ?_, fun p hp => hostAccess_pixRead hp, fun addr ha =>
    hostAccess_byteRead ((admitted_byteRead_iff s.engine addr).mp ha)⟩
  · have hread := (intRegRead_eq_some_iff s.engine r.1 r.2).mpr hr
    exact ⟨hread, hostAccess_regRead hread⟩
  · have hread := (numRegRead_eq_some_iff s.engine r.1 r.2).mpr hr
    exact ⟨hread, hostAccess_fregRead hread⟩

/-! ### A step takes the next pending transaction (45_control_and_host.md R222) -/

section Steps

variable {s : State} {rest : List (HostEvent Config.F)}

theorem step_of_cmd {word : CommandWord} {i : Instr} (h : s.pending = .cmd word :: rest)
    (hd : decode word = .command i) : step s = exec i { s with pending := rest } := by
  simp only [step, fetch_cmd h, hd]

theorem step_of_access {t : HostAccess Config.F} (h : s.pending = .access t :: rest) :
    step s = hostAccess t { s with pending := rest } := by
  simp only [step, fetch_access h]

end Steps

/-- Settles O5. -/
theorem stepRunsDecodedCommand : Obligations.StepRunsDecodedCommand :=
  ⟨fun _ _ _ _ => step_of_cmd, fun _ _ _ => step_of_access⟩

/-- Settles O6: taking the transaction leaves the engine, and with it what is admitted, as it was. -/
theorem accessGoesOnIffAdmitted : Obligations.AccessGoesOnIffAdmitted := by
  intro s t rest h
  rw [step_of_access h]
  have hrefused := hostAccess_refused_iff t { s with pending := rest }
  exact ⟨hostAccess_goesOn (s := { s with pending := rest }), hrefused.mpr⟩

/-! ### `NOP` and `CLRERR`: no check, so that each succeeds with its effect (45_control_and_host.md R220, R221) -/

/-- Settles O13: its effect leaves the engine as it was. -/
theorem nopResult : Obligations.NopResult := fun _ => exec_of_unchecked (i := .nop) rfl

/-- Settles O14: its effect clears `ANYERR`. -/
theorem clrerrResult : Obligations.ClrerrResult := fun _ => exec_of_unchecked (i := .clrerr) rfl

end Sys2Proof.Proofs

/-! PROOFS. Errors (60_exceptions.md): a failing command changes nothing but `STATUS` (R241), which words and which
blocks fail (R233, R235, R237), and no command sees what a failure has left in `STATUS` (R242). -/

namespace Sys2Proof.Proofs

open Sys2Proof.Machine

/-! ### A failing command changes nothing but `STATUS` (60_exceptions.md R241) -/

/-- Settles O53: a nonzero `ERR` says that a check raised it, and raising is the failure of that code. -/
theorem failureChangesOnlyStatus : Obligations.FailureChangesOnlyStatus := by
  intro i s t h herr
  obtain ⟨kind, -, rfl⟩ | ⟨-, rfl⟩ := exec_next_cases h
  · rfl
  · exact absurd (statusSucceed_err _) herr

/-! ### A word that is no command (60_exceptions.md R233) -/

/-- A word that is the word of no well-formed command does not decode. -/
theorem exists_illegal_of_not_encoded {word : CommandWord}
    (h : ∀ i : Instr, i.wellFormed = true → encode i ≠ word) : ∃ why, decode word = .illegal why := by
  cases hd : decode word with
  | command i =>
    obtain ⟨hword, hwf⟩ := encodeOfDecode word i hd
    exact absurd hword (h i hwf)
  | illegal why => exact ⟨why, rfl⟩

theorem step_of_illegal {s : State} {word : CommandWord} {rest : List (HostEvent Config.F)} {why : IllegalWord}
    (h : s.pending = .cmd word :: rest) (hd : decode word = .illegal why) :
    step s = .next (State.failsWith { s with pending := rest } 3) := by
  simp only [step, fetch_cmd h, hd]
  rfl

/-- Settles O4: such a word does not decode (O3), so that the step raises `IllegalCommand`. -/
theorem otherWordsAreIllegal : Obligations.OtherWordsAreIllegal := by
  intro s word rest h hnone
  obtain ⟨why, hd⟩ := exists_illegal_of_not_encoded hnone
  exact step_of_illegal h hd

/-! ### A block that the guard stops (60_exceptions.md R235, R237) -/

/-- Every command that addresses a block checks the guard first (60_exceptions.md R236). -/
theorem commandCheck_of_guardFails {i : Instr} {e : Engine Config.F} {kind : ErrorKind}
    (hi : i ∈ [Instr.ldpx, .stpx, .ldcw, .stcw, .cblk, .dblk]) (h : guardCheck e = some kind) :
    commandCheck i e = some kind := by
  cases i with
  | ldpx | stpx | ldcw | stcw | dblk => exact h
  | cblk => exact Option.or_eq_some_iff.mpr (.inl h)
  | _ => simp at hi

/-- Settles O40: in both cases the block is not ready, and the guard's code is 2 in the first and 5 in the second. -/
theorem blockGuardErrors : Obligations.BlockGuardErrors := by
  intro i s hi
  have hfails := exec_of_guardFails (s := s) fun _ => commandCheck_of_guardFails hi
  refine ⟨fun hodd => ?_, fun hw hh hk => ?_⟩
  · rw [hfails fun ⟨hw, hh, _⟩ => by omega, guardCode, if_pos hodd]
  · rw [hfails fun ⟨_, _, hlt⟩ => absurd hk hlt.not_ge, guardCode, if_neg (by omega)]

/-! ### No command reads `STATUS` (60_exceptions.md R242) -/

section StatusUnread

variable (i : Instr) (e : Engine Config.F) (st : Status)

theorem same_withStatus {g : Machine.Group} (hflag : g ≠ .flag) (hany : g ≠ .anyErr) :
    g.same e { e with status := st } := by
  have hrefl := same_refl e g
  cases g with
  | flag => exact absurd rfl hflag
  | anyErr => exact absurd rfl hany
  | _ => exact hrefl

/-- No row of the read sets has a field of `STATUS` (10_state.md R29). -/
theorem status_notMem_readSet : Machine.Group.flag ∉ readSet i ∧ Machine.Group.anyErr ∉ readSet i := by
  cases i <;> simp [readSet]

theorem commandCheck_withStatus : commandCheck i { e with status := st } = commandCheck i e := by
  obtain ⟨hflag, hany⟩ := status_notMem_readSet i
  exact commandCheck_congr fun g hg =>
    same_withStatus e st (ne_of_mem_of_not_mem hg hflag) (ne_of_mem_of_not_mem hg hany)

/-- Under another `STATUS` a command has the same effect outside `STATUS`. -/
theorem commandEffect_withStatus :
    ∃ st', commandEffect i { e with status := st } = { commandEffect i e with status := st' } := by
  cases i with
  | clrerr => exact ⟨statusClearAnyErr st, rfl⟩
  | fitsu width => exact ⟨statusSetFlag st (fitsU (asU e.val) width), rfl⟩
  | fitss width => exact ⟨statusSetFlag st (fitsS (asS e.val) width), rfl⟩
  | _ => exact ⟨st, rfl⟩

end StatusUnread

/-- How a command ends under another `STATUS`: the same error or none, and the same engine outside `STATUS`. -/
theorem exec_withStatus (i : Instr) (s : State) (st : Status) :
    ∃ t st', exec i s = .next t ∧
      exec i { s with engine := { s.engine with status := st } } =
        .next { t with engine := { t.engine with status := st' } } ∧
      st'.err = t.engine.status.err := by
  obtain ⟨st', heffect⟩ := commandEffect_withStatus i s.engine st
  have hcheck := commandCheck_withStatus i s.engine st
  cases hc : commandCheck i s.engine with
  | some kind =>
    exact ⟨_, statusFail st kind, exec_of_checkFails hc, exec_of_checkFails (hcheck.trans hc), rfl⟩
  | none =>
    have hend := congrArg s.succeedsAs heffect
    have hexec := exec_of_unchecked (s := { s with engine := { s.engine with status := st } }) (hcheck.trans hc)
    exact ⟨_, statusSucceed st', exec_of_unchecked hc, hexec.trans (congrArg Host.Outcome.next hend), rfl⟩

/-- Settles O57: the state after a failure is the state before it under another `STATUS`. -/
theorem failureLeavesNoTrace : Obligations.FailureLeavesNoTrace := by
  intro i s code
  obtain ⟨t, st', ht, ht', herr⟩ := exec_withStatus i s (s.failsWith code).engine.status
  exact ⟨t, _, ht, ht', herr, rfl⟩

end Sys2Proof.Proofs

/-! PROOFS. The platform's reset and the completion of commands (70_reset_and_hazards.md): what a reset between two
transactions leaves (R260), and that every command runs to a next state (R268). -/

namespace Sys2Proof.Proofs

open Sys2Proof.Machine

/-! ### A step takes a pending reset (70_reset_and_hazards.md R260) -/

theorem step_of_reset {s : State} {rest : List (HostEvent Config.F)} (h : s.pending = .reset :: rest) :
    step s = platformResetNow { s with pending := rest } := by
  simp only [step, fetch_reset h]

/-- Settles O10: the step resets the engine, and the reset writes `STATUS`, the dimensions and `BLK` with 0 and takes
both memories over. -/
theorem platformResetClearsControl : Obligations.PlatformResetClearsControl := by
  intro s rest h
  exact ⟨_, step_of_reset h, platformReset_status .., platformReset_imgW .., platformReset_imgH ..,
    platformReset_blk .., platformReset_pix .., platformReset_cwm .., rfl, rfl⟩

/-! ### Every command goes on (70_reset_and_hazards.md R268, 60_exceptions.md R242) -/

/-- Settles O51: a command is its checks and its effect, and either end is a next state. -/
theorem everyCommandGoesOn : Obligations.EveryCommandGoesOn := fun i s => ⟨_, exec_eq i s⟩

end Sys2Proof.Proofs
